-- ==== Sys2Proof/Word.lean ====
section
/-! DEFINITION. The two widths of data in B64VK: bytes, and 64-bit register words (00_scope.md R13, 10_state.md R23). -/

namespace Sys2Proof

/-- A register of the window, and a command word: 64 bits. -/
abbrev Word := BitVec 64

/-- A byte of memory, and a lane of the datapath. -/
abbrev Byte := BitVec 8

end Sys2Proof
end

