-- ==== Sys2Proof/Config.lean ====
section
/-! DEFINITION. What an implementation fixes (00_scope.md section 4) and the free values of what the spec leaves open. -/

namespace Sys2Proof

/-- VARIANT (R9): which datapath is built. -/
inductive Variant where
  | full
  | scalar
  | stub
deriving DecidableEq, Repr

/-- TBL_IMPL (R11): how the 16-entry table lookup is built. -/
inductive TblImpl where
  | native128
  | split64
deriving DecidableEq, Repr

/-- The build and platform parameters of 00_scope.md section 4. ENC_STRIDE_OUT and DEC_STRIDE_OUT are derived (R6, R7). -/
structure Params where
  /-- AW (R5) -/
  aw : Nat
  /-- ENC_STRIDE_IN (R6) -/
  encIn : Nat
  /-- DEC_STRIDE_IN (R7) -/
  decIn : Nat
  /-- VARIANT (R9) -/
  variant : Variant
  /-- TBL_IMPL (R11) -/
  tblImpl : TblImpl
  /-- REG_BASE (R12) -/
  regBase : Nat
  /-- MEM_COHERENT (R12, 20_memory.md R59) -/
  memCoherent : Bool
deriving DecidableEq, Repr

/-- ENC_STRIDE_OUT = ENC_STRIDE_IN * 4 / 3 (R6). -/
def Params.encOut (p : Params) : Nat := p.encIn * 4 / 3

/-- DEC_STRIDE_OUT = DEC_STRIDE_IN * 3 / 4 (R7). -/
def Params.decOut (p : Params) : Nat := p.decIn * 3 / 4

/-- The number of byte addresses, 2^AW (20_memory.md R44). -/
def Params.space (p : Params) : Nat := 2 ^ p.aw

/-- B64VK's own values. TBL_IMPL, REG_BASE and MEM_COHERENT are OPEN: the values here are a DESIGN CHOICE (log 6). -/
def Params.b64vk : Params where
  aw := 64
  encIn := 48
  decIn := 32
  variant := .full
  tblImpl := .native128
  regBase := 0x40000000
  memCoherent := true

/-- RESULT (60_exceptions.md R130). The reserved codes 7..15 are never produced, so they have no constructor. -/
inductive ResultCode where
  | none
  | ok
  | invalid
  | notApplicable
  | badCmd
  | rangeErr
  | busErr
deriving DecidableEq, Repr, Inhabited

/-! Free values. Each is applied to State.draws, so that every use is a fresh one. They have no body: nothing can be
proved about what they are. -/

/-- An unspecified byte of memory, by draw and address: after BUS_ERR (R136), after a reset while BUSY (R149), after a
race (R154), or seen by a host that is not coherent (R59). -/
opaque Config.freeByte : Nat → Nat → Byte

/-- An unspecified register value: RESULT_COUNT after a race (R154), or a read that a reset overlaps (R149). -/
opaque Config.freeWord : Nat → Word

/-- RESULT_STRIDES after a race (R154), a free value independent of RESULT_COUNT's. -/
opaque Config.freeStrides : Nat → Word

/-- The result code after a race (R154). -/
opaque Config.freeResult : Nat → ResultCode

/-- Whether a flaky address answers an access with a bus error (R136). -/
opaque Config.freeBusError : Nat → Bool

/-- Whether a register write that a reset overlaps took effect (R149). -/
opaque Config.freeTookEffect : Nat → Bool

end Sys2Proof
end

