-- ==== Sys2Proof/Syntax.lean ====
section
/-! DEFINITION. The commands of spec/opcode_table.json, the host transactions and the host command language
(30_encoding.md), and the actions of the agents outside the block. -/

namespace Sys2Proof

/-- The command set (R2, R62): one constructor per row of the opcode table. A command word has no operand fields (R63). -/
inductive Instr where
  /-- word 0x1, 41_loop_driver.md R86 -/
  | encode
  /-- word 0x2, 41_loop_driver.md R90 -/
  | decode
deriving DecidableEq, Repr

/-- Why a command word names no command (R64). -/
inductive IllegalWord where
  /-- bits 63:8 are not all 0 -/
  | reservedBits
  /-- bits 63:8 are 0, and OPCODE is 0x00 or 0x03..0xFF -/
  | opcode
deriving DecidableEq, Repr

/-- The registers of the window (10_state.md R24). -/
inductive RegName where
  | id
  | caps
  | cmd
  | status
  | srcAddr
  | srcLen
  | dstAddr
  | resultCount
  | resultStrides
  /-- an offset 0x48..0xF8 (R25) -/
  | reserved
deriving DecidableEq, Repr

/-- KIND of a transaction (R60). -/
inductive Kind where
  | read
  | write
deriving DecidableEq, Repr

/-- A transaction on the register slave port (R60). `width` is the access width in bits, so that the accesses R23 puts
outside the spec can be written down and refused. -/
structure Transaction where
  kind : Kind
  offset : BitVec 8
  width : Nat
  /-- write data; 0 for a read, whose DATA is the response -/
  data : Word
deriving DecidableEq, Repr

/-- Why a transaction is outside the spec (R23, R60). -/
inductive BadAccess where
  | width
  | misaligned
deriving DecidableEq, Repr

/-- A line of the host command language (R67), the pseudo-instructions of R68 among them. -/
inductive HostCommand where
  | wr (r : RegName) (v : Word)
  | rd (r : RegName)
  | encode
  | decode
  | setup (src len dst : Word)
  | wait
  | ack
deriving DecidableEq, Repr

/-- What the outside world can do to the block and to the memory it shares (R20, R43, R55, R148, R149). -/
inductive HostAction where
  /-- a transaction on the register slave port -/
  | access (t : Transaction)
  /-- the `wait` loop (R68): STATUS is read until the value read has bit 0 (BUSY) = 0 -/
  | wait
  /-- the host reads a byte of system memory -/
  | memRead (addr : Word)
  /-- the host writes a byte of system memory -/
  | memWrite (addr : Word) (b : Byte)
  /-- the reset input is driven: true asserts it, false releases it -/
  | resetInput (level : Bool)
  /-- the reset input is asserted during a register access (R149) -/
  | resetDuring (t : Transaction)
  /-- the reset input is released during a register access (log 16) -/
  | releaseDuring (t : Transaction)
deriving DecidableEq, Repr

/-- How many engine steps run before the next host action lands (R97, R157): a number, or as many as the running command
needs to finish. -/
inductive Pace where
  | steps (n : Nat)
  | toCompletion
deriving DecidableEq, Repr

/-- A host action and the pace of the engine after it (log 2). -/
structure Turn where
  action : HostAction
  pace : Pace
deriving DecidableEq, Repr

/-- E.phase (10_state.md R38). -/
inductive Phase where
  | idle
  | check
  | encVec
  | encTail
  | decVec
  | decTail
deriving DecidableEq, Repr

/-- E.pass (10_state.md R37). -/
inductive Pass where
  | validate
  | write
deriving DecidableEq, Repr

/-- What sets a range of addresses apart (20_memory.md R52, R54; 60_exceptions.md R136; log 7). The first two kinds are
about the block's master port alone: the host reaches the memory there as any other. -/
inductive RegionKind where
  /-- the bus answers every access on the master port with an error -/
  | error
  /-- the bus may answer an access on the master port with an error -/
  | flaky
  /-- memory with side effects, such as device registers -/
  | device
deriving DecidableEq, Repr

/-- A range of addresses [base, base + size) of one kind. -/
structure Region where
  base : Nat
  size : Nat
  kind : RegionKind
deriving DecidableEq, Repr

end Sys2Proof
end

