-- ==== Sys2Proof/WellFormed.lean ====
section
/-! DEFINITION. Which terms the spec gives a meaning: transactions (R23, R60) and build parameters (00_scope.md section 4). -/

namespace Sys2Proof

/-- A command word has no operand and no form: each command is well-formed (R63, R66). -/
def Instr.wf : Instr → Bool
  | .encode => true
  | .decode => true

/-- A 64-bit access at an offset that is a multiple of 8 (R23, R60). -/
def Transaction.wf (t : Transaction) : Bool :=
  t.width == 64 && t.offset.toNat % 8 == 0

/-- The legal values of the parameters (00_scope.md section 4). -/
def Params.wf (p : Params) : Bool :=
  32 ≤ p.aw && p.aw ≤ 64
    && 3 ≤ p.encIn && p.encIn ≤ 48 && p.encIn % 3 == 0
    && 4 ≤ p.decIn && p.decIn ≤ 64 && p.decIn % 4 == 0
    && p.regBase % 256 == 0

end Sys2Proof
end

