-- ==== Sys2Proof/Decode.lean ====
section
/-! DEFINITION. Decoding of command words and register transactions, and the encoder (30_encoding.md). -/

namespace Sys2Proof

/-- OPCODE, bits 7:0 of a command word (R61). -/
def Word.opcode (w : Word) : BitVec 8 := w.extractLsb' 0 8

/-- RSVD, bits 63:8 of a command word (R61). -/
def Word.rsvd (w : Word) : BitVec 56 := w.extractLsb' 8 56

/-- The command a word names (R62), or why it is illegal (R64). No other word is a hint or a no-op (R65). -/
def decodeWord (w : Word) : Except IllegalWord Instr :=
  if Word.rsvd w ≠ 0 then .error .reservedBits
  else if Word.opcode w = 1 then .ok .encode
  else if Word.opcode w = 2 then .ok .decode
  else .error .opcode

/-- The opcode of a command (R62). -/
def opcodeOf : Instr → BitVec 8
  | .encode => 0x01
  | .decode => 0x02

/-- The word of a command: RSVD = 0, then OPCODE (R61). -/
def encode (i : Instr) : Word := (0 : BitVec 56) ++ opcodeOf i

/-- The instruction the decoder reads from a word whose bits are numbered as spec/opcode_table.json numbers them. A command
word is 64 bits (R66). -/
def decodeTableWord (nbits w : Nat) : Option Instr :=
  if w % 2 ^ nbits < 2 ^ 64 then
    match decodeWord (BitVec.ofNat 64 (w % 2 ^ nbits)) with
    | .ok i => some i
    | .error _ => none
  else none

/-- The offset of a register (10_state.md R24). For the reserved offsets it gives the first of them. -/
def RegName.offset : RegName → BitVec 8
  | .id => 0x00
  | .caps => 0x08
  | .cmd => 0x10
  | .status => 0x18
  | .srcAddr => 0x20
  | .srcLen => 0x28
  | .dstAddr => 0x30
  | .resultCount => 0x38
  | .resultStrides => 0x40
  | .reserved => 0x48

/-- The register at an aligned offset (10_state.md R24, R25). -/
def RegName.ofOffset (o : BitVec 8) : RegName :=
  if o = 0x00 then .id
  else if o = 0x08 then .caps
  else if o = 0x10 then .cmd
  else if o = 0x18 then .status
  else if o = 0x20 then .srcAddr
  else if o = 0x28 then .srcLen
  else if o = 0x30 then .dstAddr
  else if o = 0x38 then .resultCount
  else if o = 0x40 then .resultStrides
  else .reserved

/-- The register a transaction addresses, or why the access is outside the spec (10_state.md R23, R60). -/
def decodeAccess (t : Transaction) : Except BadAccess RegName :=
  if t.width ≠ 64 then .error .width
  else if t.offset.toNat % 8 ≠ 0 then .error .misaligned
  else .ok (RegName.ofOffset t.offset)

/-- `wr NAME, value` (R67). -/
def wrAccess (r : RegName) (v : Word) : Transaction :=
  { kind := .write, offset := r.offset, width := 64, data := v }

/-- `rd NAME` (R67). -/
def rdAccess (r : RegName) : Transaction :=
  { kind := .read, offset := r.offset, width := 64, data := 0 }

/-- The host actions of a line of the host command language (R67, R68): one transaction each, and for `wait` the loop of
STATUS reads, whose number is not fixed. -/
def HostCommand.actions : HostCommand → List HostAction
  | .wr r v => [.access (wrAccess r v)]
  | .rd r => [.access (rdAccess r)]
  | .encode => [.access (wrAccess .cmd (Sys2Proof.encode .encode))]
  | .decode => [.access (wrAccess .cmd (Sys2Proof.encode .decode))]
  | .setup src len dst =>
    [.access (wrAccess .srcAddr src), .access (wrAccess .srcLen len), .access (wrAccess .dstAddr dst)]
  | .wait => [.wait]
  | .ack => [.access (wrAccess .status 0x6)]

end Sys2Proof
end

