-- ==== Sys2Proof/Machine/State.lean ====
section
/-! DEFINITION. The state of the machine (10_state.md), the state after reset (R42), and the reasons a step can stop. -/

namespace Sys2Proof.Machine

/-- STATUS (10_state.md R29). Its reserved bits are never set, so they have no storage. -/
structure Status where
  busy : Bool
  done : Bool
  overrun : Bool
  result : ResultCode
deriving DecidableEq, Repr

/-- The registers of the window that hold state (10_state.md R24). ID and CAPS are constants, and CMD is a port. -/
structure Regs where
  status : Status
  srcAddr : Word
  srcLen : Word
  dstAddr : Word
  resultCount : Word
  resultStrides : Word
deriving DecidableEq, Repr

/-- Q0..Q3 (10_state.md R39). -/
structure VReg where
  q0 : BitVec 128
  q1 : BitVec 128
  q2 : BitVec 128
  q3 : BitVec 128
deriving DecidableEq, Repr

/-- E.grp (10_state.md R37): up to four bytes of the current group. -/
structure Group where
  b0 : Byte
  b1 : Byte
  b2 : Byte
  b3 : Byte
deriving DecidableEq, Repr

/-- The internal engine state (10_state.md R37). -/
structure Engine where
  phase : Phase
  cmd : Word
  src : Word
  len : Word
  dst : Word
  rd : Word
  wr : Word
  ns : Word
  pass : Pass
  q : VReg
  grp : Group
deriving DecidableEq, Repr

/-- The whole machine: the block, the memory it shares with the host, and what is still to come from outside. -/
structure State where
  /-- the build; no step changes it (log 1) -/
  params : Params
  regs : Regs
  eng : Engine
  /-- system memory, in the canonical form of Memory.wf -/
  mem : List Host.Cell
  /-- the platform's addresses that the bus answers with errors, or that are devices; no step changes it (log 7) -/
  regions : List Region
  /-- the level of the reset input (R148) -/
  inReset : Bool
  /-- a host wrote a byte of the running command's ranges (R154, log 9) -/
  raced : Bool
  /-- how many free values have been drawn (log 24) -/
  draws : Nat
  /-- DATA of the last read transaction, or the byte of the last memory read (R60, log 18) -/
  response : Option Word
  /-- how long the engine runs before the next host action (log 2) -/
  pace : Pace
  /-- the host actions still to come, oldest first (log 2) -/
  inbox : List Turn
deriving DecidableEq, Repr

/-- Why the machine stops with a fault. -/
inductive Fault where
  /-- Raised by the engine's memory operations on an access past 2^AW, an address that does not exist (20_memory.md R44).
  Safe. No state that meets the invariant raises it (41_loop_driver.md R95, log 14). -/
  | outsideSpace
deriving DecidableEq, Repr

/-- Why a step is refused. -/
inductive Refusal where
  /-- An arm of exec that has no meaning yet. No arm raises it. Safe. -/
  | notModelled (mnemonic : String)
  /-- Raised by a register access whose width is not 64 bits, a byte access of the host to the register window among them
(10_state.md R23). Safe. -/
  | accessWidth
  /-- Raised by a register access whose offset is not a multiple of 8 (10_state.md R23). Safe. -/
  | accessMisaligned
  /-- Raised by CHECK when a command that passes its checks touches memory with side effects or the register window
  (20_memory.md R52). Safe. -/
  | deviceMemory
  /-- Raised by a host memory access to an address of 2^AW or more, which does not exist (20_memory.md R44). Safe. -/
  | hostOutsideSpace
  /-- Raised by a host memory access to a device region: what it does is the device's, and the spec gives it no effect
  (20_memory.md R52, R53). Safe. -/
  | hostDevice
deriving DecidableEq, Repr

/-- The registers after reset (10_state.md R42). -/
def Regs.reset : Regs where
  status := { busy := false, done := false, overrun := false, result := .none }
  srcAddr := 0
  srcLen := 0
  dstAddr := 0
  resultCount := 0
  resultStrides := 0

/-- The engine after reset: E.phase = IDLE (10_state.md R42). The other elements are unspecified, and the values here are
DESIGN CHOICE (log 5). -/
def Engine.reset : Engine where
  phase := .idle
  cmd := 0
  src := 0
  len := 0
  dst := 0
  rd := 0
  wr := 0
  ns := 0
  pass := .validate
  q := { q0 := 0, q1 := 0, q2 := 0, q3 := 0 }
  grp := { b0 := 0, b1 := 0, b2 := 0, b3 := 0 }

/-- The machine right after reset (10_state.md R42, 70_reset_and_hazards.md R148), as the build B64VK, with no host action
to come. -/
def State.reset : State where
  params := .b64vk
  regs := .reset
  eng := .reset
  mem := []
  regions := []
  inReset := false
  raced := false
  draws := 0
  response := none
  pace := .toCompletion
  inbox := []

end Sys2Proof.Machine
end

