-- ==== Sys2Proof/Machine/Flags.lean ====
section
/-! DEFINITION. STATUS, the block's only flags (10_state.md R29, R30, R36; 60_exceptions.md R130). -/

namespace Sys2Proof.Machine

/-- The 4-bit code of a result (R130). -/
def resultBits : ResultCode → BitVec 4
  | .none => 0
  | .ok => 1
  | .invalid => 2
  | .notApplicable => 3
  | .badCmd => 4
  | .rangeErr => 5
  | .busErr => 6

/-- STATUS as the host reads it (R29): RESULT in bits 11:8, OVERRUN in bit 2, DONE in bit 1, BUSY in bit 0. -/
def Status.word (f : Status) : Word :=
  (0 : BitVec 52) ++ resultBits f.result ++ (0 : BitVec 5)
    ++ BitVec.ofBool f.overrun ++ BitVec.ofBool f.done ++ BitVec.ofBool f.busy

/-- STATUS after a host write of w (R30): bits 1 and 2 clear DONE and OVERRUN, and nothing else changes. -/
def Status.clear (f : Status) (w : Word) : Status :=
  { f with done := f.done && !w.getLsbD 1, overrun := f.overrun && !w.getLsbD 2 }

/-- STATUS after a command is accepted (41_loop_driver.md R82): OVERRUN is kept. -/
def Status.accept (f : Status) : Status :=
  { f with busy := true, done := false, result := .none }

/-- STATUS after a command completes with a code (41_loop_driver.md R85): OVERRUN is kept. -/
def Status.finish (f : Status) (c : ResultCode) : Status :=
  { f with busy := false, done := true, result := c }

/-- STATUS after a CMD write while BUSY = 1 (41_loop_driver.md R83). -/
def Status.overran (f : Status) : Status := { f with overrun := true }

end Sys2Proof.Machine
end

