-- ==== Sys2Proof/Machine/Ops.lean ====
section
/-! DEFINITION. The named operations the meanings are written with: system memory, the bus, the vector registers, acceptance
of a command, its completion (the block's only form of exception entry, 60_exceptions.md R137, R138), and reset. -/

namespace Sys2Proof.Machine

/-! ### System memory (20_memory.md R44, R45) -/

/-- What a byte that is not listed reads as (DESIGN CHOICE, log 4). -/
def Memory.unlisted : Byte := 0

/-- The byte at an address. -/
def Memory.read : List Host.Cell → Nat → Byte
  | [], _ => Memory.unlisted
  | (a, b) :: r, x => if a = x then b else if x < a then Memory.unlisted else Memory.read r x

/-- A cell in front of a list, unless it says what an unlisted byte says. -/
def Memory.cons (x : Nat) (b : Byte) (r : List Host.Cell) : List Host.Cell :=
  if b = Memory.unlisted then r else (x, b) :: r

/-- Memory with one byte written, in canonical form. -/
def Memory.write : List Host.Cell → Nat → Byte → List Host.Cell
  | [], x, b => Memory.cons x b []
  | (a, c) :: r, x, b =>
    if a < x then (a, c) :: Memory.write r x b
    else if a = x then Memory.cons x b r
    else Memory.cons x b ((a, c) :: r)

/-- The canonical form: addresses strictly rising, and no cell that says what an unlisted byte says. -/
def Memory.wf : List Host.Cell → Bool
  | [] => true
  | (a, b) :: r => b != Memory.unlisted && r.all (fun c => a < c.1) && Memory.wf r

/-- Every listed address exists: it is below the top of the address space. -/
def Memory.below (top : Nat) (m : List Host.Cell) : Bool := m.all (fun c => c.1 < top)

/-- The n bytes at x, x+1, ... (00_scope.md R16, MemRead). -/
def Memory.readBytes (m : List Host.Cell) (x : Nat) : Nat → List Byte
  | 0 => []
  | n + 1 => Memory.read m x :: Memory.readBytes m (x + 1) n

/-- Memory with the bytes of a list written at x, x+1, ... in that order (00_scope.md R16, MemWrite). -/
def Memory.writeBytes (m : List Host.Cell) (x : Nat) : List Byte → List Host.Cell
  | [] => m
  | b :: r => Memory.writeBytes (Memory.write m x b) (x + 1) r

/-! ### Numbers of AW bits (00_scope.md R5) -/

/-- A number held in AW bits of a register; the bits above read 0 (10_state.md R31). -/
def narrow (p : Params) (n : Nat) : Word := BitVec.ofNat 64 (n % p.space)

/-! ### Ranges (60_exceptions.md R134) -/

/-- [lo, lo + n) and [base, base + m) have an address in common. -/
def rangesOverlap (lo n base m : Nat) : Bool :=
  0 < n && 0 < m && lo < base + m && base < lo + n

/-- outmax of a command word and a length (20_memory.md R51); an illegal word writes nothing. -/
def outmax (cmd : Word) (len : Nat) : Nat :=
  if cmd = 1 then 4 * ((len + 2) / 3)
  else if cmd = 2 then 3 * (len / 4)
  else 0

/-- The size of the running command's largest destination range. -/
def State.dstSize (s : State) : Nat := outmax s.eng.cmd s.eng.len.toNat

/-- A is a source byte of the running command: [E.src, E.src + E.len). -/
def State.inSource (s : State) (a : Nat) : Bool :=
  s.eng.src.toNat ≤ a && a < s.eng.src.toNat + s.eng.len.toNat

/-- A is in the running command's largest destination range: [E.dst, E.dst + outmax). -/
def State.inDest (s : State) (a : Nat) : Bool :=
  s.eng.dst.toNat ≤ a && a < s.eng.dst.toNat + s.dstSize

/-! ### The platform (20_memory.md R52 to R54) -/

/-- [lo, lo + n) touches a region of a kind. -/
def State.touches (s : State) (k : RegionKind) (lo n : Nat) : Bool :=
  s.regions.any (fun r => r.kind == k && rangesOverlap lo n r.base r.size)

/-- [lo, lo + n) touches memory with side effects, or the block's own window (R52). -/
def State.touchesDevice (s : State) (lo n : Nat) : Bool :=
  s.touches .device lo n || rangesOverlap lo n s.params.regBase 256

/-- The bus answers an access of [lo, lo + n) with an error (60_exceptions.md R136). -/
def State.busFails (s : State) (lo n : Nat) : Bool :=
  s.touches .error lo n || (s.touches .flaky lo n && Config.freeBusError s.draws)

/-- The state after an access of [lo, lo + n): the answer of a flaky address is a fresh free value each time. -/
def State.busTick (s : State) (lo n : Nat) : State :=
  if s.touches .flaky lo n then { s with draws := s.draws + 1 } else s

/-! ### Vector registers (00_scope.md R15) -/

/-- Byte t of a 128-bit sub-register, bits [8t+7:8t]. -/
def subLane (q : BitVec 128) (t : Nat) : Byte := q.extractLsb' (8 * t) 8

/-- Lane m of a vector: byte (m mod 16) of sub-register Q(m div 16). -/
def VReg.lane (v : VReg) (m : Nat) : Byte :=
  match m / 16 with
  | 0 => subLane v.q0 (m % 16)
  | 1 => subLane v.q1 (m % 16)
  | 2 => subLane v.q2 (m % 16)
  | _ => subLane v.q3 (m % 16)

/-- The first k lanes of a vector. -/
def VReg.lanes (v : VReg) (k : Nat) : List Byte := (List.range k).map v.lane

/-- A sub-register from the bytes of its lanes, byte 0 least significant. -/
def subPack : List Byte → BitVec 128
  | [] => 0
  | b :: r => (subPack r <<< 8) ||| b.setWidth 128

/-- A vector whose first lanes are the given bytes and whose other lanes are as before (log 19). -/
def VReg.load (v : VReg) (l : List Byte) : VReg :=
  let all := l ++ (v.lanes 64).drop l.length
  { q0 := subPack (all.take 16)
    q1 := subPack ((all.drop 16).take 16)
    q2 := subPack ((all.drop 32).take 16)
    q3 := subPack ((all.drop 48).take 16) }

/-! ### Acceptance, completion and reset -/

/-- ACCEPT of the word w (41_loop_driver.md R82), with the operands latched from the operand registers (30_encoding.md R63). -/
def accept (w : Word) (s : State) : State :=
  { s with
    regs := { s.regs with status := s.regs.status.accept, resultCount := 0, resultStrides := 0 }
    eng := { s.eng with
      cmd := w
      src := narrow s.params s.regs.srcAddr.toNat
      len := narrow s.params s.regs.srcLen.toNat
      dst := narrow s.params s.regs.dstAddr.toNat
      phase := .check }
    raced := false }

/-- A CMD write while BUSY = 1 (41_loop_driver.md R83). -/
def overrun (s : State) : State :=
  { s with regs := { s.regs with status := s.regs.status.overran } }

/-- The registers of a completion, and E.phase (41_loop_driver.md R85). Between commands the other engine elements are
unspecified (93_implementation_defined.md I19); that they keep what the last command left is DESIGN CHOICE (log 32). -/
def complete (c : ResultCode) (count strides : Word) (s : State) : State :=
  { s with
    regs := { s.regs with
      status := s.regs.status.finish c
      resultCount := count
      resultStrides := strides }
    eng := { s.eng with phase := .idle }
    raced := false }

/-- What a byte holds when the running command's destination bytes are any value: a free value in the largest destination
range, below the top of the address space and outside the source; else what it held (60_exceptions.md R136, 70_reset_and_hazards.md R149). -/
def State.scrambledByte (s : State) (a : Nat) : Byte :=
  if a < s.params.space ∧ s.inSource a = false then Config.freeByte s.draws a else Memory.read s.mem a

/-- The running command's destination bytes become any value. -/
def scrambleDest (s : State) : State :=
  { s with
    mem := Memory.writeBytes s.mem s.eng.dst.toNat
      ((List.range s.dstSize).map (fun i => s.scrambledByte (s.eng.dst.toNat + i)))
    draws := s.draws + 1 }

/-- The completion of a command whose memory a host wrote while it ran (70_reset_and_hazards.md R154): the destination bytes, the counts
and the code are any value. -/
def completeRaced (s : State) : State :=
  complete (Config.freeResult s.draws)
    (narrow s.params (Config.freeWord s.draws).toNat)
    (narrow s.params (Config.freeStrides s.draws).toNat)
    (scrambleDest s)

/-- finish(code) (41_loop_driver.md R85): the one way a command ends, and the one entry to an error outcome (60_exceptions.md R138). -/
def finish (c : ResultCode) (s : State) : State :=
  if s.raced then completeRaced s
  else complete c (if c = .ok then s.eng.wr else 0) (if c = .ok then s.eng.ns else 0) s

/-- BUS_ERR (60_exceptions.md R136): the command ends at once, and its destination bytes are any value. -/
def finishBusErr (s : State) : State := finish .busErr (scrambleDest s)

/-- The block's state when its reset input is asserted (70_reset_and_hazards.md R148, R149). A running command is abandoned, and its
destination bytes are any value. Memory, the platform and what is to come from outside are not the block's. R42 and R148 give
the reset values after the release; that the block takes them at the assertion, and holds them, is DESIGN CHOICE (log 34). -/
def resetBlock (s : State) : State :=
  let s := if s.eng.phase = .idle then s else scrambleDest s
  { s with regs := .reset, eng := .reset, raced := false, inReset := true }

/-! ### The engine's memory operations (00_scope.md R16) -/

/-- MemRead of n bytes at lo, and then k. A bus error ends the command (60_exceptions.md R136). An access past 2^AW faults (log 14). -/
def memRead (lo n : Nat) (s : State) (k : List Byte → State → Host.Outcome State Fault Refusal) :
    Host.Outcome State Fault Refusal :=
  if s.params.space < lo + n then .fault .outsideSpace
  else if s.busFails lo n then .next (finishBusErr (s.busTick lo n))
  else k (Memory.readBytes s.mem lo n) (s.busTick lo n)

/-- MemWrite of the bytes l at lo, and then k. -/
def memWrite (lo : Nat) (l : List Byte) (s : State) (k : State → Host.Outcome State Fault Refusal) :
    Host.Outcome State Fault Refusal :=
  if s.params.space < lo + l.length then .fault .outsideSpace
  else if s.busFails lo l.length then .next (finishBusErr (s.busTick lo l.length))
  else k { s.busTick lo l.length with mem := Memory.writeBytes s.mem lo l }

end Sys2Proof.Machine
end

