-- ==== Sys2Proof/Machine/Operands.lean ====
section
/-! DEFINITION. The operand and result registers of the window, and the group register (10_state.md R23 to R35, R37). -/

namespace Sys2Proof.Machine

/-- ID (10_state.md R26): MAGIC, SRCREV, SPECREV. -/
def idWord : Word := (0x42363443 : BitVec 32) ++ (0x0007 : BitVec 16) ++ (0x0001 : BitVec 16)

/-- The VARIANT field of CAPS (10_state.md R27). -/
def variantBits : Variant → BitVec 2
  | .full => 0
  | .scalar => 1
  | .stub => 2

/-- The TBL_IMPL field of CAPS (10_state.md R27). -/
def tblImplBits : TblImpl → BitVec 1
  | .native128 => 0
  | .split64 => 1

/-- CAPS (10_state.md R27): the parameters, under every VARIANT. -/
def capsWord (p : Params) : Word :=
  (0 : BitVec 17) ++ BitVec.ofNat 7 p.aw
    ++ BitVec.ofNat 8 p.decOut ++ BitVec.ofNat 8 p.decIn
    ++ BitVec.ofNat 8 p.encOut ++ BitVec.ofNat 8 p.encIn
    ++ (0 : BitVec 5) ++ tblImplBits p.tblImpl ++ variantBits p.variant

/-- What a host read of a register returns (10_state.md R24 to R35). No read has an effect. -/
def readReg (r : RegName) (s : State) : Word :=
  match r with
  | .id => idWord
  | .caps => capsWord s.params
  | .cmd => 0
  | .status => s.regs.status.word
  | .srcAddr => s.regs.srcAddr
  | .srcLen => s.regs.srcLen
  | .dstAddr => s.regs.dstAddr
  | .resultCount => s.regs.resultCount
  | .resultStrides => s.regs.resultStrides
  | .reserved => 0

/-- A host write of w to a register that is not CMD (10_state.md R25 to R35). AW bits of an operand register are stored.
A write to CMD presents a command, which is the meaning of the command. -/
def writeReg (r : RegName) (w : Word) (s : State) : State :=
  match r with
  | .status => { s with regs := { s.regs with status := s.regs.status.clear w } }
  | .srcAddr => { s with regs := { s.regs with srcAddr := narrow s.params w.toNat } }
  | .srcLen => { s with regs := { s.regs with srcLen := narrow s.params w.toNat } }
  | .dstAddr => { s with regs := { s.regs with dstAddr := narrow s.params w.toNat } }
  | .id => s
  | .caps => s
  | .cmd => s
  | .resultCount => s
  | .resultStrides => s
  | .reserved => s

/-- E.grp with the bytes of a group in its first places. That the places past a shorter group keep what they held is DESIGN CHOICE
(log 19): the spec gives them no value, and no rule reads them. -/
def Group.load (g : Group) (l : List Byte) : Group where
  b0 := l.getD 0 g.b0
  b1 := l.getD 1 g.b1
  b2 := l.getD 2 g.b2
  b3 := l.getD 3 g.b3

/-- The first n bytes of E.grp. -/
def Group.bytes (g : Group) (n : Nat) : List Byte := [g.b0, g.b1, g.b2, g.b3].take n

end Sys2Proof.Machine
end

