-- ==== Sys2Proof/Machine/Lanes.lean ====
section
/-! DEFINITION. The lane operations of the vector datapath (40_lane_ops.md). A vector of n lanes is a list of n bytes. -/

namespace Sys2Proof.Machine

/-- A true or false mask lane (R70, R75). -/
def maskLane (b : Bool) : Byte := if b then 0xFF else 0x00

/-- VDUP (R71): k mod 256 in every lane. -/
def vdup (k : Int) (n : Nat) : List Byte := List.replicate n (BitVec.ofInt 8 k)

/-- VADD (R72): modulo 256. -/
def vadd (a b : List Byte) : List Byte := List.zipWith (· + ·) a b

/-- VSUB (R73): modulo 256. -/
def vsub (a b : List Byte) : List Byte := List.zipWith (· - ·) a b

/-- One lane of VQSUB (R74): unsigned, saturating at 0. -/
def qsubLane (a b : Byte) : Byte := if b ≤ a then a - b else 0

/-- VQSUB (R74). -/
def vqsub (a b : List Byte) : List Byte := List.zipWith qsubLane a b

/-- VCGT (R75): unsigned. -/
def vcgt (a b : List Byte) : List Byte := List.zipWith (fun x y => maskLane (y < x)) a b

/-- VCGE (R75): unsigned. -/
def vcge (a b : List Byte) : List Byte := List.zipWith (fun x y => maskLane (y ≤ x)) a b

/-- VCLE (R75): unsigned. -/
def vcle (a b : List Byte) : List Byte := List.zipWith (fun x y => maskLane (x ≤ y)) a b

/-- VCEQ (R75). -/
def vceq (a b : List Byte) : List Byte := List.zipWith (fun x y => maskLane (x == y)) a b

/-- VAND (R76). -/
def vand (a b : List Byte) : List Byte := List.zipWith (· &&& ·) a b

/-- VORR (R76). -/
def vorr (a b : List Byte) : List Byte := List.zipWith (· ||| ·) a b

/-- VBSL (R77): bit by bit, a where m is 1 and b where m is 0. -/
def vbsl (m a b : List Byte) : List Byte := vorr (vand m a) (vand (m.map (~~~ ·)) b)

/-- VSHL (R78): a shift by 8 or more gives 0. -/
def vshl (a : List Byte) (s : List Nat) : List Byte :=
  List.zipWith (fun (x : Byte) (k : Nat) => if k < 8 then x <<< k else 0) a s

/-- VSHR (R78): logical; a shift by 8 or more gives 0. -/
def vshr (a : List Byte) (s : List Nat) : List Byte :=
  List.zipWith (fun (x : Byte) (k : Nat) => if k < 8 then x >>> k else 0) a s

/-- VANY (R79). -/
def vany (m : List Byte) : Bool := m.any (· != 0)

/-- One lane of VTBL16 (R80): an index of 16 or more gives 0. -/
def tableLane (t : List Byte) (i : Byte) : Byte :=
  if i.toNat < 16 then t.getD i.toNat 0 else 0

/-- VTBL16 on one 16-lane sub-register (R80): in one lookup, or split into its low and its high 8 lanes (R11). -/
def tableSub (impl : TblImpl) (t idx : List Byte) : List Byte :=
  match impl with
  | .native128 => idx.map (tableLane t)
  | .split64 => (idx.take 8).map (tableLane t) ++ (idx.drop 8).map (tableLane t)

/-- VTBL16 (R80): the sub-registers Q0..Q3 of idx, one after the other. -/
def vtbl16 (impl : TblImpl) (t idx : List Byte) : List Byte :=
  tableSub impl t (idx.take 16)
    ++ tableSub impl t ((idx.drop 16).take 16)
    ++ tableSub impl t ((idx.drop 32).take 16)
    ++ tableSub impl t ((idx.drop 48).take 16)

/-- One lane of VPERM (R81): the empty mark, or an index outside src, gives 0. -/
def permLane (src : List Byte) : Option Nat → Byte
  | some i => src.getD i 0
  | none => 0

/-- VPERM (R81). -/
def vperm (src : List Byte) (p : List (Option Nat)) : List Byte := p.map (permLane src)

end Sys2Proof.Machine
end

