-- ==== Sys2Proof/Machine/Reshuffle.lean ====
section
/-! DEFINITION. The bit reshuffle (43_reshuffle.md): the functional form of one group, and the lane sequences. -/

namespace Sys2Proof.Machine

/-- FIELDS (R113). -/
def fields (b0 b1 b2 : Byte) : List Byte :=
  [ b0 >>> 2,
    ((b0 &&& 0x03) <<< 4) ||| (b1 >>> 4),
    ((b1 &&& 0x0F) <<< 2) ||| (b2 >>> 6),
    b2 &&& 0x3F ]

/-- PACK (R117). -/
def pack (f0 f1 f2 f3 : Byte) : List Byte :=
  [ (f0 <<< 2) ||| (f1 >>> 4),
    (f1 <<< 4) ||| (f2 >>> 2),
    (f2 <<< 6) ||| f3 ]

/-- The entry for field j of a table with one row per field (R114). -/
def byField {α : Type} (x0 x1 x2 x3 : α) (j : Nat) : α :=
  match j with
  | 0 => x0
  | 1 => x1
  | 2 => x2
  | _ => x3

/-- The H pattern of lane m (R114). -/
def hPat (m : Nat) : Option Nat :=
  byField (some (3 * (m / 4))) (some (3 * (m / 4))) (some (3 * (m / 4) + 1)) (some (3 * (m / 4) + 2)) (m % 4)

/-- The Lo pattern of lane m (R114). -/
def loPat (m : Nat) : Option Nat :=
  byField none (some (3 * (m / 4) + 1)) (some (3 * (m / 4) + 2)) none (m % 4)

/-- SL of lane m (R114). -/
def slAmount (m : Nat) : Nat := byField 0 4 2 0 (m % 4)

/-- SR1 of lane m (R114). -/
def sr1Amount (m : Nat) : Nat := byField 2 0 0 0 (m % 4)

/-- SR2 of lane m (R114). -/
def sr2Amount (m : Nat) : Nat := byField 8 4 6 8 (m % 4)

/-- RESHUF_ENC (R115): 3N bytes to 4N six-bit fields. -/
def reshufEnc (x : List Byte) : List Byte :=
  let n := 4 * (x.length / 3)
  let ms := List.range n
  let h := vperm x (ms.map hPat)
  let lo := vperm x (ms.map loPat)
  let t := vshr (vshl h (ms.map slAmount)) (ms.map sr1Amount)
  let u := vshr lo (ms.map sr2Amount)
  vand (vorr t u) (vdup 0x3F n)

/-- The A pattern of lane m (R118). -/
def aPat (m : Nat) : Option Nat := some (4 * (m / 3) + m % 3)

/-- The B pattern of lane m (R118). -/
def bPat (m : Nat) : Option Nat := some (4 * (m / 3) + m % 3 + 1)

/-- SA of lane m (R118). -/
def saAmount (m : Nat) : Nat := byField 2 4 6 6 (m % 3)

/-- SB of lane m (R118). -/
def sbAmount (m : Nat) : Nat := byField 4 2 0 0 (m % 3)

/-- RESHUF_DEC (R119): 4N six-bit fields to 3N bytes. -/
def reshufDec (v : List Byte) : List Byte :=
  let ms := List.range (3 * (v.length / 4))
  let a := vperm v (ms.map aPat)
  let b := vperm v (ms.map bPat)
  vorr (vshl a (ms.map saAmount)) (vshr b (ms.map sbAmount))

end Sys2Proof.Machine
end

