-- ==== Sys2Proof/Machine/Translate.lean ====
section
/-! DEFINITION. The alphabet translators (42_translate.md). -/

namespace Sys2Proof.Machine

/-- The delta table ROM (R40, R101). -/
def lut : List Byte :=
  [65, 71, 252, 252, 252, 252, 252, 252] ++ [252, 252, 252, 252, 237, 240, 0, 0]

/-- XLATE_ENC (R104), lane by lane from field values to characters. Lanes of 64 or more get the pseudocode's value (R105). -/
def xlateEnc (impl : TblImpl) (v : List Byte) : List Byte :=
  let n := v.length
  let m := vcgt v (vdup 25 n)
  let idx := vsub (vqsub v (vdup 51 n)) m
  let delta := vtbl16 impl lut idx
  vadd delta v

/-- The five class masks of XLATE_DEC select a delta for each lane (R107, R108, R109); 0 marks a lane out of the alphabet. -/
def decDelta (c : List Byte) : List Byte :=
  let n := c.length
  let p := vceq c (vdup 43 n)
  let sl := vceq c (vdup 47 n)
  let dg := vand (vcge c (vdup 48 n)) (vcle c (vdup 57 n))
  let up := vand (vcge c (vdup 65 n)) (vcle c (vdup 90 n))
  let lo := vand (vcge c (vdup 97 n)) (vcle c (vdup 122 n))
  let d := vand p (vdup 19 n)
  let d := vbsl sl (vdup 16 n) d
  let d := vbsl dg (vdup 4 n) d
  let d := vbsl up (vdup 191 n) d
  vbsl lo (vdup 185 n) d

/-- XLATE_DEC (R109): the field values V and the mask BAD. -/
def xlateDec (c : List Byte) : List Byte × List Byte :=
  let d := decDelta c
  (vadd c d, vceq d (vdup 0 c.length))

/-- The 64-entry alphabet (R106). -/
def alphabet : List Byte :=
  ([0x41, 0x42, 0x43, 0x44, 0x45, 0x46, 0x47, 0x48, 0x49, 0x4A, 0x4B, 0x4C, 0x4D]
    ++ [0x4E, 0x4F, 0x50, 0x51, 0x52, 0x53, 0x54, 0x55, 0x56, 0x57, 0x58, 0x59, 0x5A])
  ++ ([0x61, 0x62, 0x63, 0x64, 0x65, 0x66, 0x67, 0x68, 0x69, 0x6A, 0x6B, 0x6C, 0x6D]
    ++ [0x6E, 0x6F, 0x70, 0x71, 0x72, 0x73, 0x74, 0x75, 0x76, 0x77, 0x78, 0x79, 0x7A])
  ++ ([0x30, 0x31, 0x32, 0x33, 0x34, 0x35, 0x36, 0x37, 0x38, 0x39] ++ [0x2B, 0x2F])

/-- ALPHA(v) for v in 0..63 (R106). -/
def alpha (v : Byte) : Byte := alphabet.getD v.toNat 0

/-- The first place of a byte in a table. -/
def placeOf (c : Byte) : List Byte → Option Nat
  | [] => none
  | x :: r => if x = c then some 0 else (placeOf c r).map (· + 1)

/-- DEC(c) (R110): the v with ALPHA(v) = c. It is none exactly when A(c) of 44_scalar_fallback.md R125 is false. -/
def decChar (c : Byte) : Option Byte := (placeOf c alphabet).map (BitVec.ofNat 8)

end Sys2Proof.Machine
end

