-- ==== Sys2Proof/Machine/Scalar.lean ====
section
/-! DEFINITION. The scalar fallback (44_scalar_fallback.md), and the texts Enc, Dec and Valid the commands compute (41_loop_driver.md R89,
R94; 44_scalar_fallback.md R128). -/

namespace Sys2Proof.Machine

/-- PAD (R122): `=`. -/
def pad : Byte := 61

/-- SC_ENC_GROUP (R123). -/
def scEncGroup (b0 b1 b2 : Byte) : List Byte := (fields b0 b1 b2).map alpha

/-- SC_ENC_TAIL (R124) of one or two bytes. The loop driver never calls it with any other number (41_loop_driver.md R88). -/
def scEncTail : List Byte → List Byte
  | [b0] => ((fields b0 0 0).take 2).map alpha ++ [pad, pad]
  | [b0, b1] => ((fields b0 b1 0).take 3).map alpha ++ [pad]
  | _ => []

/-- SC_DEC_GROUP (R125): the decoded bytes, or none for BAD. Trailing bits are not checked (R126). -/
def scDecGroup (c0 c1 c2 c3 : Byte) (final : Bool) : Option (List Byte) :=
  match decChar c0, decChar c1, decChar c2, decChar c3 with
  | some f0, some f1, some f2, some f3 => some (pack f0 f1 f2 f3)
  | some f0, some f1, some f2, none =>
    if final && c3 == pad then some ((pack f0 f1 f2 0).take 2) else none
  | some f0, some f1, none, none =>
    if final && c2 == pad && c3 == pad then some ((pack f0 f1 0 0).take 1) else none
  | _, _, _, _ => none

/-- Enc(B) (41_loop_driver.md R89). -/
def encText : List Byte → List Byte
  | [] => []
  | [b0] => scEncTail [b0]
  | [b0, b1] => scEncTail [b0, b1]
  | b0 :: b1 :: b2 :: r => scEncGroup b0 b1 b2 ++ encText r

/-- Dec(C) (41_loop_driver.md R94), or none when C is not Valid (R128). The last group is the final one. -/
def decText : List Byte → Option (List Byte)
  | [] => some []
  | c0 :: c1 :: c2 :: c3 :: r =>
    match scDecGroup c0 c1 c2 c3 r.isEmpty, decText r with
    | some o, some rest => some (o ++ rest)
    | _, _ => none
  | _ => none

/-- Valid(C) (R128). -/
def validText (c : List Byte) : Bool := (decText c).isSome

/-- The number of PAD characters in C, p of 41_loop_driver.md R94. -/
def padCount (c : List Byte) : Nat := (c.filter (· == pad)).length

end Sys2Proof.Machine
end

