-- ==== Sys2Proof/Machine/Driver.lean ====
section
/-! DEFINITION. The strided loop driver: the engine steps of a command (41_loop_driver.md, 60_exceptions.md R131 to R134). -/

namespace Sys2Proof.Machine

/-! ### CHECK -/

/-- RANGE_ERR's three tests (60_exceptions.md R134). -/
def rangeFails (s : State) : Bool :=
  s.params.space < s.eng.src.toNat + s.eng.len.toNat
    || s.params.space < s.eng.dst.toNat + s.dstSize
    || rangesOverlap s.eng.src.toNat s.eng.len.toNat s.eng.dst.toNat s.dstSize

/-- The first cause of CHECK that holds (60_exceptions.md R131). -/
def checkCode (s : State) : Option ResultCode :=
  if s.eng.cmd ≠ 1 ∧ s.eng.cmd ≠ 2 then some .badCmd
  else if s.params.variant = .stub then some .notApplicable
  else if rangeFails s then some .rangeErr
  else if s.eng.cmd = 2 ∧ s.eng.len.toNat % 4 ≠ 0 then some .invalid
  else none

/-- The first phase of ENCODE (R84). -/
def encStart (p : Params) : Phase := if p.variant = .full then .encVec else .encTail

/-- The first phase of a pass of DECODE (R84, R93). -/
def decStart (p : Params) : Phase := if p.variant = .full then .decVec else .decTail

/-- A loop over the source starts, in a pass and at a phase (R84, R93). -/
def startLoop (pass : Pass) (phase : Phase) (s : State) : State :=
  { s with eng := { s.eng with rd := 0, wr := 0, ns := 0, pass := pass, phase := phase } }

/-- A command that passes CHECK starts its loop (R84). ENCODE has one pass and leaves E.pass. -/
def startCommand (s : State) : State :=
  if s.eng.cmd = 1 then startLoop s.eng.pass (encStart s.params) s
  else startLoop .validate (decStart s.params) s

/-- The command's ranges touch memory with side effects (20_memory.md R52). -/
def touchesSideEffects (s : State) : Bool :=
  s.touchesDevice s.eng.src.toNat s.eng.len.toNat || s.touchesDevice s.eng.dst.toNat s.dstSize

/-- CHECK (R84). A command that would go on and touch memory with side effects is refused (20_memory.md R52, log 12). -/
def stepCheck (s : State) : Host.Outcome State Fault Refusal :=
  match checkCode s with
  | some c => .next (finish c s)
  | none => if touchesSideEffects s then .refused .deviceMemory else .next (startCommand s)

/-! ### Cursors and addresses (R99) -/

/-- The address of the next source byte. -/
def srcCursor (s : State) : Nat := s.eng.src.toNat + s.eng.rd.toNat

/-- The address of the next destination byte. -/
def dstCursor (s : State) : Nat := s.eng.dst.toNat + s.eng.wr.toNat

/-- E.len - E.rd. -/
def remaining (s : State) : Nat := s.eng.len.toNat - s.eng.rd.toNat

/-- The cursors after n source bytes, k destination bytes and v strides. The sums are exact, and narrowed to AW bits (log 25). -/
def moveCursors (n k v : Nat) (s : State) : State :=
  { s with eng := { s.eng with
    rd := narrow s.params (s.eng.rd.toNat + n)
    wr := narrow s.params (s.eng.wr.toNat + k)
    ns := narrow s.params (s.eng.ns.toNat + v) } }

/-- The next phase. -/
def setPhase (f : Phase) (s : State) : State := { s with eng := { s.eng with phase := f } }

/-- The vector registers. -/
def setVReg (q : VReg) (s : State) : State := { s with eng := { s.eng with q := q } }

/-- The group register, loaded with a group. -/
def loadGroup (l : List Byte) (s : State) : State :=
  { s with eng := { s.eng with grp := s.eng.grp.load l } }

/-! ### ENCODE -/

/-- The vector registers after an encode stride: the bytes, their fields, then the characters (R87). -/
def encStride (p : Params) (q : VReg) (x : List Byte) : VReg :=
  let q := q.load x
  let q := q.load (reshufEnc (q.lanes p.encIn))
  q.load (xlateEnc p.tblImpl (q.lanes p.encOut))

/-- ENC_VEC (R87). -/
def stepEncVec (s : State) : Host.Outcome State Fault Refusal :=
  let p := s.params
  if p.encIn ≤ remaining s then
    memRead (srcCursor s) p.encIn s fun x s =>
      let s := setVReg (encStride p s.eng.q x) s
      memWrite (dstCursor s) (s.eng.q.lanes p.encOut) s fun s =>
        .next (moveCursors p.encIn p.encOut 1 s)
  else .next (setPhase .encTail s)

/-- ENC_TAIL (R88). -/
def stepEncTail (s : State) : Host.Outcome State Fault Refusal :=
  let r := remaining s
  if 3 ≤ r then
    memRead (srcCursor s) 3 s fun g s =>
      let s := loadGroup g s
      memWrite (dstCursor s) (scEncGroup s.eng.grp.b0 s.eng.grp.b1 s.eng.grp.b2) s fun s =>
        .next (moveCursors 3 4 0 s)
  else if r = 0 then .next (finish .ok s)
  else
    memRead (srcCursor s) r s fun g s =>
      let s := loadGroup g s
      memWrite (dstCursor s) (scEncTail (s.eng.grp.bytes r)) s fun s =>
        .next (finish .ok (moveCursors r 4 0 s))

/-! ### DECODE -/

/-- DEC_VEC (R92). -/
def stepDecVec (s : State) : Host.Outcome State Fault Refusal :=
  let p := s.params
  if p.decIn ≤ remaining s then
    memRead (srcCursor s) p.decIn s fun c s =>
      let q := s.eng.q.load c
      let r := xlateDec (q.lanes p.decIn)
      if vany r.2 then .next (setPhase .decTail (setVReg q s))
      else
        let s := setVReg (q.load r.1) s
        match s.eng.pass with
        | .validate => .next (moveCursors p.decIn p.decOut 1 s)
        | .write =>
          let s := setVReg (s.eng.q.load (reshufDec (s.eng.q.lanes p.decIn))) s
          memWrite (dstCursor s) (s.eng.q.lanes p.decOut) s fun s =>
            .next (moveCursors p.decIn p.decOut 1 s)
  else .next (setPhase .decTail s)

/-- The WRITE pass starts over the same source (R91, R93). -/
def startWritePass (s : State) : State := startLoop .write (decStart s.params) s

/-- DEC_TAIL (R93). -/
def stepDecTail (s : State) : Host.Outcome State Fault Refusal :=
  let r := remaining s
  if r = 0 then
    match s.eng.pass with
    | .validate => .next (startWritePass s)
    | .write => .next (finish .ok s)
  else
    memRead (srcCursor s) 4 s fun g s =>
      let s := loadGroup g s
      match scDecGroup s.eng.grp.b0 s.eng.grp.b1 s.eng.grp.b2 s.eng.grp.b3 (r == 4) with
      | none => .next (finish .invalid s)
      | some o =>
        match s.eng.pass with
        | .validate => .next (moveCursors 4 o.length 0 s)
        | .write => memWrite (dstCursor s) o s fun s => .next (moveCursors 4 o.length 0 s)

/-! ### The engine -/

/-- One engine step: the transition of the phase (R98). In IDLE there is no command, and nothing happens. -/
def engineStep (s : State) : Host.Outcome State Fault Refusal :=
  match s.eng.phase with
  | .idle => .next s
  | .check => stepCheck s
  | .encVec => stepEncVec s
  | .encTail => stepEncTail s
  | .decVec => stepDecVec s
  | .decTail => stepDecTail s

/-- Up to n engine steps, stopping when the engine is IDLE. -/
def engineRun : Nat → State → Host.Outcome State Fault Refusal
  | 0, s => .next s
  | n + 1, s =>
    if s.eng.phase = .idle then .next s
    else
      match engineStep s with
      | .next t => engineRun n t
      | .fault f => .fault f
      | .refused r => .refused r

/-- The most engine steps the running command can need, CHECK and the finishing step included (70_reset_and_hazards.md R156). -/
def stepBound (s : State) : Nat :=
  if s.eng.cmd = 1 then (s.eng.len.toNat + 2) / 3 + 3 else s.eng.len.toNat / 2 + 5

/-- The engine runs for the state's pace (log 2). -/
def advance (s : State) : Host.Outcome State Fault Refusal :=
  match s.pace with
  | .steps n => engineRun n s
  | .toCompletion => engineRun (stepBound s) s

end Sys2Proof.Machine
end

