-- ==== Sys2Proof/Machine/Commands.lean ====
section
/-! DEFINITION. The meanings of the two commands (41_loop_driver.md R86, R90), and of an illegal command word (30_encoding.md R64). -/

namespace Sys2Proof.Machine

/-- A host write of the word w to CMD: accepted when the block is not BUSY (R82), and turned away when it is (R83). While the
reset input is asserted, the block ignores it (70_reset_and_hazards.md R148). The engine then runs for the state's pace: to the end of the command
(R97), or for a number of steps. -/
def issue (w : Word) (s : State) : Host.Outcome State Fault Refusal :=
  if s.inReset then .next s
  else if s.regs.status.busy then advance (overrun s)
  else advance (accept w s)

/-- ENCODE (R86). -/
def execEncode (s : State) : Host.Outcome State Fault Refusal := issue 0x1 s

/-- DECODE (R90). -/
def execDecode (s : State) : Host.Outcome State Fault Refusal := issue 0x2 s

/-- An illegal command word (30_encoding.md R64): accepted like any command, and completed BAD_CMD by CHECK (60_exceptions.md R132). -/
def execIllegal (w : Word) (s : State) : Host.Outcome State Fault Refusal := issue w s

end Sys2Proof.Machine
end

