-- ==== Sys2Proof/Machine/HostPort.lean ====
section
/-! DEFINITION. What each action from outside does (10_state.md R23 to R35, 20_memory.md R55, 70_reset_and_hazards.md R148, R149, R154). -/

namespace Sys2Proof.Machine

/-- A write of the word w to CMD runs the command it names; an illegal word completes BAD_CMD (30_encoding.md R62, R64). -/
def writeCmd (w : Word) (s : State) : Host.Outcome State Fault Refusal :=
  match decodeWord w with
  | .ok i => exec i s
  | .error _ => execIllegal w s

/-- The refusal of an access that is outside the spec (10_state.md R23). -/
def refuseAccess : BadAccess → Refusal
  | .width => .accessWidth
  | .misaligned => .accessMisaligned

/-- A read of a register (R24 to R35), and then the engine for the state's pace. -/
def hostRead (r : RegName) (s : State) : Host.Outcome State Fault Refusal :=
  advance { s with response := some (readReg r s) }

/-- A write of a register (R24 to R35), and then the engine for the state's pace. -/
def hostWrite (r : RegName) (w : Word) (s : State) : Host.Outcome State Fault Refusal :=
  match r with
  | .cmd => writeCmd w s
  | _ => advance (writeReg r w s)

/-- A transaction on the register slave port (R23, 30_encoding.md R60). While the reset input is asserted, the block ignores it
(70_reset_and_hazards.md R148). -/
def hostAccess (t : Transaction) (s : State) : Host.Outcome State Fault Refusal :=
  match decodeAccess t with
  | .error e => .refused (refuseAccess e)
  | .ok r =>
    if s.inReset then .next s
    else
      match t.kind with
      | .read => hostRead r s
      | .write => hostWrite r t.data s

/-- `wait` reads again after a value with bit 0 (BUSY) = 1 (30_encoding.md R68), and after a read that was ignored in reset
(log 31). -/
def waitsOn : Option Word → Bool
  | some w => w.getLsbD 0
  | none => true

/-- The pace of a loop of reads that goes on: at least one engine step runs between two reads, because polling STATUS cannot
stall a command (70_reset_and_hazards.md R157; log 31). -/
def fairPace : Pace → Pace
  | .steps 0 => .steps 1
  | p => p

/-- One read of a `wait` loop (30_encoding.md R68). While the loop goes on, its turn stays the next one, at a fair pace. -/
def hostWait (s : State) : Host.Outcome State Fault Refusal :=
  match hostAccess (rdAccess .status) s with
  | .next t =>
    .next (if waitsOn t.response then { t with inbox := { action := .wait, pace := fairPace s.pace } :: t.inbox } else t)
  | .fault f => .fault f
  | .refused r => .refused r

/-- An address the host can use as memory (20_memory.md R44, R52, R53). Bus errors are the master port's (R54,
60_exceptions.md R136), and do not keep the host from the memory there. -/
def hostOrdinary (s : State) (a : Nat) : Bool := a < s.params.space && !s.touchesDevice a 1

/-- Why the host cannot use an address as memory: it is in the register window, which has no byte accesses (10_state.md
R23), it does not exist (20_memory.md R44), or it is a device's (R52). -/
def hostRefusal (s : State) (a : Nat) : Refusal :=
  if rangesOverlap a 1 s.params.regBase 256 then .accessWidth
  else if s.params.space ≤ a then .hostOutsideSpace
  else .hostDevice

/-- The running command's destination is any value to the host (70_reset_and_hazards.md R154), and so is all memory to a host that is not
coherent and does no maintenance (20_memory.md R59, log 11). -/
def hostSeesAnyValue (s : State) (a : Nat) : Bool :=
  (s.regs.status.busy && s.inDest a) || !s.params.memCoherent

/-- The host reads a byte of memory. Its address x and the address x on the master port are the same byte (log 33). -/
def hostMemRead (a : Nat) (s : State) : Host.Outcome State Fault Refusal :=
  if hostOrdinary s a then
    if hostSeesAnyValue s a then
      advance { s with
        response := some ((Config.freeByte s.draws a).setWidth 64)
        draws := s.draws + 1 }
    else advance { s with response := some ((Memory.read s.mem a).setWidth 64) }
  else .refused (hostRefusal s a)

/-- The host writes a byte of memory. In the running command's ranges it is a race (70_reset_and_hazards.md R154). What the engine sees of a
write by a host that is not coherent is any value (20_memory.md R59). -/
def hostMemWrite (a : Nat) (b : Byte) (s : State) : Host.Outcome State Fault Refusal :=
  if hostOrdinary s a then
    let s := { s with raced := s.raced || (s.regs.status.busy && (s.inSource a || s.inDest a)) }
    if s.params.memCoherent then advance { s with mem := Memory.write s.mem a b }
    else
      advance { s with
        mem := Memory.write s.mem a (Config.freeByte s.draws a)
        draws := s.draws + 1 }
  else .refused (hostRefusal s a)

/-- The reset input is driven (70_reset_and_hazards.md R148): asserted, it abandons a running command (R149); released, it leaves the block as
after reset. -/
def hostReset (level : Bool) (s : State) : Host.Outcome State Fault Refusal :=
  if level then .next (if s.inReset then s else resetBlock s)
  else .next { s with inReset := false }

/-- The reset input is asserted during a register access (70_reset_and_hazards.md R149): a read returns any value, and a write took effect or
did not. -/
def hostResetDuring (t : Transaction) (s : State) : Host.Outcome State Fault Refusal :=
  match decodeAccess t with
  | .error e => .refused (refuseAccess e)
  | .ok r =>
    if s.inReset then .next s
    else
      let s' := { s with draws := s.draws + 1, pace := .steps 0 }
      match t.kind with
      | .read => .next (resetBlock { s' with response := some (Config.freeWord s.draws) })
      | .write =>
        if Config.freeTookEffect s.draws then
          match hostWrite r t.data s' with
          | .next u => .next (resetBlock u)
          | .fault f => .fault f
          | .refused x => .refused x
        else .next (resetBlock s')

/-- The reset input is released during a register access. The spec does not say whether such an access overlaps a reset in
the sense of 70_reset_and_hazards.md R149; the model takes it so (log 16): a read returns any value, and a write took effect after the release or did
not. With the reset input not asserted it is a plain access. -/
def hostReleaseDuring (t : Transaction) (s : State) : Host.Outcome State Fault Refusal :=
  match decodeAccess t with
  | .error e => .refused (refuseAccess e)
  | .ok r =>
    if s.inReset then
      let s' := { s with draws := s.draws + 1, inReset := false }
      match t.kind with
      | .read => advance { s' with response := some (Config.freeWord s.draws) }
      | .write => if Config.freeTookEffect s.draws then hostWrite r t.data s' else advance s'
    else hostAccess t s

/-- An action from outside. -/
def perform (a : HostAction) (s : State) : Host.Outcome State Fault Refusal :=
  match a with
  | .access t => hostAccess t s
  | .wait => hostWait s
  | .memRead x => hostMemRead x.toNat s
  | .memWrite x b => hostMemWrite x.toNat b s
  | .resetInput level => hostReset level s
  | .resetDuring t => hostResetDuring t s
  | .releaseDuring t => hostReleaseDuring t s

/-- The turn that writes the word w to CMD and lets the command run to its end. -/
def cmdTurn (w : Word) : Turn :=
  { action := .access (wrAccess .cmd w), pace := .toCompletion }

/-- The turns of a line of the host command language (30_encoding.md R67, R68), each with a pace. -/
def lineTurns (p : Pace) (c : HostCommand) : List Turn := c.actions.map (fun a => { action := a, pace := p })

/-- The state in which a turn's action is performed: the turn is taken, its pace is set, and no response is there yet. -/
def takeTurn (pace : Pace) (rest : List Turn) (s : State) : State :=
  { s with pace := pace, inbox := rest, response := none }

end Sys2Proof.Machine
end

