-- ==== Sys2Proof/Machine/Step.lean ====
section
/-! DEFINITION. One step of the machine: the next host action, and the engine steps that run before the one after it (log 2). -/

namespace Sys2Proof.Machine

/-- With a turn to take, its action is performed, and the engine runs for its pace. With none, the engine takes one step (log 28).
The block has no program counter and fetches nothing (10_state.md R22): its instructions come as CMD writes. -/
def step (s : State) : Host.Outcome State Fault Refusal :=
  match s.inbox with
  | [] => engineStep s
  | t :: rest => perform t.action (takeTurn t.pace rest s)

/-- The state in which the next host action writes the given command word to CMD (log 17). -/
def State.withFetchWord (s : State) (nbits w : Nat) : State :=
  { s with inbox := cmdTurn (BitVec.ofNat 64 (w % 2 ^ nbits)) :: s.inbox }

end Sys2Proof.Machine
end

