-- ==== Sys2Proof/Safety.lean ====
section
/-! DEFINITION. The invariant of the machine (41_loop_driver.md R95, 10_state.md R29, R38), and when a command can run. -/

namespace Sys2Proof

/-- A register value that AW bits hold (00_scope.md R5). -/
abbrev Params.fits (p : Params) (w : Word) : Prop := w.toNat < p.space

namespace Machine

/-- The cursors of a running command at a step boundary (41_loop_driver.md R95), and what CHECK has established (R84). -/
def CursorInv (s : State) : Prop :=
  match s.eng.phase with
  | .idle => True
  | .check => True
  | .encVec =>
    s.eng.cmd = 1 ∧ s.params.variant = .full ∧ rangeFails s = false
      ∧ s.eng.rd.toNat ≤ s.eng.len.toNat
      ∧ s.eng.rd.toNat = s.eng.ns.toNat * s.params.encIn
      ∧ s.eng.wr.toNat = 4 * ((s.eng.rd.toNat + 2) / 3)
  | .encTail =>
    s.eng.cmd = 1 ∧ s.params.variant ≠ .stub ∧ rangeFails s = false
      ∧ s.eng.rd.toNat % 3 = 0 ∧ s.eng.rd.toNat ≤ s.eng.len.toNat
      ∧ s.eng.wr.toNat = 4 * ((s.eng.rd.toNat + 2) / 3)
  | .decVec =>
    s.eng.cmd = 2 ∧ s.params.variant = .full ∧ rangeFails s = false
      ∧ s.eng.len.toNat % 4 = 0 ∧ s.eng.rd.toNat % 4 = 0
      ∧ s.eng.rd.toNat ≤ s.eng.len.toNat
      ∧ s.eng.rd.toNat = s.eng.ns.toNat * s.params.decIn
      ∧ s.eng.wr.toNat = 3 * (s.eng.rd.toNat / 4)
  | .decTail =>
    s.eng.cmd = 2 ∧ s.params.variant ≠ .stub ∧ rangeFails s = false
      ∧ s.eng.len.toNat % 4 = 0 ∧ s.eng.rd.toNat % 4 = 0
      ∧ s.eng.rd.toNat ≤ s.eng.len.toNat
      ∧ s.eng.wr.toNat ≤ 3 * (s.eng.rd.toNat / 4)
      ∧ (s.eng.rd.toNat < s.eng.len.toNat → s.eng.wr.toNat = 3 * (s.eng.rd.toNat / 4))

/-- What holds of every state the machine can be in. -/
structure Inv (s : State) : Prop where
  params : s.params.wf = true
  memWf : Memory.wf s.mem = true
  memBelow : Memory.below s.params.space s.mem = true
  operandsFit : s.params.fits s.regs.srcAddr ∧ s.params.fits s.regs.srcLen ∧ s.params.fits s.regs.dstAddr
  resultsFit : s.params.fits s.regs.resultCount ∧ s.params.fits s.regs.resultStrides
  latchedFit : s.params.fits s.eng.src ∧ s.params.fits s.eng.len ∧ s.params.fits s.eng.dst
  cursorsFit : s.params.fits s.eng.rd ∧ s.params.fits s.eng.wr ∧ s.params.fits s.eng.ns
  /-- STATUS.BUSY = 1 exactly when E.phase is not IDLE (R38). -/
  busyIff : s.regs.status.busy = true ↔ s.eng.phase ≠ .idle
  /-- BUSY = 1 and DONE = 1 never hold together (R29). -/
  notBusyAndDone : ¬(s.regs.status.busy = true ∧ s.regs.status.done = true)
  /-- While BUSY = 1, no register shows an intermediate value (R97). -/
  busyHidesResults : s.regs.status.busy = true →
    s.regs.status.result = .none ∧ s.regs.resultCount = 0 ∧ s.regs.resultStrides = 0
  /-- No command runs while the reset input is asserted (R148). -/
  resetStopsEngine : s.inReset = true → s.eng.phase = .idle
  /-- While the reset input is asserted, the registers hold their reset values (the model's choice, log 34: R148 and 10_state.md R42
  speak of the release). -/
  resetHolds : s.inReset = true → s.regs = Regs.reset
  cursors : CursorInv s

/-- Every byte of [lo, lo + n) is ordinary memory that the bus answers (20_memory.md R52, 60_exceptions.md R136). -/
def State.admits (s : State) (lo n : Nat) : Bool :=
  !s.touches .error lo n && !s.touches .flaky lo n && !s.touchesDevice lo n

/-- The source address, length and destination address that a command accepted now would latch (30_encoding.md R63). -/
abbrev State.src (s : State) : Nat := s.regs.srcAddr.toNat

@[inherit_doc State.src] abbrev State.len (s : State) : Nat := s.regs.srcLen.toNat

@[inherit_doc State.src] abbrev State.dst (s : State) : Nat := s.regs.dstAddr.toNat

/-- outmax of a command accepted now (20_memory.md R51). -/
def State.outmaxOf (s : State) : Instr → Nat
  | .encode => 4 * ((s.len + 2) / 3)
  | .decode => 3 * (s.len / 4)

/-- The source of a command accepted now. -/
def State.source (s : State) : List Byte := Memory.readBytes s.mem s.src s.len

/-- None of RANGE_ERR's three tests holds of a command accepted now (60_exceptions.md R134). -/
def State.rangesLegal (s : State) (i : Instr) : Prop :=
  s.src + s.len ≤ s.params.space
    ∧ s.dst + s.outmaxOf i ≤ s.params.space
    ∧ ¬(0 < s.len ∧ 0 < s.outmaxOf i ∧ s.src < s.dst + s.outmaxOf i ∧ s.dst < s.src + s.len)

/-- The block accepts the next CMD write, and the command runs to its end before the host acts again (41_loop_driver.md R82, R97). -/
structure Ready (s : State) : Prop where
  inv : Inv s
  notBusy : s.regs.status.busy = false
  released : s.inReset = false
  toEnd : s.pace = .toCompletion

/-- A command accepted now passes CHECK's tests of VARIANT and ranges, and its ranges are ordinary memory that the bus answers. -/
structure CanRun (i : Instr) (s : State) : Prop extends Ready s where
  built : s.params.variant ≠ .stub
  ranges : s.rangesLegal i
  sourceOk : s.admits s.src s.len = true
  destOk : s.admits s.dst (s.outmaxOf i) = true

/-- The registers after a command completes with a code and counts (41_loop_driver.md R85): OVERRUN and the operand registers are kept. -/
def State.completedRegs (s : State) (c : ResultCode) (count strides : Nat) : Regs :=
  { status := { busy := false, done := true, overrun := s.regs.status.overrun, result := c }
    srcAddr := s.regs.srcAddr
    srcLen := s.regs.srcLen
    dstAddr := s.regs.dstAddr
    resultCount := BitVec.ofNat 64 count
    resultStrides := BitVec.ofNat 64 strides }

/-- n steps, one after the other. -/
def stepN : Nat → State → Host.Outcome State Fault Refusal
  | 0, s => .next s
  | n + 1, s =>
    match step s with
    | .next t => stepN n t
    | .fault f => .fault f
    | .refused r => .refused r

/-- The most engine steps a running command can still need: its source in groups, and the changes of phase and pass to come
(70_reset_and_hazards.md R156). -/
def engineRank (s : State) : Nat :=
  let groups := s.eng.len.toNat - s.eng.rd.toNat
  let writePass := match s.eng.pass with
    | .validate => s.eng.len.toNat / 4 + 2
    | .write => 0
  match s.eng.phase with
  | .idle => 0
  | .check => stepBound s
  | .encVec => (groups + 2) / 3 + 2
  | .encTail => (groups + 2) / 3 + 1
  | .decVec => groups / 4 + 2 + writePass
  | .decTail => groups / 4 + 1 + writePass

/-- RESULT_STRIDES of a completed DECODE of L characters with p PAD characters (41_loop_driver.md R94). -/
def decStrides (p : Params) (len pads : Nat) : Nat :=
  if p.variant = .full then
    if 1 ≤ len / p.decIn ∧ len % p.decIn = 0 ∧ 1 ≤ pads then len / p.decIn - 1 else len / p.decIn
  else 0

/-- RESULT_STRIDES of a completed ENCODE of L bytes (41_loop_driver.md R89). -/
def encStrides (p : Params) (len : Nat) : Nat :=
  if p.variant = .full then len / p.encIn else 0

end Machine

end Sys2Proof
end

