-- ==== Sys2Proof/Certificates/Slice0/Obligations.lean ====
section
/-! DEFINITION. The statements for the provers. Each says which rule of spec/ it formalises. -/

open Sys2Proof Sys2Proof.Machine

/-! ### Encoding (30_encoding.md) -/

/-- The command words of R62 and R64, as the table X-1 of 95_test_vectors.md writes them out. -/
def Obligations.CommandWordsDecode : Prop :=
  decodeWord 0x0000000000000001 = .ok .encode ∧ decodeWord 0x0000000000000002 = .ok .decode ∧
  decodeWord 0x0000000000000000 = .error .opcode ∧ decodeWord 0x0000000000000003 = .error .opcode ∧
  decodeWord 0x00000000000000FF = .error .opcode ∧ decodeWord 0x0000000000000101 = .error .reservedBits ∧
  decodeWord 0x8000000000000001 = .error .reservedBits

/-- R61, R62: ENCODE is the word 1 and DECODE the word 2, and the command is selected by the whole word. R64: every other word is
illegal, whatever its OPCODE, and by its reserved bits exactly when bits 63:8 are not all 0. -/
def Obligations.DecodeInvertsEncode : Prop :=
  (encode .encode).toNat = 1 ∧ (encode .decode).toNat = 2 ∧
  ∀ (w : Word) (i : Instr),
    (decodeWord w = .ok i ↔ w = encode i) ∧
    ((∃ e, decodeWord w = .error e) ↔ w.toNat ≠ 1 ∧ w.toNat ≠ 2) ∧
    (decodeWord w = .error .reservedBits ↔ 256 ≤ w.toNat)

/-- The register map of 10_state.md R24: the offset of each name, and both ways between names and aligned offsets, the reserved ones
from 0x48 up among them (R25). -/
def Obligations.RegisterMapRoundTrip : Prop :=
  [RegName.id, .caps, .cmd, .status, .srcAddr, .srcLen, .dstAddr, .resultCount, .resultStrides].map
    (fun r => r.offset.toNat) = [0x00, 0x08, 0x10, 0x18, 0x20, 0x28, 0x30, 0x38, 0x40] ∧
  (∀ (r : RegName) (v : Word), decodeAccess (wrAccess r v) = .ok r ∧ decodeAccess (rdAccess r) = .ok r) ∧
  (∀ t : Transaction, t.wf = true → ∃ r, decodeAccess t = .ok r ∧
    (t.offset.toNat < 0x48 → r.offset = t.offset ∧ r ≠ .reserved) ∧
    (0x48 ≤ t.offset.toNat → r = .reserved))

/-- A step whose next host action writes a command word to CMD is exec of the command that word decodes to, on the state with
that turn taken. -/
def Obligations.StepRunsDecodedCommand : Prop :=
  ∀ (s : State) (w : Nat) (i : Instr), decodeTableWord 64 w = some i →
    step (s.withFetchWord 64 w) =
      exec i { s with pace := .toCompletion, response := none }

/-- R67, R68: what each line of the host command language stands for. `wait` reads STATUS, and its turn stays the next one exactly
when the value read had BUSY = 1, with at least one engine step before the next read (that the loop is a turn of the inbox is
the model's choice: log 31). -/
def Obligations.HostCommandLines : Prop :=
  (∀ (r : RegName) (v : Word),
    (HostCommand.wr r v).actions = [.access { kind := .write, offset := r.offset, width := 64, data := v }] ∧
    (HostCommand.rd r).actions = [.access { kind := .read, offset := r.offset, width := 64, data := 0 }]) ∧
  HostCommand.encode.actions = [.access { kind := .write, offset := 0x10, width := 64, data := 1 }] ∧
  HostCommand.decode.actions = [.access { kind := .write, offset := 0x10, width := 64, data := 2 }] ∧
  (∀ src len dst : Word, (HostCommand.setup src len dst).actions =
    [.access { kind := .write, offset := 0x20, width := 64, data := src },
      .access { kind := .write, offset := 0x28, width := 64, data := len },
      .access { kind := .write, offset := 0x30, width := 64, data := dst }]) ∧
  HostCommand.ack.actions = [.access { kind := .write, offset := 0x18, width := 64, data := 6 }] ∧
  HostCommand.wait.actions = [.wait] ∧
  (∀ (c : HostCommand) (t : Transaction), .access t ∈ c.actions → t.wf = true) ∧
  (∀ (s : State) (p : Pace) (rest : List Turn), s.inReset = false →
    step { s with inbox := { action := .wait, pace := p } :: rest } =
      match step { s with inbox := { action := .access (rdAccess .status), pace := p } :: rest } with
      | .next t =>
        .next (if s.regs.status.busy then { t with inbox := { action := .wait, pace := fairPace p } :: rest } else t)
      | .fault f => .fault f
      | .refused x => .refused x)

/-! ### The register window (10_state.md) -/

/-- 10_state.md R29 and 60_exceptions.md R130: the codes, where the fields of STATUS stand, and its value after completion with code
k and OVERRUN = 0. -/
def Obligations.StatusWordFields : Prop :=
  [ResultCode.none, .ok, .invalid, .notApplicable, .badCmd, .rangeErr, .busErr].map (fun c => (resultBits c).toNat) =
    [0, 1, 2, 3, 4, 5, 6] ∧
  ∀ f : Status,
    f.word.toNat = (resultBits f.result).toNat * 256 + f.overrun.toNat * 4 + f.done.toNat * 2 + f.busy.toNat ∧
    (∀ c, f.overrun = false → (f.finish c).word.toNat = (resultBits c).toNat * 256 + 2)

/-- 10_state.md R30: a write of w to STATUS clears DONE if w[1] = 1 and OVERRUN if w[2] = 1, and changes no other bit. -/
def Obligations.StatusWriteClears : Prop :=
  ∀ (s : State) (w : Word), s.inReset = false → s.pace = .steps 0 →
    perform (.access (wrAccess .status w)) s = .next { s with
      regs := { s.regs with status :=
        { s.regs.status with
          done := if w.getLsbD 1 then false else s.regs.status.done
          overrun := if w.getLsbD 2 then false else s.regs.status.overrun } } }

/-- 10_state.md R31, R32, R33: an operand register stores the low AW bits of what is written, reads 0 above them, and the write
changes no other register. -/
def Obligations.OperandRegistersStoreAwBits : Prop :=
  ∀ (s : State) (r q : RegName) (w : Word), s.params.wf = true → (r = .srcAddr ∨ r = .srcLen ∨ r = .dstAddr) →
    (readReg r (writeReg r w s)).toNat = w.toNat % 2 ^ s.params.aw ∧
    (q ≠ r → readReg q (writeReg r w s) = readReg q s) ∧
    (writeReg r w s).eng = s.eng ∧ (writeReg r w s).mem = s.mem

/-- 10_state.md R25, R26, R27, R34, R35: writes to ID, CAPS, RESULT_COUNT, RESULT_STRIDES and every reserved offset are ignored, and the
reserved offsets and CMD read 0. -/
def Obligations.ReadOnlyRegistersIgnoreWrites : Prop :=
  ∀ (s : State) (t : Transaction) (r : RegName), s.inReset = false → s.pace = .steps 0 →
    decodeAccess t = .ok r → t.kind = .write →
    (r = .id ∨ r = .caps ∨ r = .resultCount ∨ r = .resultStrides ∨ r = .reserved) →
    perform (.access t) s = .next s ∧
    readReg .reserved s = 0 ∧ readReg .cmd s = 0 ∧ (readReg .id s).toNat = 0x4236344300070001

/-- 10_state.md R27: the fields of CAPS, for every legal build. -/
def Obligations.CapsReportsParameters : Prop :=
  ∀ p : Params, p.wf = true →
    (capsWord p).toNat =
      (match p.variant with | .full => 0 | .scalar => 1 | .stub => 2)
        + (match p.tblImpl with | .native128 => 0 | .split64 => 4)
        + p.encIn * 2 ^ 8 + (p.encIn * 4 / 3) * 2 ^ 16 + p.decIn * 2 ^ 24 + (p.decIn * 3 / 4) * 2 ^ 32 + p.aw * 2 ^ 40

/-- 10_state.md R23: an access that is not 64 bits wide, or whose offset is not a multiple of 8, is refused by name; so is a byte
access to the register window as if it were memory. -/
def Obligations.MalformedAccessRefused : Prop :=
  ∀ (s : State) (t : Transaction) (x : Word) (b : Byte),
    (t.width ≠ 64 → perform (.access t) s = .refused .accessWidth) ∧
    (t.width = 64 → t.offset.toNat % 8 ≠ 0 → perform (.access t) s = .refused .accessMisaligned) ∧
    (s.params.regBase ≤ x.toNat → x.toNat < s.params.regBase + 256 →
      perform (.memRead x) s = .refused .accessWidth ∧ perform (.memWrite x b) s = .refused .accessWidth)

/-- A read of any register, at every offset the map gives it, returns the register and changes nothing else (10_state.md R24, R25, R28). -/
def Obligations.ReadsReturnTheRegister : Prop :=
  ∀ (s : State) (t : Transaction) (r : RegName), s.inReset = false → s.pace = .steps 0 →
    decodeAccess t = .ok r → t.kind = .read →
    perform (.access t) s = .next { s with response := some (readReg r s) }

/-! ### Acceptance (41_loop_driver.md R82, R83; 70_reset_and_hazards.md R148, R153) -/

/-- R82: a CMD write while BUSY = 0 is accepted, every word alike, and latches the operands. Later writes to the operand
registers do not touch the latched copies. -/
def Obligations.AcceptLatchesOperands : Prop :=
  ∀ (s : State) (w : Word), s.params.wf = true → s.inReset = false → s.regs.status.busy = false → s.pace = .steps 0 →
    s.params.fits s.regs.srcAddr → s.params.fits s.regs.srcLen → s.params.fits s.regs.dstAddr →
    writeCmd w s = .next { s with
      regs := { s.regs with
        status := { busy := true, done := false, overrun := s.regs.status.overrun, result := .none }
        resultCount := 0
        resultStrides := 0 }
      eng := { s.eng with
        cmd := w, src := s.regs.srcAddr, len := s.regs.srcLen, dst := s.regs.dstAddr, phase := .check }
      raced := false } ∧
    (∀ (r : RegName) (v : Word) (t : State), writeCmd w s = .next t → (writeReg r v t).eng = t.eng)

/-- R83: a CMD write while BUSY = 1 is not accepted; its only effect is OVERRUN. -/
def Obligations.BusyWriteSetsOverrunOnly : Prop :=
  ∀ (s : State) (w : Word), s.inReset = false → s.regs.status.busy = true → s.pace = .steps 0 →
    writeCmd w s = .next { s with regs := { s.regs with status := { s.regs.status with overrun := true } } }

/-- R148: while the reset input is asserted, the block ignores register accesses. -/
def Obligations.ResetIgnoresAccesses : Prop :=
  ∀ (s : State) (t : Transaction), s.inReset = true → t.wf = true → perform (.access t) s = .next s

/-- R153: an engine step does the same whether an operand register is written before it or after it. -/
def Obligations.OperandWritesDoNotAffectRunningCommand : Prop :=
  ∀ (s : State) (r : RegName) (w : Word), (r = .srcAddr ∨ r = .srcLen ∨ r = .dstAddr) →
    engineStep (writeReg r w s) =
      match engineStep s with
      | .next t => .next (writeReg r w t)
      | .fault f => .fault f
      | .refused x => .refused x

/-! ### CHECK (60_exceptions.md R131 to R134) -/

/-- R132: every other command word completes BAD_CMD, under every build and whatever the operands, with no memory access. -/
def Obligations.IllegalWordsCompleteBadCmd : Prop :=
  ∀ (s : State) (w : Word), Ready s → w ≠ 1 → w ≠ 2 →
    ∃ t, writeCmd w s = .next t ∧ t.regs = s.completedRegs .badCmd 0 0 ∧ t.mem = s.mem

/-- R133: under VARIANT = STUB each command completes NOT_APPLICABLE, whatever its operands, with no memory access. -/
def Obligations.StubCompletesNotApplicable : Prop :=
  ∀ (s : State) (i : Instr), Ready s → s.params.variant = .stub →
    ∃ t, exec i s = .next t ∧ t.regs = s.completedRegs .notApplicable 0 0 ∧ t.mem = s.mem

/-- R134: a command whose ranges pass 2^AW, or overlap, completes RANGE_ERR with no memory access, before its length is judged. -/
def Obligations.RangeErrorBeforeAnyAccess : Prop :=
  ∀ (s : State) (i : Instr), Ready s → s.params.variant ≠ .stub → ¬s.rangesLegal i →
    ∃ t, exec i s = .next t ∧ t.regs = s.completedRegs .rangeErr 0 0 ∧ t.mem = s.mem

/-- 44_scalar_fallback.md R127: a DECODE of a length that is no multiple of 4 ends INVALID from CHECK, and a DECODE of length 0 is valid and
decodes to nothing. That the first holds even where its ranges touch memory with side effects, which 20_memory.md R52 has a model
refuse, is the model's choice (log 12): a command that CHECK ends accesses nothing and is not refused. -/
def Obligations.DecodeLengthRule : Prop :=
  ∀ s : State, Ready s → s.params.variant ≠ .stub → s.rangesLegal .decode →
    (s.len % 4 ≠ 0 →
      ∃ t, exec .decode s = .next t ∧ t.regs = s.completedRegs .invalid 0 0 ∧ t.mem = s.mem) ∧
    (s.len = 0 →
      ∃ t, exec .decode s = .next t ∧ t.regs = s.completedRegs .ok 0 0 ∧ t.mem = s.mem)

/-- 20_memory.md R52: a command that passes its checks and whose ranges touch memory with side effects, or the register window, is
refused (the model's choice of when: log 12). -/
def Obligations.DeviceMemoryRefused : Prop :=
  ∀ (s : State) (i : Instr), Ready s → s.params.variant ≠ .stub → s.rangesLegal i →
    (i = .decode → s.len % 4 = 0) →
    (s.touchesDevice s.src s.len = true ∨ s.touchesDevice s.dst (s.outmaxOf i) = true) →
    exec i s = .refused .deviceMemory

/-! ### Results of the commands (41_loop_driver.md R89, R94, R96) -/

/-- R89: ENCODE writes Enc(B) to the destination, and nothing else, and completes OK with its counts. -/
def Obligations.EncodeWritesBase64 : Prop :=
  ∀ s : State, CanRun .encode s →
    ∃ t, exec .encode s = .next t ∧
      t.mem = Memory.writeBytes s.mem s.dst (encText s.source) ∧
      (encText s.source).length = 4 * ((s.len + 2) / 3) ∧
      t.regs = s.completedRegs .ok (4 * ((s.len + 2) / 3)) (encStrides s.params s.len)

/-- R94: DECODE of a Valid source writes Dec(C) to the destination, and nothing else, and completes OK with its counts; of any
other source it ends INVALID and writes nothing. -/
def Obligations.DecodeWritesBytes : Prop :=
  ∀ s : State, CanRun .decode s →
    (∀ o, decText s.source = some o →
      ∃ t, exec .decode s = .next t ∧
        t.mem = Memory.writeBytes s.mem s.dst o ∧
        o.length = 3 * (s.len / 4) - padCount s.source ∧
        t.regs = s.completedRegs .ok o.length (decStrides s.params s.len (padCount s.source))) ∧
    (decText s.source = none →
      ∃ t, exec .decode s = .next t ∧ t.mem = s.mem ∧ t.regs = s.completedRegs .invalid 0 0)

/-- R96: decoding what ENCODE wrote gives the source back, in memory, for every build with a datapath. -/
def Obligations.EncodeThenDecodeRestoresSource : Prop :=
  ∀ s : State, CanRun .encode s →
    ∃ t, exec .encode s = .next t ∧
      ∀ d : Word,
        let u : State := { t with regs :=
          { t.regs with srcAddr := s.regs.dstAddr, srcLen := t.regs.resultCount, dstAddr := d } }
        CanRun .decode u →
          ∃ v, exec .decode u = .next v ∧
            v.regs.status.result = .ok ∧ v.regs.resultCount = s.regs.srcLen ∧
            Memory.readBytes v.mem d.toNat s.len = s.source

/-- 44_scalar_fallback.md R129: the scalar groups are inverses, so Valid(Enc(B)) holds and Dec(Enc(B)) = B for every B; the other
direction does not hold for every valid C. -/
def Obligations.TextRoundTrip : Prop :=
  (∀ b0 b1 b2 : Byte, ∀ f : Bool, ∃ c0 c1 c2 c3, scEncGroup b0 b1 b2 = [c0, c1, c2, c3] ∧
    scDecGroup c0 c1 c2 c3 f = some [b0, b1, b2]) ∧
  (∀ g : List Byte, (g.length = 1 ∨ g.length = 2) → ∃ c0 c1 c2 c3, scEncTail g = [c0, c1, c2, c3] ∧
    scDecGroup c0 c1 c2 c3 true = some g) ∧
  (∀ b : List Byte, validText (encText b) = true ∧ decText (encText b) = some b) ∧
  (∃ c o : List Byte, decText c = some o ∧ encText o ≠ c)

/-- 60_exceptions.md R135, 41_loop_driver.md R86: ENCODE never ends INVALID. -/
def Obligations.EncodeNeverInvalid : Prop :=
  ∀ s t : State, Ready s → exec .encode s = .next t → t.regs.status.result ≠ .invalid

/-- 20_memory.md R50: a command that completes INVALID, BAD_CMD, NOT_APPLICABLE or RANGE_ERR writes no memory byte. -/
def Obligations.FailuresWriteNothing : Prop :=
  ∀ (s t : State) (w : Word), Ready s → writeCmd w s = .next t →
    (t.regs.status.result = .invalid ∨ t.regs.status.result = .badCmd ∨
      t.regs.status.result = .notApplicable ∨ t.regs.status.result = .rangeErr) →
    ∀ a, Memory.read t.mem a = Memory.read s.mem a

/-- 60_exceptions.md R136: a command that meets a bus error ends BUS_ERR with the counts 0, and no byte outside its destination range
is written: ENCODE with an error anywhere in its source or destination; DECODE of a Valid source with an error anywhere in the
source, or in the bytes it writes; and DECODE of any source that lies wholly in an error region. Which addresses answer with
an error is the platform's (the region list is the model's choice: log 7). -/
def Obligations.BusErrorEndsCommand : Prop :=
  ∀ (s : State) (i : Instr), Ready s → s.params.variant ≠ .stub → s.rangesLegal i →
    s.touchesDevice s.src s.len = false → s.touchesDevice s.dst (s.outmaxOf i) = false →
    ((i = .encode ∧ (s.touches .error s.src s.len = true ∨ s.touches .error s.dst (s.outmaxOf i) = true)) ∨
      (i = .decode ∧ ∃ o, decText s.source = some o ∧
        (s.touches .error s.src s.len = true ∨ s.touches .error s.dst o.length = true)) ∨
      (i = .decode ∧ s.len % 4 = 0 ∧ 0 < s.len ∧
        ∃ r ∈ s.regions, r.kind = .error ∧ r.base ≤ s.src ∧ s.src + s.len ≤ r.base + r.size)) →
    ∃ t, exec i s = .next t ∧ t.regs = s.completedRegs .busErr 0 0 ∧
      ∀ a, ¬(s.dst ≤ a ∧ a < s.dst + s.outmaxOf i) → Memory.read t.mem a = Memory.read s.mem a

/-- The frame of ENCODE and DECODE, at whatever pace and however far they come (20_memory.md R49, R51, 41_loop_driver.md R82, R99): the
operand registers, OVERRUN, the build, the platform and what is to come from outside are unchanged, the source and every
byte outside [DST_ADDR, DST_ADDR + outmax) read as before, and the latched operands are those of acceptance. That they are still
so when the command has completed is the model's choice (log 32). -/
def Obligations.CommandFrame : Prop :=
  ∀ (s t : State) (i : Instr), Inv s → s.regs.status.busy = false → s.inReset = false → exec i s = .next t →
    t.regs.srcAddr = s.regs.srcAddr ∧ t.regs.srcLen = s.regs.srcLen ∧ t.regs.dstAddr = s.regs.dstAddr ∧
    t.regs.status.overrun = s.regs.status.overrun ∧
    t.eng.cmd = encode i ∧ t.eng.src = s.regs.srcAddr ∧ t.eng.len = s.regs.srcLen ∧ t.eng.dst = s.regs.dstAddr ∧
    t.params = s.params ∧ t.regions = s.regions ∧ t.inReset = s.inReset ∧ t.response = s.response ∧
    t.pace = s.pace ∧ t.inbox = s.inbox ∧
    (∀ a, ¬(s.dst ≤ a ∧ a < s.dst + s.outmaxOf i) → Memory.read t.mem a = Memory.read s.mem a) ∧
    (∀ a, s.src ≤ a → a < s.src + s.len → Memory.read t.mem a = Memory.read s.mem a)

/-- 20_memory.md R48: the engine reads memory only in the source range: two memories that agree there give the same registers and the
same output bytes. -/
def Obligations.ResultsDependOnSourceOnly : Prop :=
  ∀ (s t : State) (m : List Host.Cell) (i : Instr), Ready s → Ready { s with mem := m } →
    (∀ a, s.src ≤ a → a < s.src + s.len → Memory.read m a = Memory.read s.mem a) →
    exec i s = .next t →
    ∃ u, exec i { s with mem := m } = .next u ∧ u.regs = t.regs ∧
      ∀ a, s.dst ≤ a → a < s.dst + t.regs.resultCount.toNat → Memory.read u.mem a = Memory.read t.mem a

/-- 00_scope.md R8, R9, R11: the strides, the table build and FULL against SCALAR change only RESULT_STRIDES, for every command
word and whatever its outcome, where the bus answers. -/
def Obligations.StridesAndBuildsAgree : Prop :=
  ∀ (s : State) (w : Word) (encIn decIn : Nat) (v : Variant) (b : TblImpl),
    let s' : State := { s with params :=
      { s.params with encIn := encIn, decIn := decIn, variant := v, tblImpl := b } }
    Ready s → Ready s' → s.params.variant ≠ .stub → v ≠ .stub →
    s.admits s.src s.len = true → s.admits s.dst (outmax w s.len) = true →
    ∃ t t', writeCmd w s = .next t ∧ writeCmd w s' = .next t' ∧
      t'.mem = t.mem ∧ t'.regs = { t.regs with resultStrides := t'.regs.resultStrides }

/-! ### Progress (70_reset_and_hazards.md R156) and atomicity (41_loop_driver.md R97) -/

/-- R156: from acceptance to finish, at most ceil(L/3) + 3 steps for ENCODE, L/2 + 5 for DECODE, and 1 for a command that CHECK ends.
A command that touches memory with side effects is refused instead (20_memory.md R52, log 12). -/
def Obligations.CommandsCompleteWithinBound : Prop :=
  ∀ (s : State) (w : Word), Inv s → s.regs.status.busy = false → s.inReset = false →
    (∀ n, (w = 1 ∧ n = (s.len + 2) / 3 + 3) ∨ (w = 2 ∧ n = s.len / 2 + 5) →
      (∃ t, engineRun n (accept w s) = .next t ∧ t.eng.phase = .idle) ∨
      (engineRun n (accept w s) = .refused .deviceMemory ∧
        (s.touchesDevice s.src s.len = true ∨ s.touchesDevice s.dst (outmax w s.len) = true))) ∧
    (checkCode (accept w s) ≠ none → ∃ t, engineRun 1 (accept w s) = .next t ∧ t.eng.phase = .idle)

/-- R156, whatever the host does between two steps: each engine step of a running command lowers the number of steps it can still
need, which is within the bound at acceptance. -/
def Obligations.EngineStepsDecreaseRank : Prop :=
  (∀ s t : State, Inv s → s.eng.phase ≠ .idle → engineStep s = .next t → engineRank t < engineRank s) ∧
  (∀ s : State, Inv s → engineRank (accept 1 s) = (s.len + 2) / 3 + 3 ∧ engineRank (accept 2 s) = s.len / 2 + 5)

/-- R97: a command paused after any number of engine steps, and then run to completion, ends in the very state of the single
transition from ACCEPT to FINISH; it never faults, and it is refused only where that is. -/
def Obligations.PausedCommandsFinishAsWhole : Prop :=
  ∀ (s : State) (i : Instr) (m : Nat), Inv s → s.regs.status.busy = false → s.inReset = false →
    match exec i { s with pace := .steps m } with
    | .next t => advance { t with pace := .toCompletion } = exec i { s with pace := .toCompletion }
    | .refused r => exec i { s with pace := .toCompletion } = .refused r
    | .fault _ => False

/-- R97, 70_reset_and_hazards.md R155: while BUSY = 1, STATUS reads BUSY with RESULT = NONE, and the counts read 0. -/
def Obligations.BusyHidesResults : Prop :=
  ∀ s : State, Inv s → s.eng.phase ≠ .idle →
    ((readReg .status s).toNat = 0x1 ∨ (readReg .status s).toNat = 0x5) ∧
    readReg .resultCount s = 0 ∧ readReg .resultStrides s = 0

/-! ### The invariant (41_loop_driver.md R95) -/

/-- The state after reset meets the invariant. -/
def Obligations.ResetMeetsInvariant : Prop := Inv State.reset

/-- Every step keeps the invariant: memory canonical and within 2^AW, registers within AW bits, BUSY exactly when a phase runs, never
BUSY and DONE together, and the cursors of R95. Its clause about the registers while reset is asserted is the model's choice
(log 34). -/
def Obligations.StepKeepsInvariant : Prop :=
  ∀ s t : State, Inv s → step s = .next t → Inv t

/-- R95, R99: no access of the engine passes 2^AW, so no step faults. -/
def Obligations.StepNeverFaults : Prop :=
  ∀ (s : State) (f : Fault), Inv s → step s ≠ .fault f

/-- 00_scope.md section 4: no step changes the build or the platform (that State carries them is the model's choice: log 1, log 7). -/
def Obligations.StepKeepsBuild : Prop :=
  ∀ s t : State, step s = .next t → t.params = s.params ∧ t.regions = s.regions

/-- R95: the bounds of the cursors at every step boundary of a command that passed CHECK. -/
def Obligations.CursorBounds : Prop :=
  ∀ s : State, Inv s → s.eng.phase ≠ .idle → s.eng.phase ≠ .check →
    s.eng.rd.toNat ≤ s.eng.len.toNat ∧
    s.eng.wr.toNat ≤ outmax s.eng.cmd s.eng.len.toNat ∧
    s.eng.src.toNat + s.eng.rd.toNat ≤ 2 ^ s.params.aw ∧
    s.eng.dst.toNat + s.eng.wr.toNat ≤ 2 ^ s.params.aw ∧
    (s.eng.cmd = 1 → s.eng.wr.toNat = 4 * ((s.eng.rd.toNat + 2) / 3)) ∧
    (s.eng.phase = .encVec → s.eng.rd.toNat = s.eng.ns.toNat * s.params.encIn) ∧
    (s.eng.cmd = 2 → s.eng.rd.toNat % 4 = 0 ∧ s.eng.wr.toNat ≤ 3 * (s.eng.rd.toNat / 4) ∧
      (s.eng.rd.toNat < s.eng.len.toNat → s.eng.wr.toNat = 3 * (s.eng.rd.toNat / 4)))

/-! ### Reset (10_state.md R42, 70_reset_and_hazards.md R148, R149) -/

/-- R42: what the registers read after reset, and E.phase. -/
def Obligations.ResetValues : Prop :=
  readReg .id State.reset = 0x4236344300070001 ∧ readReg .status State.reset = 0 ∧
  readReg .srcAddr State.reset = 0 ∧ readReg .srcLen State.reset = 0 ∧ readReg .dstAddr State.reset = 0 ∧
  readReg .resultCount State.reset = 0 ∧ readReg .resultStrides State.reset = 0 ∧
  State.reset.eng.phase = .idle ∧ State.reset.regs.status.result = .none

/-- R148, R149: asserting and releasing the reset input leaves the reset registers and an IDLE engine. It changes no memory byte when
no command runs; a running command is abandoned, and then no byte outside its destination range, and none of its source,
has changed. Releasing it from every state in reset leaves the reset registers too. -/
def Obligations.ResetAbandonsCommand : Prop :=
  ∀ s : State, Inv s →
    (s.inReset = false →
      ∃ t u, perform (.resetInput true) s = .next t ∧ t.inReset = true ∧
        perform (.resetInput false) t = .next u ∧
        u.regs = Regs.reset ∧ u.eng.phase = .idle ∧ u.inReset = false ∧
        u.params = s.params ∧ u.regions = s.regions ∧
        (s.eng.phase = .idle → u.mem = s.mem) ∧
        (∀ a, ¬(s.eng.dst.toNat ≤ a ∧ a < s.eng.dst.toNat + outmax s.eng.cmd s.eng.len.toNat) →
          Memory.read u.mem a = Memory.read s.mem a) ∧
        (∀ a, s.eng.src.toNat ≤ a → a < s.eng.src.toNat + s.eng.len.toNat →
          Memory.read u.mem a = Memory.read s.mem a)) ∧
    (s.inReset = true →
      ∃ u, perform (.resetInput false) s = .next u ∧ u.regs = Regs.reset ∧ u.eng.phase = .idle ∧ u.inReset = false ∧
        u.mem = s.mem)

/-- R149: a reset during a register access leaves the registers as after reset, whether or not the access took effect. Only the
destination of the command that ran, or that the access started, can change, and never its source. That the registers hold
their reset values from the assertion on is the model's choice (log 34). So is the last clause (log 16): an access during the
release of reset is answered, and changes no memory. -/
def Obligations.ResetDuringAccess : Prop :=
  ∀ (s : State) (t : Transaction), Inv s → t.wf = true →
    (s.inReset = false →
      ∃ u, perform (.resetDuring t) s = .next u ∧ u.regs = Regs.reset ∧ u.eng.phase = .idle ∧ u.inReset = true ∧
        (s.eng.phase ≠ .idle → ∀ a,
          (¬(s.eng.dst.toNat ≤ a ∧ a < s.eng.dst.toNat + outmax s.eng.cmd s.eng.len.toNat) →
            Memory.read u.mem a = Memory.read s.mem a) ∧
          (s.eng.src.toNat ≤ a → a < s.eng.src.toNat + s.eng.len.toNat → Memory.read u.mem a = Memory.read s.mem a)) ∧
        (s.eng.phase = .idle → ∀ a,
          (¬(s.dst ≤ a ∧ a < s.dst + outmax t.data s.len) → Memory.read u.mem a = Memory.read s.mem a) ∧
          (s.src ≤ a → a < s.src + s.len → Memory.read u.mem a = Memory.read s.mem a)) ∧
        (s.eng.phase = .idle → ¬(t.kind = .write ∧ decodeAccess t = .ok .cmd) → u.mem = s.mem)) ∧
    (s.inReset = true →
      ∃ u, perform (.releaseDuring t) s = .next u ∧ u.inReset = false ∧ u.mem = s.mem ∧
        (t.kind = .read → u.regs = Regs.reset))

/-! ### Memory while a command runs (20_memory.md R48, R49; 70_reset_and_hazards.md R154) -/

/-- R49, R136, R154: an engine step writes only in the command's destination range, and never its source, whether it goes on,
completes, meets a bus error, or completes after a race. -/
def Obligations.EngineWritesOnlyDestination : Prop :=
  ∀ s t : State, Inv s → engineStep s = .next t → ∀ a,
    (¬(s.eng.dst.toNat ≤ a ∧ a < s.eng.dst.toNat + outmax s.eng.cmd s.eng.len.toNat) →
      Memory.read t.mem a = Memory.read s.mem a) ∧
    (s.eng.src.toNat ≤ a → a < s.eng.src.toNat + s.eng.len.toNat → Memory.read t.mem a = Memory.read s.mem a)

/-- R55, R154: a coherent host's write to a byte of memory stores the byte, a later read returns it, and the write is a race exactly
when a command runs and the byte is in one of its ranges. A read while a command runs answers too, and changes no memory.
Three clauses are the model's choice: that the host finds memory in a range that answers the block with errors (log 7), that
host and engine see one memory at the same addresses (log 33), and that a race is remembered until completion (log 9). -/
def Obligations.HostMemoryAccess : Prop :=
  ∀ (s : State) (x : Word) (b : Byte), Inv s → s.pace = .steps 0 → s.params.memCoherent = true →
    x.toNat < 2 ^ s.params.aw → s.touchesDevice x.toNat 1 = false →
    ∃ t u, perform (.memWrite x b) s = .next t ∧
      (∀ a, Memory.read t.mem a = if a = x.toNat then b else Memory.read s.mem a) ∧
      (t.raced = true ↔ s.raced = true ∨ (s.eng.phase ≠ .idle ∧ (s.inSource x.toNat = true ∨ s.inDest x.toNat = true))) ∧
      t.regs = s.regs ∧ t.eng = s.eng ∧
      perform (.memRead x) t = .next u ∧ u.mem = t.mem ∧
      ((s.eng.phase = .idle ∨ s.inDest x.toNat = false) → u.response = some (b.setWidth 64))

/-! ### Lane operations (40_lane_ops.md) -/

/-- R71, R72, R73, R74: the constants and the arithmetic, lane by lane. -/
def Obligations.LaneArithmetic : Prop :=
  ∀ (a b : List Byte) (k : Int) (n i : Nat) (x y : Byte), a.length = b.length → a[i]? = some x → b[i]? = some y →
    (i < n → ∃ r, (vdup k n)[i]? = some r ∧ (r.toNat : Int) = k % 256) ∧
    (∃ r, (vadd a b)[i]? = some r ∧ r.toNat = (x.toNat + y.toNat) % 256) ∧
    (∃ r, (vsub a b)[i]? = some r ∧ (r.toNat : Int) = ((x.toNat : Int) - y.toNat) % 256) ∧
    (∃ r, (vqsub a b)[i]? = some r ∧ r.toNat = if y.toNat ≤ x.toNat then x.toNat - y.toNat else 0) ∧
    (vdup k n).length = n ∧ (vadd a b).length = a.length ∧ (vsub a b).length = a.length ∧
    (vqsub a b).length = a.length

/-- R75, R76, R77: comparisons are unsigned and give 0xFF or 0x00; AND, OR and the bitwise select act bit by bit. -/
def Obligations.LaneMasksAndBits : Prop :=
  ∀ (m a b : List Byte) (i : Nat) (u x y : Byte), a.length = b.length → m.length = a.length →
    m[i]? = some u → a[i]? = some x → b[i]? = some y →
    (vcgt a b)[i]? = some (if y.toNat < x.toNat then 0xFF else 0x00) ∧
    (vcge a b)[i]? = some (if y.toNat ≤ x.toNat then 0xFF else 0x00) ∧
    (vcle a b)[i]? = some (if x.toNat ≤ y.toNat then 0xFF else 0x00) ∧
    (vceq a b)[i]? = some (if x.toNat = y.toNat then 0xFF else 0x00) ∧
    (∃ r, (vand a b)[i]? = some r ∧ ∀ j, r.getLsbD j = (x.getLsbD j && y.getLsbD j)) ∧
    (∃ r, (vorr a b)[i]? = some r ∧ ∀ j, r.getLsbD j = (x.getLsbD j || y.getLsbD j)) ∧
    (∃ r, (vbsl m a b)[i]? = some r ∧ ∀ j, r.getLsbD j = if u.getLsbD j then x.getLsbD j else y.getLsbD j)

/-- R78, R79, R80, R81: shifts, the any-lane reduction, the table lookup in both builds (R11), and the permute with zero fill. -/
def Obligations.LaneShiftsTablesPermutes : Prop :=
  ∀ (a t src : List Byte) (s : List Nat) (p : List (Option Nat)) (impl : TblImpl) (i : Nat),
    (∀ x k, a[i]? = some x → s[i]? = some k →
      (∃ r, (vshl a s)[i]? = some r ∧ r.toNat = if k < 8 then (x.toNat * 2 ^ k) % 256 else 0) ∧
      (∃ r, (vshr a s)[i]? = some r ∧ r.toNat = if k < 8 then x.toNat / 2 ^ k else 0)) ∧
    (vany a = true ↔ ∃ x ∈ a, x ≠ 0) ∧
    (∀ x, a.length ≤ 64 → t.length = 16 → a[i]? = some x →
      (vtbl16 impl t a)[i]? = some (if h : x.toNat < t.length then t[x.toNat] else 0)) ∧
    (∀ e, p[i]? = some e →
      (vperm src p)[i]? = some (match e with
        | some j => if h : j < src.length then src[j] else 0
        | none => 0))

/-! ### Alphabet translation (42_translate.md) -/

/-- R104, R106: the encode translator gives ALPHA in every lane, in both builds of the table; and ALPHA is the five ranges of R100. -/
def Obligations.XlateEncIsAlphabet : Prop :=
  (∀ (impl : TblImpl) (v : List Byte), v.length ≤ 64 → (∀ x ∈ v, x.toNat < 64) → xlateEnc impl v = v.map alpha) ∧
  (∀ x : Byte, x.toNat < 64 → (alpha x).toNat =
    if x.toNat ≤ 25 then x.toNat + 65
    else if x.toNat ≤ 51 then x.toNat - 26 + 97
    else if x.toNat ≤ 61 then x.toNat - 52 + 48
    else if x.toNat = 62 then 43 else 47)

/-- R110: the decode translator is the exact left inverse of the encode translator, lane by lane: V = v and BAD = 0x00 on ALPHA(v),
and BAD = 0xFF on every byte that is no ALPHA(v). -/
def Obligations.XlateDecInvertsAlphabet : Prop :=
  ∀ (cs : List Byte) (i : Nat) (x : Byte), cs[i]? = some x →
    (∀ v : Byte, v.toNat < 64 → x = alpha v → (xlateDec cs).1[i]? = some v ∧ (xlateDec cs).2[i]? = some 0x00) ∧
    ((∀ v : Byte, v.toNat < 64 → x ≠ alpha v) → (xlateDec cs).2[i]? = some 0xFF) ∧
    (decChar x = none ↔ ∀ v : Byte, v.toNat < 64 → x ≠ alpha v) ∧
    (∀ v : Byte, v.toNat < 64 → decChar (alpha v) = some v)

/-! ### Bit reshuffle (43_reshuffle.md) -/

/-- R112, R113: the fields of a group are the six-bit slices of the 24-bit number its bytes make, the first byte most significant. -/
def Obligations.FieldsBigEndian : Prop :=
  ∀ b0 b1 b2 : Byte,
    let w := b0.toNat * 2 ^ 16 + b1.toNat * 2 ^ 8 + b2.toNat
    (fields b0 b1 b2).map BitVec.toNat =
      [w / 2 ^ 18, w / 2 ^ 12 % 2 ^ 6, w / 2 ^ 6 % 2 ^ 6, w % 2 ^ 6]

/-- R117: PACK is the inverse of FIELDS on fields in 0..63. -/
def Obligations.PackInvertsFields : Prop :=
  (∀ b0 b1 b2 : Byte, ∃ f0 f1 f2 f3, fields b0 b1 b2 = [f0, f1, f2, f3] ∧ pack f0 f1 f2 f3 = [b0, b1, b2]) ∧
  (∀ f0 f1 f2 f3 : Byte, f0.toNat < 64 → f1.toNat < 64 → f2.toNat < 64 → f3.toNat < 64 →
    ∃ o0 o1 o2, pack f0 f1 f2 f3 = [o0, o1, o2] ∧ fields o0 o1 o2 = [f0, f1, f2, f3])

/-- R115: RESHUF_ENC gives FIELDS of every group, and every result lane is below 64. -/
def Obligations.ReshufEncGroups : Prop :=
  ∀ (x : List Byte) (n g : Nat) (b0 b1 b2 : Byte), x.length = 3 * n → 1 ≤ n → 4 * n ≤ 64 → g < n →
    x[3 * g]? = some b0 → x[3 * g + 1]? = some b1 → x[3 * g + 2]? = some b2 →
    ((reshufEnc x).drop (4 * g)).take 4 = fields b0 b1 b2 ∧
    (reshufEnc x).length = 4 * n ∧ ∀ f ∈ reshufEnc x, f.toNat < 64

/-- R119: RESHUF_DEC gives PACK of every group, for every lane value. -/
def Obligations.ReshufDecGroups : Prop :=
  ∀ (v : List Byte) (n g : Nat) (f0 f1 f2 f3 : Byte), v.length = 4 * n → 1 ≤ n → 4 * n ≤ 64 → g < n →
    v[4 * g]? = some f0 → v[4 * g + 1]? = some f1 → v[4 * g + 2]? = some f2 → v[4 * g + 3]? = some f3 →
    ((reshufDec v).drop (3 * g)).take 3 = pack f0 f1 f2 f3 ∧ (reshufDec v).length = 3 * n

/-- R121: the reshuffle is a bijection between 3N bytes and 4N six-bit fields. -/
def Obligations.ReshuffleBijection : Prop :=
  ∀ (x v : List Byte) (n : Nat), 1 ≤ n → 4 * n ≤ 64 →
    (x.length = 3 * n → reshufDec (reshufEnc x) = x) ∧
    (v.length = 4 * n → (∀ f ∈ v, f.toNat < 64) → reshufEnc (reshufDec v) = v)

/-- R116, R120: a vector stride gives the same text, or bytes, as the scalar groups joined together, for every legal build. -/
def Obligations.StridesEqualScalarGroups : Prop :=
  ∀ (p : Params) (x c : List Byte), p.wf = true →
    (x.length = p.encIn → xlateEnc p.tblImpl (reshufEnc x) = encText x) ∧
    (c.length = p.decIn → vany (xlateDec c).2 = false → decText c = some (reshufDec (xlateDec c).1))

/-! ### Scalar fallback (44_scalar_fallback.md) -/

/-- R125, R126: what SC_DEC_GROUP accepts, and that it rejects everything else. -/
def Obligations.ScalarDecodeGroups : Prop :=
  ∀ (c0 c1 c2 c3 : Byte) (final : Bool) (o : List Byte),
    scDecGroup c0 c1 c2 c3 final = some o ↔
      (∃ f0 f1 f2 f3 : Byte, f0.toNat < 64 ∧ f1.toNat < 64 ∧ f2.toNat < 64 ∧ f3.toNat < 64 ∧
        c0 = alpha f0 ∧ c1 = alpha f1 ∧ c2 = alpha f2 ∧ c3 = alpha f3 ∧ o = pack f0 f1 f2 f3) ∨
      (final = true ∧ c3 = 61 ∧ ∃ f0 f1 f2 : Byte, f0.toNat < 64 ∧ f1.toNat < 64 ∧ f2.toNat < 64 ∧
        c0 = alpha f0 ∧ c1 = alpha f1 ∧ c2 = alpha f2 ∧ o = (pack f0 f1 f2 0).take 2) ∨
      (final = true ∧ c2 = 61 ∧ c3 = 61 ∧ ∃ f0 f1 : Byte, f0.toNat < 64 ∧ f1.toNat < 64 ∧
        c0 = alpha f0 ∧ c1 = alpha f1 ∧ o = (pack f0 f1 0 0).take 1)

/-- R128: Valid(C) character by character: the length is a multiple of 4, and every byte is in the alphabet but for PAD as the last
byte, or as the last two. -/
def Obligations.ValidCharacters : Prop :=
  ∀ cs : List Byte,
    validText cs = true ↔
      cs.length % 4 = 0 ∧
      ∀ (i : Nat) (x : Byte), cs[i]? = some x →
        (∃ v : Byte, v.toNat < 64 ∧ x = alpha v) ∨
        (x = 61 ∧ i + 1 = cs.length) ∨
        (x = 61 ∧ i + 2 = cs.length ∧ cs[i + 1]? = some 61)

/-- 41_loop_driver.md R89, R96: the length of Enc(B), and its padding: none, two or one PAD as |B| mod 3 is 0, 1 or 2. -/
def Obligations.EncodePadding : Prop :=
  ∀ b : List Byte,
    (encText b).length = 4 * ((b.length + 2) / 3) ∧
    padCount (encText b) = (if b.length % 3 = 1 then 2 else if b.length % 3 = 2 then 1 else 0)

/-! ### The wait loop (30_encoding.md R68) -/

/-- R68, 70_reset_and_hazards.md R156, R157: a `wait` loop ends, whatever its pace, with a value read whose BUSY is 0, after at most two reads
more than the steps the running command can still need; or the command is refused (log 12). That a loop at a pace of no
steps goes on at one step a read is the model's choice of a fair order (log 31). -/
def Obligations.WaitEnds : Prop :=
  ∀ (s : State) (p : Pace) (rest : List Turn), Inv s → s.inReset = false →
    s.inbox = { action := .wait, pace := p } :: rest →
    ∃ n, n ≤ engineRank s + 2 ∧
      ((∃ (t : State) (w : Word), stepN n s = .next t ∧ t.inbox = rest ∧ t.eng.phase = .idle ∧
        t.response = some w ∧ w.getLsbD 0 = false) ∨
      stepN n s = .refused .deviceMemory)
end

