-- ==== Sys2Proof/Laws/Lanes.lean ====
section
/-! SUPPORT. The vector and group registers hold what is loaded into them, and the lane operations keep their length. -/

namespace Sys2Proof.Machine

/-- Lane 0 of a packed sub-register. -/
theorem subLane_cons_zero (b : Byte) (q : BitVec 128) :
    subLane ((q <<< 8) ||| b.setWidth 128) 0 = b := by
  apply BitVec.eq_of_getLsbD_eq
  intro i hi
  simp [subLane, hi]
  omega

/-- A later lane of a packed sub-register. -/
theorem subLane_cons_succ (b : Byte) (q : BitVec 128) (t : Nat) (ht : t + 1 < 16) :
    subLane ((q <<< 8) ||| b.setWidth 128) (t + 1) = subLane q t := by
  apply BitVec.eq_of_getLsbD_eq
  intro i hi
  simp only [subLane, BitVec.getLsbD_extractLsb', hi, decide_true, Bool.true_and, BitVec.getLsbD_or,
    BitVec.getLsbD_shiftLeft, BitVec.getLsbD_setWidth]
  rw [show 8 * (t + 1) + i - 8 = 8 * t + i by omega]
  have h1 : ¬(8 * (t + 1) + i < 8) := by omega
  have h2 : 8 * (t + 1) + i < 128 := by omega
  have h3 : b.getLsbD (8 * (t + 1) + i) = false := BitVec.getLsbD_of_ge _ _ (by omega)
  simp [h1, h2, h3]

/-- A packed sub-register gives back its bytes. -/
theorem subLane_subPack (l : List Byte) (t : Nat) (ht : t < 16) : subLane (subPack l) t = l.getD t 0 := by
  induction l generalizing t with
  | nil =>
    apply BitVec.eq_of_getLsbD_eq
    intro i hi
    simp [subPack, subLane]
  | cons b r ih =>
    cases t with
    | zero => simpa [subPack] using subLane_cons_zero b (subPack r)
    | succ t => simpa [subPack, subLane_cons_succ b (subPack r) t ht] using ih t (by omega)

/-- A lane that is loaded holds its byte. -/
theorem VReg.lane_load (v : VReg) (l : List Byte) (m : Nat) (hm : m < l.length) (hl : l.length ≤ 64) :
    (v.load l).lane m = l.getD m 0 := by
  have hq : m / 16 < 4 := by omega
  have key : ∀ q : Nat, m / 16 = q →
      (((l ++ (v.lanes 64).drop l.length).drop (16 * q)).take 16).getD (m % 16) 0 = l.getD m 0 := by
    intro q hq
    have hm' : 16 * q + m % 16 = m := by omega
    simp [List.getD_eq_getElem?_getD, Nat.mod_lt, hm', List.getElem?_append_left hm]
  unfold VReg.lane VReg.load
  have h16 : m % 16 < 16 := Nat.mod_lt _ (by omega)
  rcases hd : m / 16 with _ | _ | _ | k
  · simpa [subLane_subPack _ _ h16] using key 0 hd
  · simpa [subLane_subPack _ _ h16] using key 1 hd
  · simpa [subLane_subPack _ _ h16] using key 2 hd
  · simpa [subLane_subPack _ _ h16] using key 3 (by omega)

@[simp] theorem VReg.length_lanes (v : VReg) (k : Nat) : (v.lanes k).length = k := by simp [VReg.lanes]

/-- The vector registers give back what is loaded into them (00_scope.md R15). -/
theorem VReg.lanes_load (v : VReg) (l : List Byte) (k : Nat) (hk : l.length = k) (hl : k ≤ 64) :
    (v.load l).lanes k = l := by
  subst hk
  apply List.ext_getElem
  · simp
  · intro i h1 h2
    simp only [VReg.lanes, List.getElem_map, List.getElem_range]
    rw [VReg.lane_load v l i h2 hl]
    simp [h2]

/-- The group register gives back a whole group. -/
@[simp] theorem Group.load_four (g : Group) (a b c d : Byte) :
    g.load [a, b, c, d] = { b0 := a, b1 := b, b2 := c, b3 := d } := rfl

@[simp] theorem Group.load_three (g : Group) (a b c : Byte) :
    g.load [a, b, c] = { b0 := a, b1 := b, b2 := c, b3 := g.b3 } := rfl

/-- The group register gives back a partial group. -/
theorem Group.bytes_load (g : Group) (l : List Byte) (h : l.length ≤ 4) : (g.load l).bytes l.length = l := by
  match l, h with
  | [], _ => rfl
  | [_], _ => rfl
  | [_, _], _ => rfl
  | [_, _, _], _ => rfl
  | [_, _, _, _], _ => rfl

@[simp] theorem length_vdup (k : Int) (n : Nat) : (vdup k n).length = n := by simp [vdup]
@[simp] theorem length_vadd (a b : List Byte) : (vadd a b).length = min a.length b.length := by simp [vadd]
@[simp] theorem length_vsub (a b : List Byte) : (vsub a b).length = min a.length b.length := by simp [vsub]
@[simp] theorem length_vqsub (a b : List Byte) : (vqsub a b).length = min a.length b.length := by simp [vqsub]
@[simp] theorem length_vcgt (a b : List Byte) : (vcgt a b).length = min a.length b.length := by simp [vcgt]
@[simp] theorem length_vcge (a b : List Byte) : (vcge a b).length = min a.length b.length := by simp [vcge]
@[simp] theorem length_vcle (a b : List Byte) : (vcle a b).length = min a.length b.length := by simp [vcle]
@[simp] theorem length_vceq (a b : List Byte) : (vceq a b).length = min a.length b.length := by simp [vceq]
@[simp] theorem length_vand (a b : List Byte) : (vand a b).length = min a.length b.length := by simp [vand]
@[simp] theorem length_vorr (a b : List Byte) : (vorr a b).length = min a.length b.length := by simp [vorr]
@[simp] theorem length_vbsl (m a b : List Byte) :
    (vbsl m a b).length = min (min m.length a.length) (min m.length b.length) := by simp [vbsl]
@[simp] theorem length_vshl (a : List Byte) (s : List Nat) : (vshl a s).length = min a.length s.length := by
  simp [vshl]
@[simp] theorem length_vshr (a : List Byte) (s : List Nat) : (vshr a s).length = min a.length s.length := by
  simp [vshr]
@[simp] theorem length_vperm (src : List Byte) (p : List (Option Nat)) : (vperm src p).length = p.length := by
  simp [vperm]

@[simp] theorem length_tableSub (impl : TblImpl) (t idx : List Byte) : (tableSub impl t idx).length = idx.length := by
  cases impl <;> simp [tableSub]

/-- Both builds of the table lookup give a lane per index. -/
theorem length_vtbl16 (impl : TblImpl) (t idx : List Byte) (h : idx.length ≤ 64) :
    (vtbl16 impl t idx).length = idx.length := by
  simp [vtbl16]; omega

theorem length_xlateEnc (impl : TblImpl) (v : List Byte) (h : v.length ≤ 64) :
    (xlateEnc impl v).length = v.length := by
  simp only [xlateEnc, length_vadd]
  rw [length_vtbl16 _ _ _ (by simpa using h)]
  simp

theorem length_reshufEnc (x : List Byte) : (reshufEnc x).length = 4 * (x.length / 3) := by simp [reshufEnc]

theorem length_reshufDec (v : List Byte) : (reshufDec v).length = 3 * (v.length / 4) := by simp [reshufDec]

theorem length_scEncGroup (b0 b1 b2 : Byte) : (scEncGroup b0 b1 b2).length = 4 := rfl

/-- What a decoded group can be: three bytes, or one or two from a final group (44_scalar_fallback.md R125). -/
theorem scDecGroup_length {c0 c1 c2 c3 : Byte} {final : Bool} {o : List Byte}
    (h : scDecGroup c0 c1 c2 c3 final = some o) :
    1 ≤ o.length ∧ o.length ≤ 3 ∧ (final = false → o.length = 3) := by
  unfold scDecGroup at h
  split at h
  · cases h; simp [pack]
  · split at h
    · cases h; simp_all [pack]
    · cases h
  · split at h
    · cases h; simp_all [pack]
    · cases h
  · cases h

end Sys2Proof.Machine
end

