-- ==== Sys2Proof/Laws/Memory.lean ====
section
/-! SUPPORT. The laws of system memory: a read after a write, the canonical form, and whole ranges of bytes. -/

namespace Sys2Proof.Machine

@[simp] theorem Memory.read_nil (x : Nat) : Memory.read [] x = Memory.unlisted := rfl

/-! ### The canonical form -/

/-- A list that starts above an address, in canonical form. -/
theorem Memory.wf_cons (a : Nat) (b : Byte) (r : List Host.Cell) :
    Memory.wf ((a, b) :: r) = true ↔
      b ≠ Memory.unlisted ∧ (∀ c ∈ r, a < c.1) ∧ Memory.wf r = true := by
  simp [Memory.wf, and_assoc]

theorem Memory.wf_tail {c : Host.Cell} {r : List Host.Cell} (h : Memory.wf (c :: r) = true) :
    Memory.wf r = true := ((Memory.wf_cons c.1 c.2 r).mp h).2.2

/-- What a write can list: the address written, and what was listed. -/
theorem Memory.mem_write {m : List Host.Cell} {x : Nat} {b : Byte} {c : Host.Cell}
    (h : c ∈ Memory.write m x b) : c.1 = x ∨ c ∈ m := by
  induction m with
  | nil => grind [Memory.write, Memory.cons]
  | cons d r ih => obtain ⟨a, e⟩ := d; grind [Memory.write, Memory.cons]

/-- A write keeps the canonical form. -/
theorem Memory.wf_write {m : List Host.Cell} (x : Nat) (b : Byte) (h : Memory.wf m = true) :
    Memory.wf (Memory.write m x b) = true := by
  induction m with
  | nil => simp only [Memory.write, Memory.cons]; split <;> simp_all [Memory.wf]
  | cons d r ih =>
    obtain ⟨a, e⟩ := d
    obtain ⟨he, hlt, hr⟩ := (Memory.wf_cons a e r).mp h
    simp only [Memory.write]
    split
    · refine (Memory.wf_cons _ _ _).mpr ⟨he, fun c hc => ?_, ih hr⟩
      rcases Memory.mem_write hc with hx | hm
      · omega
      · exact hlt c hm
    · split
      · simp only [Memory.cons]
        split
        · exact hr
        · exact (Memory.wf_cons _ _ _).mpr ⟨‹_›, fun c hc => by have := hlt c hc; omega, hr⟩
      · simp only [Memory.cons]
        split
        · exact h
        · refine (Memory.wf_cons _ _ _).mpr ⟨‹_›, fun c hc => ?_, h⟩
          rcases List.mem_cons.mp hc with rfl | hm
          · simp only; omega
          · have := hlt c hm; omega

/-- A write keeps the listed addresses below the top. -/
theorem Memory.below_write {m : List Host.Cell} {top x : Nat} (b : Byte) (h : Memory.below top m = true)
    (hx : x < top) : Memory.below top (Memory.write m x b) = true := by
  simp only [Memory.below, List.all_eq_true, decide_eq_true_eq] at h ⊢
  intro c hc
  rcases Memory.mem_write hc with he | hm
  · omega
  · exact h c hm

/-! ### Reads -/

/-- Below every listed address, memory reads as unlisted. -/
theorem Memory.read_of_lt {m : List Host.Cell} {x : Nat} (h : ∀ c ∈ m, x < c.1) :
    Memory.read m x = Memory.unlisted := by
  cases m with
  | nil => rfl
  | cons d r =>
    obtain ⟨a, e⟩ := d
    have : x < a := h (a, e) (by simp)
    simp only [Memory.read]
    rw [if_neg (by omega), if_pos this]

/-- A read of a list in front of which nothing is listed up to x. -/
theorem Memory.read_cons (x y : Nat) (b : Byte) (r : List Host.Cell) (h : ∀ c ∈ r, x < c.1) :
    Memory.read (Memory.cons x b r) y = if y = x then b else Memory.read r y := by
  have hr : y ≤ x → Memory.read r y = Memory.unlisted := fun hy =>
    Memory.read_of_lt fun c hc => by have := h c hc; omega
  simp only [Memory.cons]
  split
  · subst ‹b = _›
    split
    · exact hr (by omega)
    · rfl
  · simp only [Memory.read]
    split
    · simp [‹x = y›]
    · rw [if_neg (show ¬y = x by omega)]
      split
      · exact (hr (by omega)).symm
      · rfl

/-- A read after a write: the byte written at its address, and what was there at every other (20_memory.md R45). -/
theorem Memory.read_write {m : List Host.Cell} (x y : Nat) (b : Byte) (h : Memory.wf m = true) :
    Memory.read (Memory.write m x b) y = if y = x then b else Memory.read m y := by
  induction m with
  | nil => simpa [Memory.write] using Memory.read_cons x y b [] (by simp)
  | cons d r ih =>
    obtain ⟨a, e⟩ := d
    obtain ⟨-, hlt, hr⟩ := (Memory.wf_cons a e r).mp h
    simp only [Memory.write]
    split
    · have := ih hr
      simp only [Memory.read]
      grind
    · split
      · subst ‹a = x›
        rw [Memory.read_cons a y b r hlt]
        have : y < a → Memory.read r y = Memory.unlisted := fun hy =>
          Memory.read_of_lt fun c hc => by have := hlt c hc; omega
        simp only [Memory.read]
        grind
      · exact Memory.read_cons x y b _ fun c hc => by
          rcases List.mem_cons.mp hc with rfl | hm
          · simp only; omega
          · have := hlt c hm; omega

/-! ### Ranges of bytes -/

theorem Memory.wf_writeBytes {m : List Host.Cell} (x : Nat) (l : List Byte) (h : Memory.wf m = true) :
    Memory.wf (Memory.writeBytes m x l) = true := by
  induction l generalizing m x with
  | nil => exact h
  | cons b r ih => exact ih _ (Memory.wf_write x b h)

theorem Memory.below_writeBytes {m : List Host.Cell} {top x : Nat} (l : List Byte)
    (h : Memory.below top m = true) (hx : x + l.length ≤ top) :
    Memory.below top (Memory.writeBytes m x l) = true := by
  induction l generalizing m x with
  | nil => exact h
  | cons b r ih =>
    simp only [List.length_cons] at hx
    exact ih (Memory.below_write b h (by omega)) (by omega)

/-- A read after a write of a range. -/
theorem Memory.read_writeBytes {m : List Host.Cell} (x y : Nat) (l : List Byte) (h : Memory.wf m = true) :
    Memory.read (Memory.writeBytes m x l) y =
      if x ≤ y ∧ y < x + l.length then l.getD (y - x) 0 else Memory.read m y := by
  induction l generalizing m x with
  | nil => simp [Memory.writeBytes]
  | cons b r ih =>
    simp only [Memory.writeBytes, List.length_cons]
    rw [ih (x + 1) (Memory.wf_write x b h), Memory.read_write x y b h]
    by_cases h1 : y = x
    · subst h1; simp
    · by_cases h2 : x + 1 ≤ y ∧ y < x + 1 + r.length
      · rw [if_pos h2, if_pos (by omega)]
        obtain ⟨k, rfl⟩ : ∃ k, y = x + 1 + k := ⟨y - (x + 1), by omega⟩
        rw [show x + 1 + k - (x + 1) = k by omega, show x + 1 + k - x = k + 1 by omega]
        simp
      · rw [if_neg h2, if_neg h1, if_neg (by omega)]

@[simp] theorem Memory.length_readBytes (m : List Host.Cell) (x n : Nat) :
    (Memory.readBytes m x n).length = n := by
  induction n generalizing x with
  | zero => rfl
  | succ n ih => simp [Memory.readBytes, ih]

theorem Memory.getElem?_readBytes (m : List Host.Cell) (x n i : Nat) :
    (Memory.readBytes m x n)[i]? = if i < n then some (Memory.read m (x + i)) else none := by
  induction n generalizing x i with
  | zero => simp [Memory.readBytes]
  | succ n ih =>
    cases i with
    | zero => simp [Memory.readBytes]
    | succ i =>
      simp only [Memory.readBytes, List.getElem?_cons_succ, ih]
      rw [show x + 1 + i = x + (i + 1) by omega]
      simp

/-- Reading two adjacent ranges is reading the one they make. -/
theorem Memory.readBytes_add (m : List Host.Cell) (x n k : Nat) :
    Memory.readBytes m x (n + k) = Memory.readBytes m x n ++ Memory.readBytes m (x + n) k := by
  induction n generalizing x with
  | zero => simp [Memory.readBytes]
  | succ n ih =>
    rw [show n + 1 + k = (n + k) + 1 by omega]
    simp only [Memory.readBytes, ih, List.cons_append]
    rw [show x + 1 + n = x + (n + 1) by omega]

/-- Writing two adjacent ranges is writing the one they make. -/
theorem Memory.writeBytes_append (m : List Host.Cell) (x : Nat) (l r : List Byte) :
    Memory.writeBytes m x (l ++ r) = Memory.writeBytes (Memory.writeBytes m x l) (x + l.length) r := by
  induction l generalizing m x with
  | nil => simp [Memory.writeBytes]
  | cons b l ih =>
    simp only [List.cons_append, Memory.writeBytes, ih, List.length_cons]
    rw [show x + 1 + l.length = x + (l.length + 1) by omega]

/-- Two memories that agree on a range read the same there. -/
theorem Memory.readBytes_congr {m m' : List Host.Cell} {x n : Nat}
    (h : ∀ a, x ≤ a → a < x + n → Memory.read m a = Memory.read m' a) :
    Memory.readBytes m x n = Memory.readBytes m' x n := by
  induction n generalizing x with
  | zero => rfl
  | succ n ih =>
    simp only [Memory.readBytes]
    rw [h x (by omega) (by omega), ih fun a h1 h2 => h a (by omega) (by omega)]

/-- A write outside a range does not change what the range reads. -/
theorem Memory.readBytes_writeBytes_disjoint {m : List Host.Cell} {x y n : Nat} {l : List Byte}
    (hm : Memory.wf m = true) (h : y + l.length ≤ x ∨ x + n ≤ y) :
    Memory.readBytes (Memory.writeBytes m y l) x n = Memory.readBytes m x n :=
  Memory.readBytes_congr fun a h1 h2 => by
    rw [Memory.read_writeBytes y a l hm, if_neg (by omega)]

/-- A range reads as what was written to it. -/
theorem Memory.readBytes_writeBytes_same {m : List Host.Cell} {x : Nat} {l : List Byte} (hm : Memory.wf m = true) :
    Memory.readBytes (Memory.writeBytes m x l) x l.length = l := by
  apply List.ext_getElem?
  intro i
  rw [Memory.getElem?_readBytes, Memory.read_writeBytes x (x + i) l hm]
  by_cases h : i < l.length
  · simp [h]
  · simp [h]

/-- Two canonical memories that read the same are the same list. -/
theorem Memory.ext_read {m m' : List Host.Cell} (h : Memory.wf m = true) (h' : Memory.wf m' = true)
    (he : ∀ a, Memory.read m a = Memory.read m' a) : m = m' := by
  induction m generalizing m' with
  | nil =>
    cases m' with
    | nil => rfl
    | cons d r =>
      obtain ⟨a, b⟩ := d
      exact absurd (by simpa [Memory.read] using (he a).symm) ((Memory.wf_cons a b r).mp h').1
  | cons d r ih =>
    obtain ⟨a, b⟩ := d
    obtain ⟨hb, hlt, hr⟩ := (Memory.wf_cons a b r).mp h
    cases m' with
    | nil => exact absurd (by simpa [Memory.read] using he a) hb
    | cons d' r' =>
      obtain ⟨a', b'⟩ := d'
      obtain ⟨hb', hlt', hr'⟩ := (Memory.wf_cons a' b' r').mp h'
      have h1 := he a
      have h2 := he a'
      simp only [Memory.read] at h1 h2
      have haa : a = a' := by grind
      subst haa
      have hbb : b = b' := by simpa using h1
      subst hbb
      congr 1
      refine ih hr hr' fun x => ?_
      have hx := he x
      simp only [Memory.read] at hx
      have e1 : x ≤ a → Memory.read r x = Memory.unlisted := fun hy =>
        Memory.read_of_lt fun c hc => by have := hlt c hc; omega
      have e2 : x ≤ a → Memory.read r' x = Memory.unlisted := fun hy =>
        Memory.read_of_lt fun c hc => by have := hlt' c hc; omega
      grind

end Sys2Proof.Machine
end

