-- ==== Sys2Proof/Laws/State.lean ====
section
/-! SUPPORT. One lemma per field per update of the state, so that no later proof unfolds a record update. -/

namespace Sys2Proof.Machine

/-! ### STATUS -/

@[simp] theorem Status.accept_busy (f : Status) : f.accept.busy = true := rfl
@[simp] theorem Status.accept_done (f : Status) : f.accept.done = false := rfl
@[simp] theorem Status.accept_overrun (f : Status) : f.accept.overrun = f.overrun := rfl
@[simp] theorem Status.accept_result (f : Status) : f.accept.result = .none := rfl
@[simp] theorem Status.finish_busy (f : Status) (c : ResultCode) : (f.finish c).busy = false := rfl
@[simp] theorem Status.finish_done (f : Status) (c : ResultCode) : (f.finish c).done = true := rfl
@[simp] theorem Status.finish_overrun (f : Status) (c : ResultCode) : (f.finish c).overrun = f.overrun := rfl
@[simp] theorem Status.finish_result (f : Status) (c : ResultCode) : (f.finish c).result = c := rfl
@[simp] theorem Status.overran_busy (f : Status) : f.overran.busy = f.busy := rfl
@[simp] theorem Status.overran_done (f : Status) : f.overran.done = f.done := rfl
@[simp] theorem Status.overran_overrun (f : Status) : f.overran.overrun = true := rfl
@[simp] theorem Status.overran_result (f : Status) : f.overran.result = f.result := rfl
@[simp] theorem Status.clear_busy (f : Status) (w : Word) : (f.clear w).busy = f.busy := rfl
@[simp] theorem Status.clear_done (f : Status) (w : Word) : (f.clear w).done = (f.done && !w.getLsbD 1) := rfl
@[simp] theorem Status.clear_overrun (f : Status) (w : Word) :
    (f.clear w).overrun = (f.overrun && !w.getLsbD 2) := rfl
@[simp] theorem Status.clear_result (f : Status) (w : Word) : (f.clear w).result = f.result := rfl

/-! ### accept -/

@[simp] theorem accept_params (w : Word) (s : State) : (accept w s).params = s.params := rfl
@[simp] theorem accept_mem (w : Word) (s : State) : (accept w s).mem = s.mem := rfl
@[simp] theorem accept_regions (w : Word) (s : State) : (accept w s).regions = s.regions := rfl
@[simp] theorem accept_inReset (w : Word) (s : State) : (accept w s).inReset = s.inReset := rfl
@[simp] theorem accept_draws (w : Word) (s : State) : (accept w s).draws = s.draws := rfl
@[simp] theorem accept_response (w : Word) (s : State) : (accept w s).response = s.response := rfl
@[simp] theorem accept_pace (w : Word) (s : State) : (accept w s).pace = s.pace := rfl
@[simp] theorem accept_inbox (w : Word) (s : State) : (accept w s).inbox = s.inbox := rfl
@[simp] theorem accept_raced (w : Word) (s : State) : (accept w s).raced = false := rfl
@[simp] theorem accept_eng_cmd (w : Word) (s : State) : (accept w s).eng.cmd = w := rfl
@[simp] theorem accept_eng_phase (w : Word) (s : State) : (accept w s).eng.phase = .check := rfl
@[simp] theorem accept_eng_src (w : Word) (s : State) :
    (accept w s).eng.src = narrow s.params s.regs.srcAddr.toNat := rfl
@[simp] theorem accept_eng_len (w : Word) (s : State) :
    (accept w s).eng.len = narrow s.params s.regs.srcLen.toNat := rfl
@[simp] theorem accept_eng_dst (w : Word) (s : State) :
    (accept w s).eng.dst = narrow s.params s.regs.dstAddr.toNat := rfl
@[simp] theorem accept_regs_status (w : Word) (s : State) : (accept w s).regs.status = s.regs.status.accept := rfl
@[simp] theorem accept_regs_resultCount (w : Word) (s : State) : (accept w s).regs.resultCount = 0 := rfl
@[simp] theorem accept_regs_resultStrides (w : Word) (s : State) : (accept w s).regs.resultStrides = 0 := rfl
@[simp] theorem accept_regs_srcAddr (w : Word) (s : State) : (accept w s).regs.srcAddr = s.regs.srcAddr := rfl
@[simp] theorem accept_regs_srcLen (w : Word) (s : State) : (accept w s).regs.srcLen = s.regs.srcLen := rfl
@[simp] theorem accept_regs_dstAddr (w : Word) (s : State) : (accept w s).regs.dstAddr = s.regs.dstAddr := rfl
@[simp] theorem accept_eng_rd (w : Word) (s : State) : (accept w s).eng.rd = s.eng.rd := rfl
@[simp] theorem accept_eng_wr (w : Word) (s : State) : (accept w s).eng.wr = s.eng.wr := rfl
@[simp] theorem accept_eng_ns (w : Word) (s : State) : (accept w s).eng.ns = s.eng.ns := rfl
@[simp] theorem accept_eng_pass (w : Word) (s : State) : (accept w s).eng.pass = s.eng.pass := rfl
@[simp] theorem accept_eng_q (w : Word) (s : State) : (accept w s).eng.q = s.eng.q := rfl
@[simp] theorem accept_eng_grp (w : Word) (s : State) : (accept w s).eng.grp = s.eng.grp := rfl

/-! ### overrun -/

@[simp] theorem overrun_params (s : State) : (overrun s).params = s.params := rfl
@[simp] theorem overrun_eng (s : State) : (overrun s).eng = s.eng := rfl
@[simp] theorem overrun_mem (s : State) : (overrun s).mem = s.mem := rfl
@[simp] theorem overrun_regions (s : State) : (overrun s).regions = s.regions := rfl
@[simp] theorem overrun_inReset (s : State) : (overrun s).inReset = s.inReset := rfl
@[simp] theorem overrun_raced (s : State) : (overrun s).raced = s.raced := rfl
@[simp] theorem overrun_draws (s : State) : (overrun s).draws = s.draws := rfl
@[simp] theorem overrun_response (s : State) : (overrun s).response = s.response := rfl
@[simp] theorem overrun_pace (s : State) : (overrun s).pace = s.pace := rfl
@[simp] theorem overrun_inbox (s : State) : (overrun s).inbox = s.inbox := rfl
@[simp] theorem overrun_regs_status (s : State) : (overrun s).regs.status = s.regs.status.overran := rfl
@[simp] theorem overrun_regs_srcAddr (s : State) : (overrun s).regs.srcAddr = s.regs.srcAddr := rfl
@[simp] theorem overrun_regs_srcLen (s : State) : (overrun s).regs.srcLen = s.regs.srcLen := rfl
@[simp] theorem overrun_regs_dstAddr (s : State) : (overrun s).regs.dstAddr = s.regs.dstAddr := rfl
@[simp] theorem overrun_regs_resultCount (s : State) : (overrun s).regs.resultCount = s.regs.resultCount := rfl
@[simp] theorem overrun_regs_resultStrides (s : State) : (overrun s).regs.resultStrides = s.regs.resultStrides := rfl

/-! ### complete -/

@[simp] theorem complete_params (c : ResultCode) (n k : Word) (s : State) : (complete c n k s).params = s.params := rfl
@[simp] theorem complete_mem (c : ResultCode) (n k : Word) (s : State) : (complete c n k s).mem = s.mem := rfl
@[simp] theorem complete_regions (c : ResultCode) (n k : Word) (s : State) :
    (complete c n k s).regions = s.regions := rfl
@[simp] theorem complete_inReset (c : ResultCode) (n k : Word) (s : State) :
    (complete c n k s).inReset = s.inReset := rfl
@[simp] theorem complete_draws (c : ResultCode) (n k : Word) (s : State) : (complete c n k s).draws = s.draws := rfl
@[simp] theorem complete_response (c : ResultCode) (n k : Word) (s : State) :
    (complete c n k s).response = s.response := rfl
@[simp] theorem complete_pace (c : ResultCode) (n k : Word) (s : State) : (complete c n k s).pace = s.pace := rfl
@[simp] theorem complete_inbox (c : ResultCode) (n k : Word) (s : State) : (complete c n k s).inbox = s.inbox := rfl
@[simp] theorem complete_raced (c : ResultCode) (n k : Word) (s : State) : (complete c n k s).raced = false := rfl
@[simp] theorem complete_eng_phase (c : ResultCode) (n k : Word) (s : State) :
    (complete c n k s).eng.phase = .idle := rfl
@[simp] theorem complete_regs_status (c : ResultCode) (n k : Word) (s : State) :
    (complete c n k s).regs.status = s.regs.status.finish c := rfl
@[simp] theorem complete_regs_resultCount (c : ResultCode) (n k : Word) (s : State) :
    (complete c n k s).regs.resultCount = n := rfl
@[simp] theorem complete_regs_resultStrides (c : ResultCode) (n k : Word) (s : State) :
    (complete c n k s).regs.resultStrides = k := rfl
@[simp] theorem complete_regs_srcAddr (c : ResultCode) (n k : Word) (s : State) :
    (complete c n k s).regs.srcAddr = s.regs.srcAddr := rfl
@[simp] theorem complete_regs_srcLen (c : ResultCode) (n k : Word) (s : State) :
    (complete c n k s).regs.srcLen = s.regs.srcLen := rfl
@[simp] theorem complete_regs_dstAddr (c : ResultCode) (n k : Word) (s : State) :
    (complete c n k s).regs.dstAddr = s.regs.dstAddr := rfl
@[simp] theorem complete_eng_cmd (c : ResultCode) (n k : Word) (s : State) :
    (complete c n k s).eng.cmd = s.eng.cmd := rfl
@[simp] theorem complete_eng_src (c : ResultCode) (n k : Word) (s : State) :
    (complete c n k s).eng.src = s.eng.src := rfl
@[simp] theorem complete_eng_len (c : ResultCode) (n k : Word) (s : State) :
    (complete c n k s).eng.len = s.eng.len := rfl
@[simp] theorem complete_eng_dst (c : ResultCode) (n k : Word) (s : State) :
    (complete c n k s).eng.dst = s.eng.dst := rfl
@[simp] theorem complete_eng_rd (c : ResultCode) (n k : Word) (s : State) : (complete c n k s).eng.rd = s.eng.rd := rfl
@[simp] theorem complete_eng_wr (c : ResultCode) (n k : Word) (s : State) : (complete c n k s).eng.wr = s.eng.wr := rfl
@[simp] theorem complete_eng_ns (c : ResultCode) (n k : Word) (s : State) : (complete c n k s).eng.ns = s.eng.ns := rfl
@[simp] theorem complete_eng_pass (c : ResultCode) (n k : Word) (s : State) :
    (complete c n k s).eng.pass = s.eng.pass := rfl
@[simp] theorem complete_eng_q (c : ResultCode) (n k : Word) (s : State) : (complete c n k s).eng.q = s.eng.q := rfl
@[simp] theorem complete_eng_grp (c : ResultCode) (n k : Word) (s : State) :
    (complete c n k s).eng.grp = s.eng.grp := rfl

/-! ### scrambleDest -/

@[simp] theorem scrambleDest_params (s : State) : (scrambleDest s).params = s.params := rfl
@[simp] theorem scrambleDest_regs (s : State) : (scrambleDest s).regs = s.regs := rfl
@[simp] theorem scrambleDest_eng (s : State) : (scrambleDest s).eng = s.eng := rfl
@[simp] theorem scrambleDest_regions (s : State) : (scrambleDest s).regions = s.regions := rfl
@[simp] theorem scrambleDest_inReset (s : State) : (scrambleDest s).inReset = s.inReset := rfl
@[simp] theorem scrambleDest_raced (s : State) : (scrambleDest s).raced = s.raced := rfl
@[simp] theorem scrambleDest_response (s : State) : (scrambleDest s).response = s.response := rfl
@[simp] theorem scrambleDest_pace (s : State) : (scrambleDest s).pace = s.pace := rfl
@[simp] theorem scrambleDest_inbox (s : State) : (scrambleDest s).inbox = s.inbox := rfl
@[simp] theorem scrambleDest_draws (s : State) : (scrambleDest s).draws = s.draws + 1 := rfl

/-! ### moveCursors -/

@[simp] theorem moveCursors_params (n k v : Nat) (s : State) : (moveCursors n k v s).params = s.params := rfl
@[simp] theorem moveCursors_regs (n k v : Nat) (s : State) : (moveCursors n k v s).regs = s.regs := rfl
@[simp] theorem moveCursors_mem (n k v : Nat) (s : State) : (moveCursors n k v s).mem = s.mem := rfl
@[simp] theorem moveCursors_regions (n k v : Nat) (s : State) : (moveCursors n k v s).regions = s.regions := rfl
@[simp] theorem moveCursors_inReset (n k v : Nat) (s : State) : (moveCursors n k v s).inReset = s.inReset := rfl
@[simp] theorem moveCursors_raced (n k v : Nat) (s : State) : (moveCursors n k v s).raced = s.raced := rfl
@[simp] theorem moveCursors_draws (n k v : Nat) (s : State) : (moveCursors n k v s).draws = s.draws := rfl
@[simp] theorem moveCursors_response (n k v : Nat) (s : State) : (moveCursors n k v s).response = s.response := rfl
@[simp] theorem moveCursors_pace (n k v : Nat) (s : State) : (moveCursors n k v s).pace = s.pace := rfl
@[simp] theorem moveCursors_inbox (n k v : Nat) (s : State) : (moveCursors n k v s).inbox = s.inbox := rfl
@[simp] theorem moveCursors_eng_rd (n k v : Nat) (s : State) :
    (moveCursors n k v s).eng.rd = narrow s.params (s.eng.rd.toNat + n) := rfl
@[simp] theorem moveCursors_eng_wr (n k v : Nat) (s : State) :
    (moveCursors n k v s).eng.wr = narrow s.params (s.eng.wr.toNat + k) := rfl
@[simp] theorem moveCursors_eng_ns (n k v : Nat) (s : State) :
    (moveCursors n k v s).eng.ns = narrow s.params (s.eng.ns.toNat + v) := rfl
@[simp] theorem moveCursors_eng_phase (n k v : Nat) (s : State) : (moveCursors n k v s).eng.phase = s.eng.phase := rfl
@[simp] theorem moveCursors_eng_cmd (n k v : Nat) (s : State) : (moveCursors n k v s).eng.cmd = s.eng.cmd := rfl
@[simp] theorem moveCursors_eng_src (n k v : Nat) (s : State) : (moveCursors n k v s).eng.src = s.eng.src := rfl
@[simp] theorem moveCursors_eng_len (n k v : Nat) (s : State) : (moveCursors n k v s).eng.len = s.eng.len := rfl
@[simp] theorem moveCursors_eng_dst (n k v : Nat) (s : State) : (moveCursors n k v s).eng.dst = s.eng.dst := rfl
@[simp] theorem moveCursors_eng_pass (n k v : Nat) (s : State) : (moveCursors n k v s).eng.pass = s.eng.pass := rfl
@[simp] theorem moveCursors_eng_q (n k v : Nat) (s : State) : (moveCursors n k v s).eng.q = s.eng.q := rfl
@[simp] theorem moveCursors_eng_grp (n k v : Nat) (s : State) : (moveCursors n k v s).eng.grp = s.eng.grp := rfl

/-! ### setPhase -/

@[simp] theorem setPhase_params (f : Phase) (s : State) : (setPhase f s).params = s.params := rfl
@[simp] theorem setPhase_regs (f : Phase) (s : State) : (setPhase f s).regs = s.regs := rfl
@[simp] theorem setPhase_mem (f : Phase) (s : State) : (setPhase f s).mem = s.mem := rfl
@[simp] theorem setPhase_regions (f : Phase) (s : State) : (setPhase f s).regions = s.regions := rfl
@[simp] theorem setPhase_inReset (f : Phase) (s : State) : (setPhase f s).inReset = s.inReset := rfl
@[simp] theorem setPhase_raced (f : Phase) (s : State) : (setPhase f s).raced = s.raced := rfl
@[simp] theorem setPhase_draws (f : Phase) (s : State) : (setPhase f s).draws = s.draws := rfl
@[simp] theorem setPhase_response (f : Phase) (s : State) : (setPhase f s).response = s.response := rfl
@[simp] theorem setPhase_pace (f : Phase) (s : State) : (setPhase f s).pace = s.pace := rfl
@[simp] theorem setPhase_inbox (f : Phase) (s : State) : (setPhase f s).inbox = s.inbox := rfl
@[simp] theorem setPhase_eng_phase (f : Phase) (s : State) : (setPhase f s).eng.phase = f := rfl
@[simp] theorem setPhase_eng_cmd (f : Phase) (s : State) : (setPhase f s).eng.cmd = s.eng.cmd := rfl
@[simp] theorem setPhase_eng_src (f : Phase) (s : State) : (setPhase f s).eng.src = s.eng.src := rfl
@[simp] theorem setPhase_eng_len (f : Phase) (s : State) : (setPhase f s).eng.len = s.eng.len := rfl
@[simp] theorem setPhase_eng_dst (f : Phase) (s : State) : (setPhase f s).eng.dst = s.eng.dst := rfl
@[simp] theorem setPhase_eng_rd (f : Phase) (s : State) : (setPhase f s).eng.rd = s.eng.rd := rfl
@[simp] theorem setPhase_eng_wr (f : Phase) (s : State) : (setPhase f s).eng.wr = s.eng.wr := rfl
@[simp] theorem setPhase_eng_ns (f : Phase) (s : State) : (setPhase f s).eng.ns = s.eng.ns := rfl
@[simp] theorem setPhase_eng_pass (f : Phase) (s : State) : (setPhase f s).eng.pass = s.eng.pass := rfl
@[simp] theorem setPhase_eng_q (f : Phase) (s : State) : (setPhase f s).eng.q = s.eng.q := rfl
@[simp] theorem setPhase_eng_grp (f : Phase) (s : State) : (setPhase f s).eng.grp = s.eng.grp := rfl

/-! ### setVReg -/

@[simp] theorem setVReg_params (q : VReg) (s : State) : (setVReg q s).params = s.params := rfl
@[simp] theorem setVReg_regs (q : VReg) (s : State) : (setVReg q s).regs = s.regs := rfl
@[simp] theorem setVReg_mem (q : VReg) (s : State) : (setVReg q s).mem = s.mem := rfl
@[simp] theorem setVReg_regions (q : VReg) (s : State) : (setVReg q s).regions = s.regions := rfl
@[simp] theorem setVReg_inReset (q : VReg) (s : State) : (setVReg q s).inReset = s.inReset := rfl
@[simp] theorem setVReg_raced (q : VReg) (s : State) : (setVReg q s).raced = s.raced := rfl
@[simp] theorem setVReg_draws (q : VReg) (s : State) : (setVReg q s).draws = s.draws := rfl
@[simp] theorem setVReg_response (q : VReg) (s : State) : (setVReg q s).response = s.response := rfl
@[simp] theorem setVReg_pace (q : VReg) (s : State) : (setVReg q s).pace = s.pace := rfl
@[simp] theorem setVReg_inbox (q : VReg) (s : State) : (setVReg q s).inbox = s.inbox := rfl
@[simp] theorem setVReg_eng_q (q : VReg) (s : State) : (setVReg q s).eng.q = q := rfl
@[simp] theorem setVReg_eng_phase (q : VReg) (s : State) : (setVReg q s).eng.phase = s.eng.phase := rfl
@[simp] theorem setVReg_eng_cmd (q : VReg) (s : State) : (setVReg q s).eng.cmd = s.eng.cmd := rfl
@[simp] theorem setVReg_eng_src (q : VReg) (s : State) : (setVReg q s).eng.src = s.eng.src := rfl
@[simp] theorem setVReg_eng_len (q : VReg) (s : State) : (setVReg q s).eng.len = s.eng.len := rfl
@[simp] theorem setVReg_eng_dst (q : VReg) (s : State) : (setVReg q s).eng.dst = s.eng.dst := rfl
@[simp] theorem setVReg_eng_rd (q : VReg) (s : State) : (setVReg q s).eng.rd = s.eng.rd := rfl
@[simp] theorem setVReg_eng_wr (q : VReg) (s : State) : (setVReg q s).eng.wr = s.eng.wr := rfl
@[simp] theorem setVReg_eng_ns (q : VReg) (s : State) : (setVReg q s).eng.ns = s.eng.ns := rfl
@[simp] theorem setVReg_eng_pass (q : VReg) (s : State) : (setVReg q s).eng.pass = s.eng.pass := rfl
@[simp] theorem setVReg_eng_grp (q : VReg) (s : State) : (setVReg q s).eng.grp = s.eng.grp := rfl

/-! ### loadGroup -/

@[simp] theorem loadGroup_params (l : List Byte) (s : State) : (loadGroup l s).params = s.params := rfl
@[simp] theorem loadGroup_regs (l : List Byte) (s : State) : (loadGroup l s).regs = s.regs := rfl
@[simp] theorem loadGroup_mem (l : List Byte) (s : State) : (loadGroup l s).mem = s.mem := rfl
@[simp] theorem loadGroup_regions (l : List Byte) (s : State) : (loadGroup l s).regions = s.regions := rfl
@[simp] theorem loadGroup_inReset (l : List Byte) (s : State) : (loadGroup l s).inReset = s.inReset := rfl
@[simp] theorem loadGroup_raced (l : List Byte) (s : State) : (loadGroup l s).raced = s.raced := rfl
@[simp] theorem loadGroup_draws (l : List Byte) (s : State) : (loadGroup l s).draws = s.draws := rfl
@[simp] theorem loadGroup_response (l : List Byte) (s : State) : (loadGroup l s).response = s.response := rfl
@[simp] theorem loadGroup_pace (l : List Byte) (s : State) : (loadGroup l s).pace = s.pace := rfl
@[simp] theorem loadGroup_inbox (l : List Byte) (s : State) : (loadGroup l s).inbox = s.inbox := rfl
@[simp] theorem loadGroup_eng_grp (l : List Byte) (s : State) : (loadGroup l s).eng.grp = s.eng.grp.load l := rfl
@[simp] theorem loadGroup_eng_phase (l : List Byte) (s : State) : (loadGroup l s).eng.phase = s.eng.phase := rfl
@[simp] theorem loadGroup_eng_cmd (l : List Byte) (s : State) : (loadGroup l s).eng.cmd = s.eng.cmd := rfl
@[simp] theorem loadGroup_eng_src (l : List Byte) (s : State) : (loadGroup l s).eng.src = s.eng.src := rfl
@[simp] theorem loadGroup_eng_len (l : List Byte) (s : State) : (loadGroup l s).eng.len = s.eng.len := rfl
@[simp] theorem loadGroup_eng_dst (l : List Byte) (s : State) : (loadGroup l s).eng.dst = s.eng.dst := rfl
@[simp] theorem loadGroup_eng_rd (l : List Byte) (s : State) : (loadGroup l s).eng.rd = s.eng.rd := rfl
@[simp] theorem loadGroup_eng_wr (l : List Byte) (s : State) : (loadGroup l s).eng.wr = s.eng.wr := rfl
@[simp] theorem loadGroup_eng_ns (l : List Byte) (s : State) : (loadGroup l s).eng.ns = s.eng.ns := rfl
@[simp] theorem loadGroup_eng_pass (l : List Byte) (s : State) : (loadGroup l s).eng.pass = s.eng.pass := rfl
@[simp] theorem loadGroup_eng_q (l : List Byte) (s : State) : (loadGroup l s).eng.q = s.eng.q := rfl

/-! ### startLoop -/

@[simp] theorem startLoop_params (p : Pass) (f : Phase) (s : State) : (startLoop p f s).params = s.params := rfl
@[simp] theorem startLoop_regs (p : Pass) (f : Phase) (s : State) : (startLoop p f s).regs = s.regs := rfl
@[simp] theorem startLoop_mem (p : Pass) (f : Phase) (s : State) : (startLoop p f s).mem = s.mem := rfl
@[simp] theorem startLoop_regions (p : Pass) (f : Phase) (s : State) : (startLoop p f s).regions = s.regions := rfl
@[simp] theorem startLoop_inReset (p : Pass) (f : Phase) (s : State) : (startLoop p f s).inReset = s.inReset := rfl
@[simp] theorem startLoop_raced (p : Pass) (f : Phase) (s : State) : (startLoop p f s).raced = s.raced := rfl
@[simp] theorem startLoop_draws (p : Pass) (f : Phase) (s : State) : (startLoop p f s).draws = s.draws := rfl
@[simp] theorem startLoop_response (p : Pass) (f : Phase) (s : State) : (startLoop p f s).response = s.response := rfl
@[simp] theorem startLoop_pace (p : Pass) (f : Phase) (s : State) : (startLoop p f s).pace = s.pace := rfl
@[simp] theorem startLoop_inbox (p : Pass) (f : Phase) (s : State) : (startLoop p f s).inbox = s.inbox := rfl
@[simp] theorem startLoop_eng_phase (p : Pass) (f : Phase) (s : State) : (startLoop p f s).eng.phase = f := rfl
@[simp] theorem startLoop_eng_pass (p : Pass) (f : Phase) (s : State) : (startLoop p f s).eng.pass = p := rfl
@[simp] theorem startLoop_eng_rd (p : Pass) (f : Phase) (s : State) : (startLoop p f s).eng.rd = 0 := rfl
@[simp] theorem startLoop_eng_wr (p : Pass) (f : Phase) (s : State) : (startLoop p f s).eng.wr = 0 := rfl
@[simp] theorem startLoop_eng_ns (p : Pass) (f : Phase) (s : State) : (startLoop p f s).eng.ns = 0 := rfl
@[simp] theorem startLoop_eng_cmd (p : Pass) (f : Phase) (s : State) : (startLoop p f s).eng.cmd = s.eng.cmd := rfl
@[simp] theorem startLoop_eng_src (p : Pass) (f : Phase) (s : State) : (startLoop p f s).eng.src = s.eng.src := rfl
@[simp] theorem startLoop_eng_len (p : Pass) (f : Phase) (s : State) : (startLoop p f s).eng.len = s.eng.len := rfl
@[simp] theorem startLoop_eng_dst (p : Pass) (f : Phase) (s : State) : (startLoop p f s).eng.dst = s.eng.dst := rfl
@[simp] theorem startLoop_eng_q (p : Pass) (f : Phase) (s : State) : (startLoop p f s).eng.q = s.eng.q := rfl
@[simp] theorem startLoop_eng_grp (p : Pass) (f : Phase) (s : State) : (startLoop p f s).eng.grp = s.eng.grp := rfl

/-! ### takeTurn -/

@[simp] theorem takeTurn_params (p : Pace) (l : List Turn) (s : State) : (takeTurn p l s).params = s.params := rfl
@[simp] theorem takeTurn_regs (p : Pace) (l : List Turn) (s : State) : (takeTurn p l s).regs = s.regs := rfl
@[simp] theorem takeTurn_eng (p : Pace) (l : List Turn) (s : State) : (takeTurn p l s).eng = s.eng := rfl
@[simp] theorem takeTurn_mem (p : Pace) (l : List Turn) (s : State) : (takeTurn p l s).mem = s.mem := rfl
@[simp] theorem takeTurn_regions (p : Pace) (l : List Turn) (s : State) : (takeTurn p l s).regions = s.regions := rfl
@[simp] theorem takeTurn_inReset (p : Pace) (l : List Turn) (s : State) : (takeTurn p l s).inReset = s.inReset := rfl
@[simp] theorem takeTurn_raced (p : Pace) (l : List Turn) (s : State) : (takeTurn p l s).raced = s.raced := rfl
@[simp] theorem takeTurn_draws (p : Pace) (l : List Turn) (s : State) : (takeTurn p l s).draws = s.draws := rfl
@[simp] theorem takeTurn_pace (p : Pace) (l : List Turn) (s : State) : (takeTurn p l s).pace = p := rfl
@[simp] theorem takeTurn_inbox (p : Pace) (l : List Turn) (s : State) : (takeTurn p l s).inbox = l := rfl
@[simp] theorem takeTurn_response (p : Pace) (l : List Turn) (s : State) : (takeTurn p l s).response = none := rfl

/-! ### startCommand, busTick, writeReg, resetBlock -/

@[simp] theorem startCommand_regs (s : State) : (startCommand s).regs = s.regs := by
  unfold startCommand; split <;> rfl
@[simp] theorem startCommand_params (s : State) : (startCommand s).params = s.params := by
  unfold startCommand; split <;> rfl
@[simp] theorem startCommand_mem (s : State) : (startCommand s).mem = s.mem := by
  unfold startCommand; split <;> rfl
@[simp] theorem startCommand_regions (s : State) : (startCommand s).regions = s.regions := by
  unfold startCommand; split <;> rfl
@[simp] theorem startCommand_inReset (s : State) : (startCommand s).inReset = s.inReset := by
  unfold startCommand; split <;> rfl
@[simp] theorem startCommand_raced (s : State) : (startCommand s).raced = s.raced := by
  unfold startCommand; split <;> rfl
@[simp] theorem startCommand_draws (s : State) : (startCommand s).draws = s.draws := by
  unfold startCommand; split <;> rfl
@[simp] theorem startCommand_response (s : State) : (startCommand s).response = s.response := by
  unfold startCommand; split <;> rfl
@[simp] theorem startCommand_pace (s : State) : (startCommand s).pace = s.pace := by
  unfold startCommand; split <;> rfl
@[simp] theorem startCommand_inbox (s : State) : (startCommand s).inbox = s.inbox := by
  unfold startCommand; split <;> rfl

@[simp] theorem busTick_params (s : State) (lo n : Nat) : (s.busTick lo n).params = s.params := by
  unfold State.busTick; split <;> rfl
@[simp] theorem busTick_regs (s : State) (lo n : Nat) : (s.busTick lo n).regs = s.regs := by
  unfold State.busTick; split <;> rfl
@[simp] theorem busTick_eng (s : State) (lo n : Nat) : (s.busTick lo n).eng = s.eng := by
  unfold State.busTick; split <;> rfl
@[simp] theorem busTick_mem (s : State) (lo n : Nat) : (s.busTick lo n).mem = s.mem := by
  unfold State.busTick; split <;> rfl
@[simp] theorem busTick_regions (s : State) (lo n : Nat) : (s.busTick lo n).regions = s.regions := by
  unfold State.busTick; split <;> rfl
@[simp] theorem busTick_inReset (s : State) (lo n : Nat) : (s.busTick lo n).inReset = s.inReset := by
  unfold State.busTick; split <;> rfl
@[simp] theorem busTick_raced (s : State) (lo n : Nat) : (s.busTick lo n).raced = s.raced := by
  unfold State.busTick; split <;> rfl
@[simp] theorem busTick_response (s : State) (lo n : Nat) : (s.busTick lo n).response = s.response := by
  unfold State.busTick; split <;> rfl
@[simp] theorem busTick_pace (s : State) (lo n : Nat) : (s.busTick lo n).pace = s.pace := by
  unfold State.busTick; split <;> rfl
@[simp] theorem busTick_inbox (s : State) (lo n : Nat) : (s.busTick lo n).inbox = s.inbox := by
  unfold State.busTick; split <;> rfl

@[simp] theorem writeReg_params (r : RegName) (w : Word) (s : State) : (writeReg r w s).params = s.params := by
  cases r <;> rfl
@[simp] theorem writeReg_eng (r : RegName) (w : Word) (s : State) : (writeReg r w s).eng = s.eng := by
  cases r <;> rfl
@[simp] theorem writeReg_mem (r : RegName) (w : Word) (s : State) : (writeReg r w s).mem = s.mem := by
  cases r <;> rfl
@[simp] theorem writeReg_regions (r : RegName) (w : Word) (s : State) : (writeReg r w s).regions = s.regions := by
  cases r <;> rfl
@[simp] theorem writeReg_inReset (r : RegName) (w : Word) (s : State) : (writeReg r w s).inReset = s.inReset := by
  cases r <;> rfl
@[simp] theorem writeReg_raced (r : RegName) (w : Word) (s : State) : (writeReg r w s).raced = s.raced := by
  cases r <;> rfl
@[simp] theorem writeReg_draws (r : RegName) (w : Word) (s : State) : (writeReg r w s).draws = s.draws := by
  cases r <;> rfl
@[simp] theorem writeReg_response (r : RegName) (w : Word) (s : State) : (writeReg r w s).response = s.response := by
  cases r <;> rfl
@[simp] theorem writeReg_pace (r : RegName) (w : Word) (s : State) : (writeReg r w s).pace = s.pace := by
  cases r <;> rfl
@[simp] theorem writeReg_inbox (r : RegName) (w : Word) (s : State) : (writeReg r w s).inbox = s.inbox := by
  cases r <;> rfl
@[simp] theorem writeReg_busy (r : RegName) (w : Word) (s : State) :
    (writeReg r w s).regs.status.busy = s.regs.status.busy := by
  cases r <;> rfl
@[simp] theorem writeReg_result (r : RegName) (w : Word) (s : State) :
    (writeReg r w s).regs.status.result = s.regs.status.result := by
  cases r <;> rfl
@[simp] theorem writeReg_resultCount (r : RegName) (w : Word) (s : State) :
    (writeReg r w s).regs.resultCount = s.regs.resultCount := by
  cases r <;> rfl
@[simp] theorem writeReg_resultStrides (r : RegName) (w : Word) (s : State) :
    (writeReg r w s).regs.resultStrides = s.regs.resultStrides := by
  cases r <;> rfl

@[simp] theorem resetBlock_regs (s : State) : (resetBlock s).regs = .reset := rfl
@[simp] theorem resetBlock_eng (s : State) : (resetBlock s).eng = .reset := rfl
@[simp] theorem resetBlock_raced (s : State) : (resetBlock s).raced = false := rfl
@[simp] theorem resetBlock_inReset (s : State) : (resetBlock s).inReset = true := rfl
@[simp] theorem resetBlock_params (s : State) : (resetBlock s).params = s.params := by
  unfold resetBlock; dsimp only; split <;> rfl
@[simp] theorem resetBlock_regions (s : State) : (resetBlock s).regions = s.regions := by
  unfold resetBlock; dsimp only; split <;> rfl
@[simp] theorem resetBlock_response (s : State) : (resetBlock s).response = s.response := by
  unfold resetBlock; dsimp only; split <;> rfl
@[simp] theorem resetBlock_pace (s : State) : (resetBlock s).pace = s.pace := by
  unfold resetBlock; dsimp only; split <;> rfl
@[simp] theorem resetBlock_inbox (s : State) : (resetBlock s).inbox = s.inbox := by
  unfold resetBlock; dsimp only; split <;> rfl

end Sys2Proof.Machine
end

