-- ==== Sys2Proof/Laws/Bus.lean ====
section
/-! SUPPORT. What the bus operations and the completion of a command can do: numbers of AW bits, MemRead, MemWrite, finish. -/

namespace Sys2Proof.Machine

/-! ### Numbers of AW bits -/

/-- A legal AW is at most the 64 bits of a register. -/
theorem space_le {p : Params} (h : p.wf = true) : p.space ≤ 2 ^ 64 := by
  have : p.aw ≤ 64 := by simp [Params.wf] at h; omega
  exact Nat.pow_le_pow_right (by omega) this

theorem space_pos (p : Params) : 0 < p.space := Nat.pow_pos (by omega)

/-- A narrowed number that fits is the number. -/
theorem narrow_toNat {p : Params} {n : Nat} (h : p.wf = true) (hn : n < p.space) : (narrow p n).toNat = n := by
  have := space_le h
  simp only [narrow, BitVec.toNat_ofNat, Nat.mod_eq_of_lt hn]
  exact Nat.mod_eq_of_lt (by omega)

/-- A narrowed number fits. -/
theorem narrow_fits (p : Params) (n : Nat) : p.fits (narrow p n) := by
  have h1 : (narrow p n).toNat ≤ n % p.space := by
    simp only [narrow, BitVec.toNat_ofNat]
    exact Nat.mod_le _ _
  have h2 := Nat.mod_lt n (space_pos p)
  exact Nat.lt_of_le_of_lt h1 h2

/-- A register that fits is unchanged by narrowing. -/
theorem narrow_self {p : Params} {w : Word} (h : p.wf = true) (hw : p.fits w) : narrow p w.toNat = w :=
  BitVec.eq_of_toNat_eq (narrow_toNat h hw)

theorem zero_fits (p : Params) : p.fits 0 := by simpa using space_pos p

theorem outmax_encode (n : Nat) : outmax 1 n = 4 * ((n + 2) / 3) := by simp [outmax]

theorem outmax_decode (n : Nat) : outmax 2 n = 3 * (n / 4) := by simp [outmax]

/-! ### The platform -/

/-- A range the platform admits has no bus error. -/
theorem busFails_of_admits {s : State} {lo n : Nat} (h : s.admits lo n = true) : s.busFails lo n = false := by
  simp_all [State.admits, State.busFails]

/-- An access of a range the platform admits draws no free value. -/
theorem busTick_of_admits {s : State} {lo n : Nat} (h : s.admits lo n = true) : s.busTick lo n = s := by
  simp_all [State.admits, State.busTick]

/-- A part of a range that touches nothing touches nothing. -/
theorem rangesOverlap_of_subrange {lo n lo' n' b m : Nat} (h : rangesOverlap lo n b m = false) (h1 : lo ≤ lo')
    (h2 : lo' + n' ≤ lo + n) : rangesOverlap lo' n' b m = false := by
  simp only [rangesOverlap, Bool.and_eq_false_iff, decide_eq_false_iff_not] at h ⊢
  omega

theorem touches_of_subrange {s : State} {k : RegionKind} {lo n lo' n' : Nat} (h : s.touches k lo n = false)
    (h1 : lo ≤ lo') (h2 : lo' + n' ≤ lo + n) : s.touches k lo' n' = false := by
  simp only [State.touches, List.any_eq_false, Bool.and_eq_true, not_and, Bool.not_eq_true] at h ⊢
  exact fun r hr hk => rangesOverlap_of_subrange (h r hr hk) h1 h2

/-- A part of a range the platform admits is admitted. -/
theorem admits_of_subrange {s : State} {lo n lo' n' : Nat} (h : s.admits lo n = true)
    (h1 : lo ≤ lo') (h2 : lo' + n' ≤ lo + n) : s.admits lo' n' = true := by
  simp only [State.admits, State.touchesDevice, Bool.and_eq_true, Bool.not_eq_true', Bool.or_eq_false_iff] at h ⊢
  exact ⟨⟨touches_of_subrange h.1.1 h1 h2, touches_of_subrange h.1.2 h1 h2⟩,
    touches_of_subrange h.2.1 h1 h2, rangesOverlap_of_subrange h.2.2 h1 h2⟩

/-- Admission depends on the platform and the build alone. -/
theorem admits_congr {s t : State} {lo n : Nat} (h1 : t.regions = s.regions) (h2 : t.params = s.params) :
    t.admits lo n = s.admits lo n := by
  simp [State.admits, State.touches, State.touchesDevice, h1, h2]

/-! ### MemRead and MemWrite -/

/-- What MemRead can do: fault past the top, complete the command BUS_ERR, or go on with the bytes. -/
theorem memRead_cases (lo n : Nat) (s : State) (k : List Byte → State → Host.Outcome State Fault Refusal) :
    (s.params.space < lo + n ∧ memRead lo n s k = .fault .outsideSpace) ∨
    (lo + n ≤ s.params.space ∧ s.busFails lo n = true ∧
      memRead lo n s k = .next (finishBusErr (s.busTick lo n))) ∨
    (lo + n ≤ s.params.space ∧ s.busFails lo n = false ∧
      memRead lo n s k = k (Memory.readBytes s.mem lo n) (s.busTick lo n)) := by
  unfold memRead
  by_cases h1 : s.params.space < lo + n
  · simp [h1]
  · have h1' : lo + n ≤ s.params.space := Nat.le_of_not_lt h1
    cases h2 : s.busFails lo n <;> simp [h1, h1']

/-- What MemWrite can do: fault past the top, complete the command BUS_ERR, or go on with the bytes written. -/
theorem memWrite_cases (lo : Nat) (l : List Byte) (s : State) (k : State → Host.Outcome State Fault Refusal) :
    (s.params.space < lo + l.length ∧ memWrite lo l s k = .fault .outsideSpace) ∨
    (lo + l.length ≤ s.params.space ∧ s.busFails lo l.length = true ∧
      memWrite lo l s k = .next (finishBusErr (s.busTick lo l.length))) ∨
    (lo + l.length ≤ s.params.space ∧ s.busFails lo l.length = false ∧
      memWrite lo l s k = k { s.busTick lo l.length with mem := Memory.writeBytes s.mem lo l }) := by
  unfold memWrite
  by_cases h1 : s.params.space < lo + l.length
  · simp [h1]
  · have h1' : lo + l.length ≤ s.params.space := Nat.le_of_not_lt h1
    cases h2 : s.busFails lo l.length <;> simp [h1, h1']

/-- MemRead of a range that exists and that the platform admits. -/
theorem memRead_admitted {lo n : Nat} {s : State} (k : List Byte → State → Host.Outcome State Fault Refusal)
    (h1 : lo + n ≤ s.params.space) (h2 : s.admits lo n = true) :
    memRead lo n s k = k (Memory.readBytes s.mem lo n) s := by
  rcases memRead_cases lo n s k with ⟨h, -⟩ | ⟨-, h, -⟩ | ⟨-, -, h⟩
  · omega
  · simp [busFails_of_admits h2] at h
  · rw [h, busTick_of_admits h2]

/-- MemWrite of a range that exists and that the platform admits. -/
theorem memWrite_admitted {lo : Nat} {l : List Byte} {s : State} (k : State → Host.Outcome State Fault Refusal)
    (h1 : lo + l.length ≤ s.params.space) (h2 : s.admits lo l.length = true) :
    memWrite lo l s k = k { s with mem := Memory.writeBytes s.mem lo l } := by
  rcases memWrite_cases lo l s k with ⟨h, -⟩ | ⟨-, h, -⟩ | ⟨-, -, h⟩
  · omega
  · simp [busFails_of_admits h2] at h
  · rw [h, busTick_of_admits h2]

/-! ### finish -/

/-- finish of a command no host raced with (41_loop_driver.md R85). -/
theorem finish_of_not_raced {s : State} (c : ResultCode) (h : s.raced = false) :
    finish c s = complete c (if c = .ok then s.eng.wr else 0) (if c = .ok then s.eng.ns else 0) s := by
  simp [finish, h]

/-- What finish keeps, whatever the code and whether or not a host raced with the command. -/
theorem finish_keeps (c : ResultCode) (s : State) :
    (finish c s).params = s.params ∧ (finish c s).regions = s.regions ∧ (finish c s).inReset = s.inReset ∧
    (finish c s).response = s.response ∧ (finish c s).pace = s.pace ∧ (finish c s).inbox = s.inbox ∧
    (finish c s).regs.srcAddr = s.regs.srcAddr ∧ (finish c s).regs.srcLen = s.regs.srcLen ∧
    (finish c s).regs.dstAddr = s.regs.dstAddr ∧
    (finish c s).regs.status.overrun = s.regs.status.overrun ∧
    (finish c s).eng.cmd = s.eng.cmd ∧ (finish c s).eng.src = s.eng.src ∧
    (finish c s).eng.len = s.eng.len ∧ (finish c s).eng.dst = s.eng.dst := by
  unfold finish completeRaced
  split <;> simp

/-- finish ends the command: the block is IDLE and not BUSY, DONE is set, and no race is left. -/
theorem finish_ends (c : ResultCode) (s : State) :
    (finish c s).eng.phase = .idle ∧ (finish c s).regs.status.busy = false ∧
    (finish c s).regs.status.done = true ∧ (finish c s).raced = false := by
  unfold finish completeRaced
  split <;> simp

/-- The memory after a scramble: unchanged outside the destination range, in the source and past the top; any value elsewhere. -/
theorem read_scrambleDest {s : State} (h : Memory.wf s.mem = true) (a : Nat) :
    Memory.read (scrambleDest s).mem a =
      if s.inDest a = true ∧ a < s.params.space ∧ s.inSource a = false then Config.freeByte s.draws a
      else Memory.read s.mem a := by
  have hd : s.inDest a = true ↔ s.eng.dst.toNat ≤ a ∧ a < s.eng.dst.toNat + s.dstSize := by simp [State.inDest]
  simp only [scrambleDest]
  rw [Memory.read_writeBytes _ _ _ h]
  simp only [List.length_map, List.length_range, hd]
  by_cases hr : s.eng.dst.toNat ≤ a ∧ a < s.eng.dst.toNat + s.dstSize
  · have hlt : a - s.eng.dst.toNat < s.dstSize := by omega
    have hv : s.eng.dst.toNat + (a - s.eng.dst.toNat) = a := by omega
    simp [hr, List.getD_eq_getElem?_getD, hlt, hv, State.scrambledByte]
  · rw [if_neg hr]
    simp [hr]

theorem wf_scrambleDest {s : State} (h : Memory.wf s.mem = true) : Memory.wf (scrambleDest s).mem = true :=
  Memory.wf_writeBytes _ _ h

/-- A canonical memory whose addresses past the top read as unlisted lists none of them. -/
theorem below_of_read {m : List Host.Cell} {top : Nat} (h : Memory.wf m = true)
    (hr : ∀ a, top ≤ a → Memory.read m a = Memory.unlisted) : Memory.below top m = true := by
  simp only [Memory.below, List.all_eq_true, decide_eq_true_eq]
  induction m with
  | nil => simp
  | cons d r ih =>
    obtain ⟨a, b⟩ := d
    obtain ⟨hb, hlt, hw⟩ := (Memory.wf_cons a b r).mp h
    have ha : a < top := by
      by_contra hge
      exact hb (by simpa [Memory.read] using hr a (by omega))
    intro c hc
    rcases List.mem_cons.mp hc with rfl | hm
    · exact ha
    · refine ih hw (fun x hx => ?_) c hm
      have := hr x hx
      simp only [Memory.read] at this
      rwa [if_neg (by omega), if_neg (by omega)] at this

theorem read_of_below {m : List Host.Cell} {top a : Nat} (h : Memory.below top m = true) (ha : top ≤ a) :
    Memory.read m a = Memory.unlisted := by
  simp only [Memory.below, List.all_eq_true, decide_eq_true_eq] at h
  induction m with
  | nil => rfl
  | cons d r ih =>
    obtain ⟨x, b⟩ := d
    have hx : x < top := h (x, b) (by simp)
    simp only [Memory.read]
    rw [if_neg (by omega), if_neg (by omega)]
    exact ih fun c hc => h c (List.mem_cons_of_mem _ hc)

theorem below_scrambleDest {s : State} (h : Memory.wf s.mem = true) (hb : Memory.below s.params.space s.mem = true) :
    Memory.below s.params.space (scrambleDest s).mem = true := by
  refine below_of_read (wf_scrambleDest h) fun a ha => ?_
  rw [read_scrambleDest h, if_neg (by omega)]
  exact read_of_below hb ha

end Sys2Proof.Machine
end

