-- ==== Sys2Proof/Laws/Engine.lean ====
section
/-! SUPPORT. What an engine step can do, and that it keeps the invariant and never faults (41_loop_driver.md R95). -/

namespace Sys2Proof.Machine

/-- What holds of the state at every point inside an engine step: the part of the invariant that speaks of no phase. -/
structure Sound (s : State) : Prop where
  params : s.params.wf = true
  memWf : Memory.wf s.mem = true
  memBelow : Memory.below s.params.space s.mem = true
  operandsFit : s.params.fits s.regs.srcAddr ∧ s.params.fits s.regs.srcLen ∧ s.params.fits s.regs.dstAddr
  latchedFit : s.params.fits s.eng.src ∧ s.params.fits s.eng.len ∧ s.params.fits s.eng.dst
  cursorsFit : s.params.fits s.eng.rd ∧ s.params.fits s.eng.wr ∧ s.params.fits s.eng.ns
  released : s.inReset = false

/-- The part of the invariant that a running command keeps in the registers. -/
structure Running (s : State) : Prop where
  busy : s.regs.status.busy = true
  done : s.regs.status.done = false
  result : s.regs.status.result = .none
  count : s.regs.resultCount = 0
  strides : s.regs.resultStrides = 0
  released : s.inReset = false

/-- An outcome that is no fault, and whose next state meets the invariant. -/
def Good : Host.Outcome State Fault Refusal → Prop
  | .next t => Inv t
  | .fault _ => False
  | .refused _ => True

theorem Inv.released {s : State} (h : Inv s) (hp : s.eng.phase ≠ .idle) : s.inReset = false := by
  have := h.resetStopsEngine
  cases hr : s.inReset <;> simp_all

theorem Inv.sound {s : State} (h : Inv s) (hp : s.eng.phase ≠ .idle) : Sound s :=
  ⟨h.params, h.memWf, h.memBelow, h.operandsFit, h.latchedFit, h.cursorsFit, h.released hp⟩

theorem Inv.running {s : State} (h : Inv s) (hp : s.eng.phase ≠ .idle) : Running s := by
  have hb := h.busyIff.mpr hp
  have hh := h.busyHidesResults hb
  refine ⟨hb, ?_, hh.1, hh.2.1, hh.2.2, h.released hp⟩
  have := h.notBusyAndDone; simp_all

/-- A running command's state meets the invariant when its parts do. -/
theorem Inv.of_running {s : State} (h : Sound s) (hr : Running s) (hp : s.eng.phase ≠ .idle) (hc : CursorInv s) :
    Inv s where
  params := h.params
  memWf := h.memWf
  memBelow := h.memBelow
  operandsFit := h.operandsFit
  resultsFit := by rw [hr.count, hr.strides]; exact ⟨zero_fits _, zero_fits _⟩
  latchedFit := h.latchedFit
  cursorsFit := h.cursorsFit
  busyIff := ⟨fun _ => hp, fun _ => hr.busy⟩
  notBusyAndDone := by simp [hr.done]
  busyHidesResults := fun _ => ⟨hr.result, hr.count, hr.strides⟩
  resetStopsEngine := by simp [hr.released]
  resetHolds := by simp [hr.released]
  cursors := hc

/-! ### The parts are kept by the operations -/

theorem Sound.of_eq {s t : State} (h : Sound s) (h1 : t.params = s.params) (h2 : t.mem = s.mem)
    (h3 : t.regs = s.regs) (h4 : t.eng = s.eng) (h5 : t.inReset = s.inReset) : Sound t := by
  constructor <;> simp only [h1, h2, h3, h4, h5]
  exacts [h.params, h.memWf, h.memBelow, h.operandsFit, h.latchedFit, h.cursorsFit, h.released]

theorem Sound.busTick {s : State} (h : Sound s) (lo n : Nat) : Sound (s.busTick lo n) :=
  h.of_eq (by simp) (by simp) (by simp) (by simp) (by simp)

theorem Running.of_eq {s t : State} (h : Running s) (h1 : t.regs = s.regs) (h2 : t.inReset = s.inReset) : Running t := by
  constructor <;> simp only [h1, h2]
  exacts [h.busy, h.done, h.result, h.count, h.strides, h.released]

theorem Sound.scrambleDest {s : State} (h : Sound s) : Sound (scrambleDest s) where
  params := h.params
  memWf := wf_scrambleDest h.memWf
  memBelow := below_scrambleDest h.memWf h.memBelow
  operandsFit := h.operandsFit
  latchedFit := h.latchedFit
  cursorsFit := h.cursorsFit
  released := h.released

theorem Sound.complete {s : State} (h : Sound s) (c : ResultCode) (n k : Word) : Sound (complete c n k s) :=
  ⟨h.params, h.memWf, h.memBelow, h.operandsFit, h.latchedFit, h.cursorsFit, h.released⟩

theorem Sound.moveCursors {s : State} (h : Sound s) (n k v : Nat) : Sound (moveCursors n k v s) :=
  ⟨h.params, h.memWf, h.memBelow, h.operandsFit, h.latchedFit, ⟨narrow_fits _ _, narrow_fits _ _, narrow_fits _ _⟩, h.released⟩

theorem Sound.setPhase {s : State} (h : Sound s) (f : Phase) : Sound (setPhase f s) :=
  ⟨h.params, h.memWf, h.memBelow, h.operandsFit, h.latchedFit, h.cursorsFit, h.released⟩

theorem Sound.setVReg {s : State} (h : Sound s) (q : VReg) : Sound (setVReg q s) :=
  ⟨h.params, h.memWf, h.memBelow, h.operandsFit, h.latchedFit, h.cursorsFit, h.released⟩

theorem Sound.loadGroup {s : State} (h : Sound s) (l : List Byte) : Sound (loadGroup l s) :=
  ⟨h.params, h.memWf, h.memBelow, h.operandsFit, h.latchedFit, h.cursorsFit, h.released⟩

theorem Sound.startLoop {s : State} (h : Sound s) (p : Pass) (f : Phase) : Sound (startLoop p f s) :=
  ⟨h.params, h.memWf, h.memBelow, h.operandsFit, h.latchedFit, ⟨zero_fits _, zero_fits _, zero_fits _⟩, h.released⟩

/-- A completed command's state meets the invariant. -/
theorem complete_inv {s : State} (h : Sound s) (c : ResultCode) (n k : Word) (hn : s.params.fits n)
    (hk : s.params.fits k) : Inv (complete c n k s) where
  params := h.params
  memWf := h.memWf
  memBelow := h.memBelow
  operandsFit := h.operandsFit
  resultsFit := ⟨hn, hk⟩
  latchedFit := h.latchedFit
  cursorsFit := h.cursorsFit
  busyIff := by simp
  notBusyAndDone := by simp
  busyHidesResults := by simp
  resetStopsEngine := fun _ => rfl
  resetHolds := by simp [h.released]
  cursors := trivial

/-- finish leaves a state that meets the invariant, whatever the code and whether or not a host raced with the command. -/
theorem finish_inv {s : State} (h : Sound s) (c : ResultCode) : Inv (finish c s) := by
  unfold finish completeRaced
  split
  · exact complete_inv h.scrambleDest _ _ _ (narrow_fits _ _) (narrow_fits _ _)
  · refine complete_inv h _ _ _ ?_ ?_ <;> split
    · exact h.cursorsFit.2.1
    · exact zero_fits _
    · exact h.cursorsFit.2.2
    · exact zero_fits _

theorem finishBusErr_inv {s : State} (h : Sound s) : Inv (finishBusErr s) := finish_inv h.scrambleDest _

/-- MemRead of a range that exists is good if what follows is. -/
theorem memRead_good {lo n : Nat} {s : State} {k : List Byte → State → Host.Outcome State Fault Refusal}
    (h : Sound s) (hx : lo + n ≤ s.params.space)
    (hk : Good (k (Memory.readBytes s.mem lo n) (s.busTick lo n))) : Good (memRead lo n s k) := by
  rcases memRead_cases lo n s k with ⟨h1, -⟩ | ⟨-, -, h1⟩ | ⟨-, -, h1⟩
  · omega
  · rw [h1]; exact finishBusErr_inv (h.busTick lo n)
  · rw [h1]; exact hk

/-- The state after a MemWrite is sound. -/
theorem Sound.written {s : State} (h : Sound s) {lo : Nat} {l : List Byte} (hx : lo + l.length ≤ s.params.space) :
    Sound { s.busTick lo l.length with mem := Memory.writeBytes s.mem lo l } where
  params := by simpa using h.params
  memWf := Memory.wf_writeBytes lo l h.memWf
  memBelow := by simpa using Memory.below_writeBytes l h.memBelow hx
  operandsFit := by simpa using h.operandsFit
  latchedFit := by simpa using h.latchedFit
  cursorsFit := by simpa using h.cursorsFit
  released := by simpa using h.released

/-- MemWrite of a range that exists is good if what follows is. -/
theorem memWrite_good {lo : Nat} {l : List Byte} {s : State} {k : State → Host.Outcome State Fault Refusal}
    (h : Sound s) (hx : lo + l.length ≤ s.params.space)
    (hk : Good (k { s.busTick lo l.length with mem := Memory.writeBytes s.mem lo l })) : Good (memWrite lo l s k) := by
  rcases memWrite_cases lo l s k with ⟨h1, -⟩ | ⟨-, -, h1⟩ | ⟨-, -, h1⟩
  · omega
  · rw [h1]; exact finishBusErr_inv (h.busTick lo _)
  · rw [h1]; exact hk

/-! ### The ranges of a command that passed CHECK -/

/-- What CHECK's range tests leave: both ranges exist (60_exceptions.md R134). -/
theorem rangeFails_bounds {s : State} (h : rangeFails s = false) :
    s.eng.src.toNat + s.eng.len.toNat ≤ s.params.space ∧ s.eng.dst.toNat + s.dstSize ≤ s.params.space := by
  simp only [rangeFails, Bool.or_eq_false_iff, decide_eq_false_iff_not] at h
  omega

/-- The range tests depend on the latched operands alone. -/
theorem rangeFails_congr {s t : State} (h1 : t.params = s.params) (h2 : t.eng.cmd = s.eng.cmd)
    (h3 : t.eng.src = s.eng.src) (h4 : t.eng.len = s.eng.len) (h5 : t.eng.dst = s.eng.dst) :
    rangeFails t = rangeFails s := by
  unfold rangeFails State.dstSize
  rw [h1, h2, h3, h4, h5]

/-- The legal strides (00_scope.md R6, R7). -/
theorem wf_strides {p : Params} (h : p.wf = true) :
    3 ≤ p.encIn ∧ p.encIn ≤ 48 ∧ p.encIn % 3 = 0 ∧ 4 ≤ p.decIn ∧ p.decIn ≤ 64 ∧ p.decIn % 4 = 0 := by
  simp [Params.wf] at h; omega

/-- Cursors within the ranges of a command that passed CHECK are narrowed without loss (41_loop_driver.md R95). -/
theorem moveCursors_exact {s : State} {n k v : Nat} (hp : s.params.wf = true)
    (h1 : s.eng.rd.toNat + n < s.params.space) (h2 : s.eng.wr.toNat + k < s.params.space)
    (h3 : s.eng.ns.toNat + v < s.params.space) :
    (moveCursors n k v s).eng.rd.toNat = s.eng.rd.toNat + n ∧
    (moveCursors n k v s).eng.wr.toNat = s.eng.wr.toNat + k ∧
    (moveCursors n k v s).eng.ns.toNat = s.eng.ns.toNat + v :=
  ⟨narrow_toNat hp h1, narrow_toNat hp h2, narrow_toNat hp h3⟩

/-- outmax of a command whose ranges passed CHECK is below 2^AW when the length is positive: the ranges do not overlap. -/
theorem dstSize_lt {s : State} (h : rangeFails s = false) (hl : 0 < s.eng.len.toNat) : s.dstSize < s.params.space := by
  simp only [rangeFails, rangesOverlap, Bool.or_eq_false_iff, Bool.and_eq_false_iff, decide_eq_false_iff_not] at h
  omega

/-- The cursor invariant depends on the build, the latched operands, the phase and the cursors alone. -/
theorem CursorInv.congr {s t : State} (h : CursorInv s) (h1 : t.params = s.params) (h2 : t.eng.cmd = s.eng.cmd)
    (h3 : t.eng.src = s.eng.src) (h4 : t.eng.len = s.eng.len) (h5 : t.eng.dst = s.eng.dst)
    (h6 : t.eng.phase = s.eng.phase) (h7 : t.eng.rd = s.eng.rd) (h8 : t.eng.wr = s.eng.wr)
    (h9 : t.eng.ns = s.eng.ns) : CursorInv t := by
  unfold CursorInv at h ⊢
  rw [h6, h1, h2, h4, h7, h8, h9, rangeFails_congr h1 h2 h3 h4 h5]
  exact h

/-- A step that goes on to more of the same loop keeps the invariant if the cursors do. -/
theorem moved_inv {s t : State} {n k v : Nat} (h : Sound t) (hr : Running s) (hp : s.eng.phase ≠ .idle)
    (hc : CursorInv (moveCursors n k v s)) (e1 : t.params = s.params) (e2 : t.regs = s.regs)
    (e3 : t.inReset = s.inReset) (e4 : t.eng.cmd = s.eng.cmd) (e5 : t.eng.src = s.eng.src)
    (e6 : t.eng.len = s.eng.len) (e7 : t.eng.dst = s.eng.dst) (e8 : t.eng.phase = s.eng.phase)
    (e9 : t.eng.rd = s.eng.rd) (e10 : t.eng.wr = s.eng.wr) (e11 : t.eng.ns = s.eng.ns) :
    Inv (moveCursors n k v t) :=
  Inv.of_running (h.moveCursors n k v) (hr.of_eq (by simp [e2]) (by simp [e3])) (by simpa [e8] using hp)
    (hc.congr (by simp [e1]) (by simp [e4]) (by simp [e5]) (by simp [e6]) (by simp [e7]) (by simp [e8])
      (by simp [e1, e9]) (by simp [e1, e10]) (by simp [e1, e11]))

/-! ### The engine steps -/

/-- What CHECK has established of a command that it lets go on (60_exceptions.md R131). -/
theorem checkCode_none {s : State} (h : checkCode s = none) :
    (s.eng.cmd = 1 ∨ s.eng.cmd = 2) ∧ s.params.variant ≠ .stub ∧ rangeFails s = false ∧
    (s.eng.cmd = 2 → s.eng.len.toNat % 4 = 0) := by
  unfold checkCode at h
  split at h
  · cases h
  · split at h
    · cases h
    · split at h
      · cases h
      · split at h
        · cases h
        · refine ⟨by tauto, by assumption, by simpa using ‹¬rangeFails s = true›, fun hc => ?_⟩
          by_contra hne
          exact ‹¬(s.eng.cmd = 2 ∧ _)› ⟨hc, hne⟩

/-- The cursors at the start of a loop of ENCODE. -/
theorem startLoop_enc_cursors {s : State} (p : Pass) (hcmd : s.eng.cmd = 1) (hv : s.params.variant ≠ .stub)
    (hr : rangeFails s = false) : CursorInv (startLoop p (encStart s.params) s) := by
  have hr' : rangeFails (startLoop p (encStart s.params) s) = false := (rangeFails_congr rfl rfl rfl rfl rfl).trans hr
  by_cases hf : s.params.variant = .full
  · simp [CursorInv, encStart, hf, hcmd] at hr' ⊢
    exact hr'
  · simp [CursorInv, encStart, hf, hcmd, hv] at hr' ⊢
    exact hr'

/-- The cursors at the start of a pass of DECODE. -/
theorem startLoop_dec_cursors {s : State} (p : Pass) (hcmd : s.eng.cmd = 2) (hv : s.params.variant ≠ .stub)
    (hr : rangeFails s = false) (hl : s.eng.len.toNat % 4 = 0) :
    CursorInv (startLoop p (decStart s.params) s) := by
  have hr' : rangeFails (startLoop p (decStart s.params) s) = false := (rangeFails_congr rfl rfl rfl rfl rfl).trans hr
  by_cases hf : s.params.variant = .full
  · simp [CursorInv, decStart, hf, hcmd, hl] at hr' ⊢
    exact hr'
  · simp [CursorInv, decStart, hf, hcmd, hv, hl] at hr' ⊢
    exact hr'

theorem encStart_ne_idle (p : Params) : encStart p ≠ .idle := by unfold encStart; split <;> simp

theorem decStart_ne_idle (p : Params) : decStart p ≠ .idle := by unfold decStart; split <;> simp

theorem stepCheck_good {s : State} (h : Inv s) (hp : s.eng.phase = .check) : Good (stepCheck s) := by
  unfold stepCheck
  split
  · exact finish_inv (h.sound (by simp [hp])) _
  · rename_i hc
    obtain ⟨hcmd, hv, hr, hl⟩ := checkCode_none hc
    have hrun := h.running (by simp [hp])
    split
    · trivial
    · unfold startCommand
      split
      · exact Inv.of_running ((h.sound (by simp [hp])).startLoop _ _) (hrun.of_eq rfl rfl) (encStart_ne_idle _)
          (startLoop_enc_cursors _ ‹_› hv hr)
      · have h2 : s.eng.cmd = 2 := by tauto
        exact Inv.of_running ((h.sound (by simp [hp])).startLoop _ _) (hrun.of_eq rfl rfl) (decStart_ne_idle _)
          (startLoop_dec_cursors _ h2 hv hr (hl h2))

theorem dstSize_encode {s : State} (h : s.eng.cmd = 1) : s.dstSize = 4 * ((s.eng.len.toNat + 2) / 3) := by
  rw [State.dstSize, h]; exact outmax_encode _

theorem dstSize_decode {s : State} (h : s.eng.cmd = 2) : s.dstSize = 3 * (s.eng.len.toNat / 4) := by
  rw [State.dstSize, h]; exact outmax_decode _

theorem stepEncVec_good {s : State} (h : Inv s) (hp : s.eng.phase = .encVec) : Good (stepEncVec s) := by
  have hc := h.cursors
  simp only [CursorInv, hp] at hc
  obtain ⟨hcmd, hv, hrf, hle, hns, hwr⟩ := hc
  have hrun := h.running (by simp [hp])
  have hst := wf_strides h.params
  obtain ⟨hsb, hdb⟩ := rangeFails_bounds hrf
  have hds := dstSize_encode hcmd
  have h3 : s.eng.rd.toNat % 3 = 0 := by rw [hns, Nat.mul_mod, hst.2.2.1]; simp
  unfold stepEncVec
  dsimp only
  split
  · rename_i hrem
    unfold remaining at hrem
    have hlt := dstSize_lt hrf (by omega)
    have hlen := h.latchedFit.2.1
    have hout : s.params.encOut = 4 * (s.params.encIn / 3) := by unfold Params.encOut; omega
    have hnsle : s.eng.ns.toNat ≤ s.eng.rd.toNat := by rw [hns]; exact Nat.le_mul_of_pos_right _ (by omega)
    have hcur : CursorInv (moveCursors s.params.encIn s.params.encOut 1 s) := by
      obtain ⟨x1, x2, x3⟩ := moveCursors_exact (s := s) (n := s.params.encIn) (k := s.params.encOut) (v := 1)
        h.params (by omega) (by omega) (by omega)
      have hr' : rangeFails (moveCursors s.params.encIn s.params.encOut 1 s) = false := (rangeFails_congr rfl rfl rfl rfl rfl).trans hrf
      unfold CursorInv
      rw [moveCursors_eng_phase, hp]
      refine ⟨hcmd, hv, hr', ?_, ?_, ?_⟩
      · rw [x1]; simp only [moveCursors_eng_len]; omega
      · rw [x1, x3, hns]; simp only [moveCursors_params]; ring
      · rw [x1, x2]; omega
    refine memRead_good (h.sound (by simp [hp])) (by unfold srcCursor; omega) ?_
    refine memWrite_good (((h.sound (by simp [hp])).busTick _ _).setVReg _) (by simp [dstCursor]; omega) ?_
    exact moved_inv ((((h.sound (by simp [hp])).busTick _ _).setVReg _).written (by simp [dstCursor]; omega)) hrun (by simp [hp]) hcur
      (by simp) (by simp) (by simp) (by simp) (by simp) (by simp) (by simp) (by simp) (by simp) (by simp) (by simp)
  · refine Inv.of_running ((h.sound (by simp [hp])).setPhase _) (hrun.of_eq rfl rfl) (by simp) ?_
    unfold CursorInv
    exact ⟨hcmd, by simp [hv], (rangeFails_congr rfl rfl rfl rfl rfl).trans hrf, h3, hle, hwr⟩

theorem stepEncTail_good {s : State} (h : Inv s) (hp : s.eng.phase = .encTail) : Good (stepEncTail s) := by
  have hc := h.cursors
  simp only [CursorInv, hp] at hc
  obtain ⟨hcmd, hv, hrf, h3, hle, hwr⟩ := hc
  have hrun := h.running (by simp [hp])
  obtain ⟨hsb, hdb⟩ := rangeFails_bounds hrf
  have hds := dstSize_encode hcmd
  have hlen := h.latchedFit.2.1
  unfold stepEncTail remaining
  dsimp only
  split
  · rename_i hrem
    have hlt := dstSize_lt hrf (by omega)
    have hcur : CursorInv (moveCursors 3 4 0 s) := by
      obtain ⟨x1, x2, x3⟩ := moveCursors_exact (s := s) (n := 3) (k := 4) (v := 0)
        h.params (by omega) (by omega) (by simpa using h.cursorsFit.2.2)
      have hr' : rangeFails (moveCursors 3 4 0 s) = false := (rangeFails_congr rfl rfl rfl rfl rfl).trans hrf
      unfold CursorInv
      rw [moveCursors_eng_phase, hp]
      refine ⟨hcmd, hv, hr', ?_, ?_, ?_⟩
      · rw [x1]; omega
      · rw [x1]; simp only [moveCursors_eng_len]; omega
      · rw [x1, x2]; omega
    refine memRead_good (h.sound (by simp [hp])) (by unfold srcCursor; omega) ?_
    refine memWrite_good (((h.sound (by simp [hp])).busTick _ _).loadGroup _) (by simp [dstCursor, length_scEncGroup]; omega) ?_
    exact moved_inv ((((h.sound (by simp [hp])).busTick _ _).loadGroup _).written (by simp [dstCursor, length_scEncGroup]; omega)) hrun
      (by simp [hp]) hcur
      (by simp) (by simp) (by simp) (by simp) (by simp) (by simp) (by simp) (by simp) (by simp) (by simp) (by simp)
  · split
    · exact finish_inv (h.sound (by simp [hp])) _
    · rename_i h1 h2
      have hlen4 : ∀ g : Group, (scEncTail (g.bytes (s.eng.len.toNat - s.eng.rd.toNat))).length = 4 := by
        intro g
        have : s.eng.len.toNat - s.eng.rd.toNat = 1 ∨ s.eng.len.toNat - s.eng.rd.toNat = 2 := by omega
        rcases this with e | e <;> rw [e] <;> rfl
      refine memRead_good (h.sound (by simp [hp])) (by unfold srcCursor; omega) ?_
      refine memWrite_good (((h.sound (by simp [hp])).busTick _ _).loadGroup _) (by simp [dstCursor, hlen4]; omega) ?_
      exact finish_inv (((((h.sound (by simp [hp])).busTick _ _).loadGroup _).written (by simp [dstCursor, hlen4]; omega)).moveCursors _ _ _) _

theorem length_encStride (p : Params) (q : VReg) (x : List Byte) (k : Nat) : ((encStride p q x).lanes k).length = k := by
  simp

theorem stepDecVec_good {s : State} (h : Inv s) (hp : s.eng.phase = .decVec) : Good (stepDecVec s) := by
  have hc := h.cursors
  simp only [CursorInv, hp] at hc
  obtain ⟨hcmd, hv, hrf, hl4, hr4, hle, hns, hwr⟩ := hc
  have hrun := h.running (by simp [hp])
  have hst := wf_strides h.params
  obtain ⟨hsb, hdb⟩ := rangeFails_bounds hrf
  have hds := dstSize_decode hcmd
  have hlen := h.latchedFit.2.1
  have htail : ∀ t : State, Sound t → t.params = s.params → t.regs = s.regs → t.inReset = s.inReset →
      t.eng.cmd = s.eng.cmd → t.eng.src = s.eng.src → t.eng.len = s.eng.len → t.eng.dst = s.eng.dst →
      t.eng.rd = s.eng.rd → t.eng.wr = s.eng.wr → Inv (setPhase .decTail t) := by
    intro t ht e1 e2 e3 e4 e5 e6 e7 e8 e9
    refine Inv.of_running (ht.setPhase _) (hrun.of_eq (by simp [e2]) (by simp [e3])) (by simp) ?_
    have hr' : rangeFails (setPhase .decTail t) = false := 
      (rangeFails_congr (by simp [e1]) (by simp [e4]) (by simp [e5]) (by simp [e6]) (by simp [e7])).trans hrf
    unfold CursorInv
    simp only [setPhase_eng_phase]
    refine ⟨by simp [e4, hcmd], by simp [e1, hv], hr', by simp [e6, hl4], by simp [e8, hr4], by simp [e6, e8, hle],
      by simp [e8, e9, hwr], by simp [e8, e9, hwr]⟩
  unfold stepDecVec
  dsimp only
  split
  · rename_i hrem
    unfold remaining at hrem
    have hout : s.params.decOut = 3 * (s.params.decIn / 4) := by unfold Params.decOut; omega
    have hlt := dstSize_lt hrf (by omega)
    have hnsle : s.eng.ns.toNat ≤ s.eng.rd.toNat := by rw [hns]; exact Nat.le_mul_of_pos_right _ (by omega)
    have hcur : CursorInv (moveCursors s.params.decIn s.params.decOut 1 s) := by
      obtain ⟨x1, x2, x3⟩ := moveCursors_exact (s := s) (n := s.params.decIn) (k := s.params.decOut) (v := 1)
        h.params (by omega) (by omega) (by omega)
      have hr' : rangeFails (moveCursors s.params.decIn s.params.decOut 1 s) = false :=
        (rangeFails_congr rfl rfl rfl rfl rfl).trans hrf
      unfold CursorInv
      rw [moveCursors_eng_phase, hp]
      refine ⟨hcmd, hv, hr', hl4, ?_, ?_, ?_, ?_⟩
      · rw [x1]; omega
      · rw [x1]; simp only [moveCursors_eng_len]; omega
      · rw [x1, x3, hns]; simp only [moveCursors_params]; ring
      · rw [x1, x2]; omega
    refine memRead_good (h.sound (by simp [hp])) (by unfold srcCursor; omega) ?_
    split
    · exact htail _ (((h.sound (by simp [hp])).busTick _ _).setVReg _) (by simp) (by simp) (by simp) (by simp) (by simp) (by simp)
        (by simp) (by simp) (by simp)
    · split
      · exact moved_inv (((h.sound (by simp [hp])).busTick _ _).setVReg _) hrun (by simp [hp]) hcur
          (by simp) (by simp) (by simp) (by simp) (by simp) (by simp) (by simp) (by simp) (by simp) (by simp) (by simp)
      · refine memWrite_good ((((h.sound (by simp [hp])).busTick _ _).setVReg _).setVReg _) (by simp [dstCursor]; omega) ?_
        exact moved_inv (((((h.sound (by simp [hp])).busTick _ _).setVReg _).setVReg _).written (by simp [dstCursor]; omega)) hrun
          (by simp [hp]) hcur
          (by simp) (by simp) (by simp) (by simp) (by simp) (by simp) (by simp) (by simp) (by simp) (by simp) (by simp)
  · exact htail s (h.sound (by simp [hp])) rfl rfl rfl rfl rfl rfl rfl rfl rfl

theorem stepDecTail_good {s : State} (h : Inv s) (hp : s.eng.phase = .decTail) : Good (stepDecTail s) := by
  have hc := h.cursors
  simp only [CursorInv, hp] at hc
  obtain ⟨hcmd, hv, hrf, hl4, hr4, hle, hwle, hwr⟩ := hc
  have hrun := h.running (by simp [hp])
  obtain ⟨hsb, hdb⟩ := rangeFails_bounds hrf
  have hds := dstSize_decode hcmd
  have hlen := h.latchedFit.2.1
  unfold stepDecTail remaining
  dsimp only
  split
  · split
    · exact Inv.of_running ((h.sound (by simp [hp])).startLoop _ _) (hrun.of_eq rfl rfl) (decStart_ne_idle _)
        (startLoop_dec_cursors _ hcmd hv hrf hl4)
    · exact finish_inv (h.sound (by simp [hp])) _
  · rename_i hrem
    have hlt := dstSize_lt hrf (by omega)
    have hwr' := hwr (by omega)
    refine memRead_good (h.sound (by simp [hp])) (by unfold srcCursor; omega) ?_
    split
    · exact finish_inv (((h.sound (by simp [hp])).busTick _ _).loadGroup _) _
    · rename_i o ho
      obtain ⟨ho1, ho3, hof⟩ := scDecGroup_length ho
      have hcur : CursorInv (moveCursors 4 o.length 0 s) := by
        obtain ⟨x1, x2, x3⟩ := moveCursors_exact (s := s) (n := 4) (k := o.length) (v := 0)
          h.params (by omega) (by omega) (by simpa using h.cursorsFit.2.2)
        have hr' : rangeFails (moveCursors 4 o.length 0 s) = false :=
          (rangeFails_congr rfl rfl rfl rfl rfl).trans hrf
        unfold CursorInv
        rw [moveCursors_eng_phase, hp]
        refine ⟨hcmd, hv, hr', hl4, ?_, ?_, ?_, ?_⟩
        · rw [x1]; omega
        · rw [x1]; simp only [moveCursors_eng_len]; omega
        · rw [x1, x2]; omega
        · rw [x1, x2]; simp only [moveCursors_eng_len]
          intro hlt'
          have := hof (by simp; omega)
          omega
      split
      · exact moved_inv (((h.sound (by simp [hp])).busTick _ _).loadGroup _) hrun (by simp [hp]) hcur
          (by simp) (by simp) (by simp) (by simp) (by simp) (by simp) (by simp) (by simp) (by simp) (by simp) (by simp)
      · refine memWrite_good (((h.sound (by simp [hp])).busTick _ _).loadGroup _) (by simp [dstCursor]; omega) ?_
        exact moved_inv ((((h.sound (by simp [hp])).busTick _ _).loadGroup _).written (by simp [dstCursor]; omega)) hrun
          (by simp [hp]) hcur
          (by simp) (by simp) (by simp) (by simp) (by simp) (by simp) (by simp) (by simp) (by simp) (by simp) (by simp)

/-- An engine step keeps the invariant and never faults. -/
theorem engineStep_good {s : State} (h : Inv s) : Good (engineStep s) := by
  unfold engineStep
  split
  · exact h
  · exact stepCheck_good h ‹_›
  · exact stepEncVec_good h ‹_›
  · exact stepEncTail_good h ‹_›
  · exact stepDecVec_good h ‹_›
  · exact stepDecTail_good h ‹_›

/-- A run of the engine keeps the invariant and never faults. -/
theorem engineRun_good (n : Nat) {s : State} (h : Inv s) : Good (engineRun n s) := by
  induction n generalizing s with
  | zero => exact h
  | succ n ih =>
    have hg := engineStep_good h
    unfold engineRun
    split
    · exact h
    · split
      · rename_i t ht; rw [ht] at hg; exact ih hg
      · rename_i f hf; rw [hf] at hg; exact hg.elim
      · trivial

/-- The engine's run for the state's pace keeps the invariant and never faults. -/
theorem advance_good {s : State} (h : Inv s) : Good (advance s) := by
  unfold advance
  split <;> exact engineRun_good _ h

end Sys2Proof.Machine
end

