-- ==== Sys2Proof/Laws/Host.lean ====
section
/-! SUPPORT. What acceptance, the register writes, memory changes and reset do to the invariant (41_loop_driver.md R95), and the
run of a command that is accepted. -/

namespace Sys2Proof.Machine

/-- A state that differs in registers the engine does not use, with values that fit, meets the invariant. -/
theorem Inv.of_regs {s t : State} (h : Inv s) (h1 : t.params = s.params) (h2 : t.mem = s.mem) (h3 : t.eng = s.eng)
    (h4 : s.params.fits t.regs.srcAddr ∧ s.params.fits t.regs.srcLen ∧ s.params.fits t.regs.dstAddr)
    (h5 : t.regs.resultCount = s.regs.resultCount) (h6 : t.regs.resultStrides = s.regs.resultStrides)
    (h7 : t.regs.status.busy = s.regs.status.busy) (h8 : t.regs.status.result = s.regs.status.result)
    (h9 : t.regs.status.done = true → s.regs.status.done = true) (h10 : t.inReset = true → s.inReset = true)
    (h11 : t.inReset = true → t.regs = Regs.reset) : Inv t where
  params := by rw [h1]; exact h.params
  memWf := by rw [h2]; exact h.memWf
  memBelow := by rw [h1, h2]; exact h.memBelow
  operandsFit := by rw [h1]; exact h4
  resultsFit := by rw [h1, h5, h6]; exact h.resultsFit
  latchedFit := by rw [h1, h3]; exact h.latchedFit
  cursorsFit := by rw [h1, h3]; exact h.cursorsFit
  busyIff := by rw [h7, h3]; exact h.busyIff
  notBusyAndDone := by rw [h7]; exact fun ⟨a, b⟩ => h.notBusyAndDone ⟨a, h9 b⟩
  busyHidesResults := by rw [h7, h8, h5, h6]; exact h.busyHidesResults
  resetStopsEngine := by rw [h3]; exact fun a => h.resetStopsEngine (h10 a)
  resetHolds := h11
  cursors := h.cursors.congr h1 (by rw [h3]) (by rw [h3]) (by rw [h3]) (by rw [h3]) (by rw [h3]) (by rw [h3])
    (by rw [h3]) (by rw [h3])

/-- A state that differs in memory, still canonical and within the address space, meets the invariant. -/
theorem Inv.of_mem {s t : State} (h : Inv s) (h1 : t.params = s.params) (h2 : t.regs = s.regs) (h3 : t.eng = s.eng)
    (h4 : t.inReset = s.inReset) (h5 : Memory.wf t.mem = true) (h6 : Memory.below s.params.space t.mem = true) :
    Inv t where
  params := by rw [h1]; exact h.params
  memWf := h5
  memBelow := by rw [h1]; exact h6
  operandsFit := by rw [h1, h2]; exact h.operandsFit
  resultsFit := by rw [h1, h2]; exact h.resultsFit
  latchedFit := by rw [h1, h3]; exact h.latchedFit
  cursorsFit := by rw [h1, h3]; exact h.cursorsFit
  busyIff := by rw [h2, h3]; exact h.busyIff
  notBusyAndDone := by rw [h2]; exact h.notBusyAndDone
  busyHidesResults := by rw [h2]; exact h.busyHidesResults
  resetStopsEngine := by rw [h3, h4]; exact h.resetStopsEngine
  resetHolds := by rw [h2, h4]; exact h.resetHolds
  cursors := h.cursors.congr h1 (by rw [h3]) (by rw [h3]) (by rw [h3]) (by rw [h3]) (by rw [h3]) (by rw [h3])
    (by rw [h3]) (by rw [h3])

theorem accept_inv {s : State} (h : Inv s) (hr : s.inReset = false) (w : Word) : Inv (accept w s) := by
  refine Inv.of_running
    ⟨h.params, h.memWf, h.memBelow, h.operandsFit, ⟨narrow_fits _ _, narrow_fits _ _, narrow_fits _ _⟩, h.cursorsFit, hr⟩
    ⟨rfl, rfl, rfl, rfl, rfl, hr⟩ (by simp) ?_
  unfold CursorInv; trivial

theorem overrun_inv {s : State} (h : Inv s) (hr : s.inReset = false) : Inv (overrun s) :=
  h.of_regs rfl rfl rfl h.operandsFit rfl rfl rfl rfl (by simp) (by simp) (by simp [hr])

theorem writeReg_inv {s : State} (h : Inv s) (hr : s.inReset = false) (r : RegName) (w : Word) : Inv (writeReg r w s) := by
  obtain ⟨a, b, c⟩ := h.operandsFit
  refine h.of_regs (by simp) (by simp) (by simp) ?_ (by simp) (by simp) (by simp) (by simp) ?_ (by simp) (by simp [hr])
  · cases r <;> simp [writeReg, a, b, c, narrow_fits]
  · cases r <;> simp [writeReg]
    exact fun d _ => d

theorem resetBlock_inv {s : State} (h : Inv s) : Inv (resetBlock s) := by
  have hm : Memory.wf (resetBlock s).mem = true ∧ Memory.below s.params.space (resetBlock s).mem = true := by
    unfold resetBlock; dsimp only; split
    · exact ⟨h.memWf, h.memBelow⟩
    · exact ⟨wf_scrambleDest h.memWf, below_scrambleDest h.memWf h.memBelow⟩
  have z : s.params.fits 0 := zero_fits s.params
  constructor
  · simpa using h.params
  · exact hm.1
  · simpa using hm.2
  · simpa [Regs.reset] using z
  · simpa [Regs.reset] using z
  · simpa [Engine.reset] using z
  · simpa [Engine.reset] using z
  · simp [Regs.reset, Engine.reset]
  · simp [Regs.reset]
  · simp [Regs.reset]
  · simp [Engine.reset]
  · intro _; rfl
  · simp [CursorInv, Engine.reset]

/-- A command that the block accepts is its acceptance, and then the engine for the state's pace. -/
theorem issue_accepted {s : State} (hr : s.inReset = false) (hb : s.regs.status.busy = false) (w : Word) :
    issue w s = advance (accept w s) := by
  simp [issue, hr, hb]

/-- A command that runs to its end is the engine for the bound of R156. -/
theorem issue_ready {s : State} (h : Ready s) (w : Word) :
    issue w s = engineRun (stepBound (accept w s)) (accept w s) := by
  rw [issue_accepted h.released h.notBusy]
  simp [advance, accept, h.toEnd]

/-- An accepted command latches the operand registers exactly (30_encoding.md R63). -/
theorem accept_latches {s : State} (h : Inv s) (w : Word) :
    (accept w s).eng.src = s.regs.srcAddr ∧ (accept w s).eng.len = s.regs.srcLen ∧
      (accept w s).eng.dst = s.regs.dstAddr :=
  ⟨narrow_self h.params h.operandsFit.1, narrow_self h.params h.operandsFit.2.1,
    narrow_self h.params h.operandsFit.2.2⟩

end Sys2Proof.Machine
end

