-- ==== Sys2Proof/Laws/Frame.lean ====
section
/-! SUPPORT. What an engine step, and a run of them, leaves unchanged (41_loop_driver.md R82, R85, 00_scope.md section 4). -/

namespace Sys2Proof.Machine

/-- What no engine step changes: the build, the platform, what is outside the block, the operand registers, OVERRUN, and the latched
command. -/
structure EngineKeeps (s t : State) : Prop where
  params : t.params = s.params
  regions : t.regions = s.regions
  inReset : t.inReset = s.inReset
  response : t.response = s.response
  pace : t.pace = s.pace
  inbox : t.inbox = s.inbox
  operands : t.regs.srcAddr = s.regs.srcAddr ∧ t.regs.srcLen = s.regs.srcLen ∧ t.regs.dstAddr = s.regs.dstAddr
  overrun : t.regs.status.overrun = s.regs.status.overrun
  latched : t.eng.cmd = s.eng.cmd ∧ t.eng.src = s.eng.src ∧ t.eng.len = s.eng.len ∧ t.eng.dst = s.eng.dst

theorem EngineKeeps.refl (s : State) : EngineKeeps s s := ⟨rfl, rfl, rfl, rfl, rfl, rfl, ⟨rfl, rfl, rfl⟩, rfl, ⟨rfl, rfl, rfl, rfl⟩⟩

theorem EngineKeeps.trans {s t u : State} (h : EngineKeeps s t) (k : EngineKeeps t u) : EngineKeeps s u :=
  ⟨k.params.trans h.params, k.regions.trans h.regions, k.inReset.trans h.inReset, k.response.trans h.response,
    k.pace.trans h.pace, k.inbox.trans h.inbox,
    ⟨k.operands.1.trans h.operands.1, k.operands.2.1.trans h.operands.2.1, k.operands.2.2.trans h.operands.2.2⟩,
    k.overrun.trans h.overrun,
    ⟨k.latched.1.trans h.latched.1, k.latched.2.1.trans h.latched.2.1, k.latched.2.2.1.trans h.latched.2.2.1,
      k.latched.2.2.2.trans h.latched.2.2.2⟩⟩

theorem finish_engineKeeps (c : ResultCode) (s : State) : EngineKeeps s (finish c s) := by
  unfold finish; split <;> exact ⟨rfl, rfl, rfl, rfl, rfl, rfl, ⟨rfl, rfl, rfl⟩, rfl, ⟨rfl, rfl, rfl, rfl⟩⟩

theorem busTick_keeps (lo n : Nat) (s : State) : EngineKeeps s (s.busTick lo n) := by
  unfold State.busTick; split <;> exact ⟨rfl, rfl, rfl, rfl, rfl, rfl, ⟨rfl, rfl, rfl⟩, rfl, ⟨rfl, rfl, rfl, rfl⟩⟩

theorem finishBusErr_keeps (s : State) : EngineKeeps s (finishBusErr s) :=
  (show EngineKeeps s (scrambleDest s) from ⟨rfl, rfl, rfl, rfl, rfl, rfl, ⟨rfl, rfl, rfl⟩, rfl, ⟨rfl, rfl, rfl, rfl⟩⟩).trans (finish_engineKeeps _ _)

/-- MemRead keeps what its continuation keeps. -/
theorem memRead_keeps {lo n : Nat} {s t : State} {k : List Byte → State → Host.Outcome State Fault Refusal}
    (hk : ∀ l u, EngineKeeps s u → k l u = .next t → EngineKeeps s t) (h : memRead lo n s k = .next t) :
    EngineKeeps s t := by
  unfold memRead at h
  split at h
  · cases h
  · split at h
    · cases h; exact (busTick_keeps lo n s).trans (finishBusErr_keeps _)
    · exact hk _ _ (busTick_keeps lo n s) h

/-- MemWrite keeps what its continuation keeps. -/
theorem memWrite_keeps {lo : Nat} {l : List Byte} {s₀ s t : State} {k : State → Host.Outcome State Fault Refusal}
    (h₀ : EngineKeeps s₀ s) (hk : ∀ u, EngineKeeps s₀ u → k u = .next t → EngineKeeps s₀ t)
    (h : memWrite lo l s k = .next t) : EngineKeeps s₀ t := by
  unfold memWrite at h
  split at h
  · cases h
  · split at h
    · cases h; exact h₀.trans ((busTick_keeps lo _ s).trans (finishBusErr_keeps _))
    · refine hk _ (h₀.trans ?_) h
      exact (busTick_keeps lo l.length s).trans ⟨rfl, rfl, rfl, rfl, rfl, rfl, ⟨rfl, rfl, rfl⟩, rfl, ⟨rfl, rfl, rfl, rfl⟩⟩

theorem EngineKeeps.moveCursors {s u : State} (h : EngineKeeps s u) (n k v : Nat) :
    EngineKeeps s (Machine.moveCursors n k v u) :=
  h.trans ⟨rfl, rfl, rfl, rfl, rfl, rfl, ⟨rfl, rfl, rfl⟩, rfl, ⟨rfl, rfl, rfl, rfl⟩⟩

theorem EngineKeeps.setPhase {s u : State} (h : EngineKeeps s u) (f : Phase) :
    EngineKeeps s (Machine.setPhase f u) :=
  h.trans ⟨rfl, rfl, rfl, rfl, rfl, rfl, ⟨rfl, rfl, rfl⟩, rfl, ⟨rfl, rfl, rfl, rfl⟩⟩

theorem EngineKeeps.setVReg {s u : State} (h : EngineKeeps s u) (q : VReg) :
    EngineKeeps s (Machine.setVReg q u) :=
  h.trans ⟨rfl, rfl, rfl, rfl, rfl, rfl, ⟨rfl, rfl, rfl⟩, rfl, ⟨rfl, rfl, rfl, rfl⟩⟩

theorem EngineKeeps.loadGroup {s u : State} (h : EngineKeeps s u) (l : List Byte) :
    EngineKeeps s (Machine.loadGroup l u) :=
  h.trans ⟨rfl, rfl, rfl, rfl, rfl, rfl, ⟨rfl, rfl, rfl⟩, rfl, ⟨rfl, rfl, rfl, rfl⟩⟩

theorem EngineKeeps.startLoop {s u : State} (h : EngineKeeps s u) (p : Pass) (f : Phase) :
    EngineKeeps s (Machine.startLoop p f u) :=
  h.trans ⟨rfl, rfl, rfl, rfl, rfl, rfl, ⟨rfl, rfl, rfl⟩, rfl, ⟨rfl, rfl, rfl, rfl⟩⟩

theorem EngineKeeps.finish {s u : State} (h : EngineKeeps s u) (c : ResultCode) : EngineKeeps s (Machine.finish c u) :=
  h.trans (finish_engineKeeps c u)

/-- The frame of an engine step. -/
theorem engineStep_keeps {s t : State} (h : engineStep s = .next t) : EngineKeeps s t := by
  have r : EngineKeeps s s := .refl s
  unfold engineStep at h
  split at h
  · cases h; exact r
  · unfold stepCheck at h
    split at h
    · cases h; exact r.finish _
    · split at h
      · cases h
      · cases h; unfold startCommand; split <;> exact r.startLoop _ _
  · unfold stepEncVec at h; dsimp only at h
    split at h
    · refine memRead_keeps (fun l u hu h => ?_) h
      refine memWrite_keeps ?_ ?_ h
      · exact hu.setVReg _
      · intro v hv h; cases h; exact hv.moveCursors _ _ _
    · cases h; exact r.setPhase _
  · unfold stepEncTail at h; dsimp only at h
    split at h
    · refine memRead_keeps (fun l u hu h => ?_) h
      refine memWrite_keeps ?_ ?_ h
      · exact hu.loadGroup _
      · intro v hv h; cases h; exact hv.moveCursors _ _ _
    · split at h
      · cases h; exact r.finish _
      · refine memRead_keeps (fun l u hu h => ?_) h
        refine memWrite_keeps ?_ ?_ h
        · exact hu.loadGroup _
        · intro v hv h; cases h; exact (hv.moveCursors _ _ _).finish _
  · unfold stepDecVec at h; dsimp only at h
    split at h
    · refine memRead_keeps (fun l u hu h => ?_) h
      split at h
      · cases h; exact (hu.setVReg _).setPhase _
      · split at h
        · cases h; exact (hu.setVReg _).moveCursors _ _ _
        · refine memWrite_keeps ?_ ?_ h
          · exact (hu.setVReg _).setVReg _
          · intro v hv h; cases h; exact hv.moveCursors _ _ _
    · cases h; exact r.setPhase _
  · unfold stepDecTail at h; dsimp only at h
    split at h
    · split at h
      · cases h; exact r.startLoop _ _
      · cases h; exact r.finish _
    · refine memRead_keeps (fun l u hu h => ?_) h
      split at h
      · cases h; exact (hu.loadGroup _).finish _
      · split at h
        · cases h; exact (hu.loadGroup _).moveCursors _ _ _
        · refine memWrite_keeps ?_ ?_ h
          · exact hu.loadGroup _
          · intro v hv h; cases h; exact hv.moveCursors _ _ _

/-- The frame of a run of the engine. -/
theorem engineRun_keeps (n : Nat) {s t : State} (h : engineRun n s = .next t) : EngineKeeps s t := by
  induction n generalizing s with
  | zero => cases h; exact .refl _
  | succ n ih =>
    unfold engineRun at h
    split at h
    · cases h; exact .refl _
    · split at h
      · rename_i u hu; exact (engineStep_keeps hu).trans (ih h)
      · cases h
      · cases h

/-- The frame of the engine's run for the state's pace. -/
theorem advance_keeps {s t : State} (h : advance s = .next t) : EngineKeeps s t := by
  unfold advance at h
  split at h <;> exact engineRun_keeps _ h
end Sys2Proof.Machine
end

