-- ==== Sys2Proof/Laws/PerInstr.lean ====
section
/-! SUPPORT. Facts about each command as syntax: one family, one lemma per constructor of Instr. -/

namespace Sys2Proof.Laws.CommandWord

/-- A command is well-formed, its word has RSVD = 0 (30_encoding.md R61), and its word, as a word and as a row of
spec/opcode_table.json, decodes to it (R62). -/
def Statement (i : Instr) : Prop :=
  i.wf = true ∧ Word.rsvd (Sys2Proof.encode i) = 0 ∧ decodeWord (Sys2Proof.encode i) = .ok i ∧
    decodeTableWord 64 (Sys2Proof.encode i).toNat = some i

theorem encode : Statement .encode := by unfold Statement; decide

theorem decode : Statement .decode := by unfold Statement; decide

end Sys2Proof.Laws.CommandWord
end

