-- ==== Sys2Proof/Tests/Slice0.lean ====
section
/-! SUPPORT. The model's own tests: decoding, well-formedness, single steps against the vectors of 95_test_vectors.md, and for
each obligation with hypotheses a witness that meets them. -/

namespace Sys2Proof.Machine.Tests

/-! ### Small states -/

/-- A released, idle block of a build, with a memory and the operand registers set. -/
def host (p : Params) (m : List Host.Cell) (src len dst : Word) : State :=
  { State.reset with
    params := p
    mem := m
    regs := { Regs.reset with srcAddr := src, srcLen := len, dstAddr := dst } }

/-- The host acts again at once: no engine step runs in between. -/
def paused (s : State) : State := { s with pace := .steps 0 }

/-- A command runs: its latched operands are those of the registers. -/
def running (s : State) (phase : Phase) (cmd rd wr ns : Word) (pass : Pass) : State :=
  { s with
    regs := { s.regs with status := { s.regs.status with busy := true } }
    eng := { s.eng with
      phase := phase, cmd := cmd, src := s.regs.srcAddr, len := s.regs.srcLen, dst := s.regs.dstAddr
      rd := rd, wr := wr, ns := ns, pass := pass } }

/-- "Man" at 0x1000 (95_test_vectors.md S1). -/
def man : List Host.Cell := [(0x1000, 0x4D), (0x1001, 0x61), (0x1002, 0x6E)]

/-- "TWE=" at 0x1000 (95_test_vectors.md S5). -/
def twe : List Host.Cell := [(0x1000, 0x54), (0x1001, 0x57), (0x1002, 0x45), (0x1003, 0x3D)]

/-- B64VK, with another VARIANT. -/
def build (v : Variant) : Params := { Params.b64vk with variant := v }

/-- The smallest legal values. -/
def smallBuild : Params :=
  { aw := 32, encIn := 3, decIn := 4, variant := .full, tblImpl := .split64, regBase := 0x100, memCoherent := true }

/-- "Man" is to be encoded from 0x1000 to 0x2000. -/
def manHost : State := host .b64vk man 0x1000 3 0x2000

/-- "TWE=" is to be decoded from 0x1000 to 0x2000. -/
def tweHost : State := host .b64vk twe 0x1000 4 0x2000

/-- The parts of the invariant that can be computed, for a state with no running command. -/
def idleOk (s : State) : Bool :=
  s.params.wf && Memory.wf s.mem && Memory.below s.params.space s.mem
    && decide (s.params.fits s.regs.srcAddr ∧ s.params.fits s.regs.srcLen ∧ s.params.fits s.regs.dstAddr)
    && decide (s.params.fits s.regs.resultCount ∧ s.params.fits s.regs.resultStrides)
    && decide (s.params.fits s.eng.src ∧ s.params.fits s.eng.len ∧ s.params.fits s.eng.dst)
    && decide (s.params.fits s.eng.rd ∧ s.params.fits s.eng.wr ∧ s.params.fits s.eng.ns)
    && !s.regs.status.busy && decide (s.eng.phase = .idle)
    && decide (s.inReset = true → s.regs = Regs.reset)

theorem inv_of_idleOk {s : State} (h : idleOk s = true) : Inv s := by
  simp only [idleOk, Bool.and_eq_true, decide_eq_true_eq, Bool.not_eq_true'] at h
  obtain ⟨⟨⟨⟨⟨⟨⟨⟨⟨h1, h2⟩, h3⟩, h4⟩, h5⟩, h6⟩, h7⟩, h8⟩, h9⟩, h10⟩ := h
  refine ⟨h1, h2, h3, h4, h5, h6, h7, by simp [h8, h9], by simp [h8], by simp [h8], fun _ => h9, h10, ?_⟩
  unfold CursorInv; simp [h9]

/-- The block of a state accepts a command and runs it to its end. -/
def readyOk (s : State) : Bool := idleOk s && !s.inReset && decide (s.pace = .toCompletion)

theorem ready_of {s : State} (h : readyOk s = true) : Ready s := by
  simp only [readyOk, Bool.and_eq_true, decide_eq_true_eq, Bool.not_eq_true'] at h
  have hi := inv_of_idleOk h.1.1
  have hb : s.regs.status.busy = false := by
    have := h.1.1
    simp only [idleOk, Bool.and_eq_true, Bool.not_eq_true'] at this
    exact this.1.1.2
  exact ⟨hi, hb, h.1.2, h.2⟩

/-- A command that is accepted next goes past CHECK. -/
def runOk (i : Instr) (s : State) : Bool :=
  readyOk s && decide (s.params.variant ≠ .stub)
    && decide (s.src + s.len ≤ s.params.space)
    && decide (s.dst + s.outmaxOf i ≤ s.params.space)
    && decide (¬(0 < s.len ∧ 0 < s.outmaxOf i ∧ s.src < s.dst + s.outmaxOf i ∧ s.dst < s.src + s.len))
    && s.admits s.src s.len && s.admits s.dst (s.outmaxOf i)

theorem canRun_of {i : Instr} {s : State} (h : runOk i s = true) : CanRun i s := by
  simp only [runOk, Bool.and_eq_true, decide_eq_true_eq] at h
  obtain ⟨⟨⟨⟨⟨⟨h1, h2⟩, h3⟩, h4⟩, h5⟩, h6⟩, h7⟩ := h
  exact { ready_of h1 with built := h2, ranges := ⟨h3, h4, h5⟩, sourceOk := h6, destOk := h7 }

/-- What a test looks at: STATUS, RESULT_COUNT, RESULT_STRIDES, and n bytes of memory at an address. -/
def seen (o : Host.Outcome State Fault Refusal) (a n : Nat) : Option (Nat × Nat × Nat × List Byte) :=
  match o with
  | .next t => some (t.regs.status.word.toNat, t.regs.resultCount.toNat, t.regs.resultStrides.toNat,
      Memory.readBytes t.mem a n)
  | .fault _ => none
  | .refused _ => none

/-- The next state, or the state itself where there is none. -/
def after (o : Host.Outcome State Fault Refusal) (s : State) : State :=
  match o with
  | .next t => t
  | .fault _ => s
  | .refused _ => s

/-- The outcome is a next state. -/
def isNext (o : Host.Outcome State Fault Refusal) : Bool :=
  match o with
  | .next _ => true
  | .fault _ => false
  | .refused _ => false

theorem next_of {o : Host.Outcome State Fault Refusal} {s : State} (h : isNext o = true) : o = .next (after o s) := by
  cases o <;> first | rfl | cases h

/-! ### Decoding: words written out from 30_encoding.md R61, R62 and R64 -/

/-- RSVD = 0 and OPCODE = 0b00000001. -/
theorem test_decode_word_encode : decodeWord ((0b0 : BitVec 56) ++ (0b00000001 : BitVec 8)) = .ok .encode := by decide

/-- RSVD = 0 and OPCODE = 0b00000010. -/
theorem test_decode_word_decode : decodeWord ((0b0 : BitVec 56) ++ (0b00000010 : BitVec 8)) = .ok .decode := by decide

/-- The same words as rows of spec/opcode_table.json, and two that are no row. -/
theorem test_decode_table_words : decodeTableWord 64 1 = some .encode ∧ decodeTableWord 64 2 = some .decode ∧
    decodeTableWord 64 0x103 = none ∧ decodeTableWord 64 0x102 = none := by decide

/-- Offsets of 10_state.md R24. -/
theorem test_decode_access : decodeAccess (wrAccess .cmd 1) = .ok .cmd ∧
    decodeAccess { kind := .read, offset := 0x40, width := 64, data := 0 } = .ok .resultStrides ∧
    decodeAccess { kind := .read, offset := 0x48, width := 64, data := 0 } = .ok .reserved ∧
    decodeAccess { kind := .read, offset := 0xF8, width := 64, data := 0 } = .ok .reserved := by decide

/-! ### WellFormed refuses ill-formed terms, one for each check -/

theorem test_wf_width : Transaction.wf { kind := .read, offset := 0x18, width := 32, data := 0 } = false := by decide

theorem test_wf_offset : Transaction.wf { kind := .read, offset := 0x1C, width := 64, data := 0 } = false := by decide

theorem test_wf_aw : Params.wf { Params.b64vk with aw := 31 } = false ∧
    Params.wf { Params.b64vk with aw := 65 } = false := by decide

theorem test_wf_enc_stride : Params.wf { Params.b64vk with encIn := 0 } = false ∧
    Params.wf { Params.b64vk with encIn := 51 } = false ∧
    Params.wf { Params.b64vk with encIn := 47 } = false := by decide

theorem test_wf_dec_stride : Params.wf { Params.b64vk with decIn := 0 } = false ∧
    Params.wf { Params.b64vk with decIn := 68 } = false ∧
    Params.wf { Params.b64vk with decIn := 30 } = false := by decide

theorem test_wf_reg_base : Params.wf { Params.b64vk with regBase := 0x40000080 } = false := by decide

theorem test_wf_legal : Params.wf .b64vk = true ∧ smallBuild.wf = true ∧ Instr.wf .encode = true ∧
    Instr.wf .decode = true := by decide

/-! ### Single steps (95_test_vectors.md, the rows named) -/

/-- S1, written by the host as a CMD word: "Man" gives "TWFu", STATUS 0x102, COUNT 4. -/
theorem test_encode_man :
    seen (step (manHost.withFetchWord 64 1)) 0x2000 4 = some (0x102, 4, 0, [0x54, 0x57, 0x46, 0x75]) := by decide +kernel

/-- S3 under the smallest build, after a whole stride: "MMMM" gives "TU1NTQ==" with one stride. -/
theorem test_encode_stride_and_tail :
    seen (exec .encode (host smallBuild [(0x1000, 0x4D), (0x1001, 0x4D), (0x1002, 0x4D), (0x1003, 0x4D)] 0x1000 4 0x2000))
      0x2000 8 = some (0x102, 8, 1, [0x54, 0x55, 0x31, 0x4E, 0x54, 0x51, 0x3D, 0x3D]) := by decide +kernel

/-- S5: "TWE=" gives "Ma", and the bytes after it are unchanged. -/
theorem test_decode_twe :
    seen (step (tweHost.withFetchWord 64 2)) 0x2000 4 = some (0x102, 2, 0, [0x4D, 0x61, 0, 0]) := by decide +kernel

/-- F-D "TW=u": INVALID, nothing written. -/
theorem test_decode_pad_then_data :
    seen (exec .decode (host .b64vk [(0x1000, 0x54), (0x1001, 0x57), (0x1002, 0x3D), (0x1003, 0x75)] 0x1000 4 0x2000))
      0x2000 4 = some (0x202, 0, 0, [0, 0, 0, 0]) := by decide +kernel

/-- X-1: an illegal word completes BAD_CMD. -/
theorem test_illegal_word : seen (writeCmd 0x101 manHost) 0x2000 4 = some (0x402, 0, 0, [0, 0, 0, 0]) := by decide +kernel

/-- X-2, DECODE of 5 characters whose destination overlaps: RANGE_ERR before INVALID. -/
theorem test_range_before_length :
    seen (exec .decode (host .b64vk man 0x1000 5 0x1001)) 0x1001 3 = some (0x502, 0, 0, [0x61, 0x6E, 0]) := by
  decide +kernel

/-- X-3: ID and CAPS of B64VK. -/
theorem test_id_caps : (readReg .id State.reset).toNat = 0x4236344300070001 ∧
    (readReg .caps State.reset).toNat = 0x0000401820403000 := by decide

/-- T-E and T-D: the translators at "TWFu". -/
theorem test_xlate : xlateEnc .split64 [19, 22, 5, 46] = [84, 87, 70, 117] ∧
    xlateDec [84, 87, 61, 117] = ([19, 22, 61, 46], [0, 0, 0xFF, 0]) := by decide +kernel

/-- R-E and R-D: one group each way. -/
theorem test_reshuffle : reshufEnc [0xFB, 0xFF, 0xBF] = [62, 63, 62, 63] ∧
    reshufDec [0, 16, 8, 3] = [0x01, 0x02, 0x03] := by decide +kernel

/-- 40_lane_ops.md vectors: unsigned comparison, saturation, zero fill. -/
theorem test_lanes : vcgt [0x80] [0x7F] = [0xFF] ∧ vqsub [0, 52] [51, 51] = [0, 1] ∧
    vperm [0x4D, 0x61, 0x6E] [none, some 1, some 3] = [0, 0x61, 0] ∧
    vbsl [0xFF, 0x00, 0x0F] [16, 16, 0xAB] [7, 7, 0xCD] = [16, 7, 0xCB] := by decide +kernel

/-- P1's `wait` (R68): a read of BUSY = 1 leaves the loop in the inbox, at a pace that cannot stall the command (R157), and a read
of 0x102 ends it. -/
theorem test_wait :
    let turn : Turn := { action := .wait, pace := .steps 0 }
    let poll (s : State) := match step { s with inbox := [turn] } with
      | .next t => some (t.response, t.inbox.map (·.pace))
      | _ => none
    poll (running manHost .encTail 1 0 0 0 .validate) = some (some 0x1, [.steps 1]) ∧
    poll (after (exec .encode manHost) manHost) = some (some 0x102, []) := by decide +kernel

/-- R54: the host reads memory that answers the block with errors. -/
theorem test_host_reads_behind_bus_error :
    (match perform (.memRead 0x1001) { manHost with regions := [{ base := 0, size := 0x10000, kind := .error }] } with
      | .next t => t.response
      | _ => none) = some 0x61 := by decide +kernel

/-! ### A witness for the hypotheses of each obligation that has some -/

theorem witness_RegisterMapRoundTrip :
    let t (o : BitVec 8) : Transaction := { kind := .read, offset := o, width := 64, data := 0 }
    ((t 0x00).wf = true ∧ (t 0x40).wf = true ∧ (t 0x40).offset.toNat < 0x48) ∧
    ((t 0x48).wf = true ∧ (t 0xF8).wf = true ∧ 0x48 ≤ (t 0x48).offset.toNat) := by decide

theorem witness_StepRunsDecodedCommand :
    decodeTableWord 64 1 = some .encode ∧ decodeTableWord 64 2 = some .decode := by decide

theorem witness_HostCommandLines :
    HostAction.access (wrAccess .dstAddr 3) ∈ (HostCommand.setup 1 2 3).actions ∧ State.reset.inReset = false := by decide

theorem witness_StatusWordFields : Status.overrun Regs.reset.status = false := by decide

theorem witness_StatusWriteClears : (paused manHost).inReset = false ∧ (paused manHost).pace = .steps 0 := by decide

theorem witness_ReadOnlyRegistersIgnoreWrites :
    let t (o : BitVec 8) : Transaction := { kind := .write, offset := o, width := 64, data := 7 }
    (paused manHost).inReset = false ∧ (paused manHost).pace = .steps 0 ∧
    decodeAccess (t 0x00) = .ok .id ∧ decodeAccess (t 0x40) = .ok .resultStrides ∧
    decodeAccess (t 0x48) = .ok .reserved ∧ decodeAccess (t 0xF8) = .ok .reserved := by decide

theorem witness_ReadsReturnTheRegister :
    let t (o : BitVec 8) : Transaction := { kind := .read, offset := o, width := 64, data := 0 }
    (paused manHost).inReset = false ∧ (paused manHost).pace = .steps 0 ∧
    decodeAccess (t 0x18) = .ok .status ∧ decodeAccess (t 0x50) = .ok .reserved := by decide

theorem witness_OperandRegistersStoreAwBits :
    (host smallBuild [] 0 0 0).params.wf = true ∧ RegName.srcLen ≠ .srcAddr := by decide

theorem witness_CapsReportsParameters : Params.b64vk.wf = true ∧ smallBuild.wf = true ∧
    Params.wf { Params.b64vk with decIn := 64, variant := .stub } = true := by decide

theorem witness_MalformedAccessRefused :
    let t (o : BitVec 8) (n : Nat) : Transaction := { kind := .write, offset := o, width := n, data := 0 }
    (t 0x10 32).width ≠ 64 ∧ ((t 0x14 64).width = 64 ∧ (t 0x14 64).offset.toNat % 8 ≠ 0) ∧
    (manHost.params.regBase ≤ (0x400000FF : Word).toNat ∧
      (0x400000FF : Word).toNat < manHost.params.regBase + 256) := by decide

theorem witness_AcceptLatchesOperands :
    let s := paused manHost
    (s.params.wf = true ∧ s.inReset = false ∧ s.regs.status.busy = false ∧ s.pace = .steps 0 ∧
      s.params.fits s.regs.srcAddr ∧ s.params.fits s.regs.srcLen ∧ s.params.fits s.regs.dstAddr) ∧
    writeCmd 1 s = .next (accept 1 s) := by
  refine ⟨by decide, rfl⟩

theorem witness_BusyWriteSetsOverrunOnly :
    let s := paused (running manHost .encTail 1 0 0 0 .write)
    s.inReset = false ∧ s.regs.status.busy = true ∧ s.pace = .steps 0 := by decide

theorem witness_ResetIgnoresAccesses :
    (State.inReset { State.reset with inReset := true } = true) ∧ (wrAccess .cmd 1).wf = true := by decide

theorem witness_OperandWritesDoNotAffectRunningCommand :
    (RegName.srcAddr = .srcAddr ∨ RegName.srcAddr = .srcLen ∨ RegName.srcAddr = .dstAddr) := by decide

theorem witness_IllegalWordsCompleteBadCmd :
    Ready manHost ∧ (0x101 : Word) ≠ 1 ∧ (0x101 : Word) ≠ 2 := ⟨ready_of (by decide), by decide, by decide⟩

theorem witness_StubCompletesNotApplicable :
    Ready (host (build .stub) man 0x1000 3 0x2000) ∧ (host (build .stub) man 0x1000 3 0x2000).params.variant = .stub :=
  ⟨ready_of (by decide), by decide⟩

/-- Each of the three tests of 60_exceptions.md R134, at the values of X-2. -/
theorem witness_RangeErrorBeforeAnyAccess :
    let s0 := host .b64vk man 0xFFFFFFFFFFFFFFFE 3 0x2000
    let s1 := host .b64vk man 0x1000 3 0xFFFFFFFFFFFFFFFD
    let s2 := host .b64vk man 0x1000 5 0x1001
    (Ready s0 ∧ s0.params.variant ≠ .stub ∧ ¬s0.rangesLegal .encode) ∧
    (Ready s1 ∧ s1.params.variant ≠ .stub ∧ ¬s1.rangesLegal .encode) ∧
    (Ready s2 ∧ s2.params.variant ≠ .stub ∧ ¬s2.rangesLegal .decode) := by
  refine ⟨⟨ready_of (by decide), by decide, ?_⟩, ⟨ready_of (by decide), by decide, ?_⟩,
    ⟨ready_of (by decide), by decide, ?_⟩⟩ <;> unfold State.rangesLegal <;> decide

theorem witness_DecodeLengthRule :
    let s (n : Word) := host .b64vk man 0x1000 n 0x2000
    (Ready (s 5) ∧ (s 5).params.variant ≠ .stub ∧ (s 5).rangesLegal .decode ∧ (s 5).len % 4 ≠ 0) ∧
    (Ready (s 0) ∧ (s 0).params.variant ≠ .stub ∧ (s 0).rangesLegal .decode ∧ (s 0).len = 0) := by
  refine ⟨⟨ready_of (by decide), by decide, ?_, by decide⟩, ⟨ready_of (by decide), by decide, ?_, by decide⟩⟩ <;>
    unfold State.rangesLegal <;> decide

/-- The register window of B64VK's REG_BASE as the source of ENCODE, and as the destination of DECODE. -/
theorem witness_DeviceMemoryRefused :
    let s := host .b64vk [] 0x400000FF 1 0x2000
    let u := host .b64vk [] 0x1000 4 0x3FFFFFFF
    (Ready s ∧ s.params.variant ≠ .stub ∧ s.rangesLegal .encode ∧ s.touchesDevice s.src s.len = true) ∧
    (Ready u ∧ u.params.variant ≠ .stub ∧ u.rangesLegal .decode ∧ u.len % 4 = 0 ∧
      u.touchesDevice u.dst (u.outmaxOf .decode) = true) := by
  refine ⟨⟨ready_of (by decide), by decide, ?_, by decide⟩, ⟨ready_of (by decide), by decide, ?_, by decide, by decide⟩⟩ <;>
    unfold State.rangesLegal <;> decide

/-- A length of 0, a whole group, and a destination that ends at 2^64 exactly (X-2). -/
theorem witness_EncodeWritesBase64 :
    CanRun .encode manHost ∧ CanRun .encode (host .b64vk man 0x1000 0 0x2000) ∧
    CanRun .encode (host .b64vk man 0x1000 3 0xFFFFFFFFFFFFFFFC) ∧
    CanRun .encode (host (build .scalar) man 0x1000 3 0x1003) :=
  ⟨canRun_of (by decide), canRun_of (by decide), canRun_of (by decide), canRun_of (by decide)⟩

/-- A valid source, and one that is not. -/
theorem witness_DecodeWritesBytes :
    (CanRun .decode tweHost ∧ decText tweHost.source = some [0x4D, 0x61]) ∧
    (CanRun .decode (host .b64vk man 0x1000 4 0x2000) ∧ decText (host .b64vk man 0x1000 4 0x2000).source = none) := by
  refine ⟨⟨canRun_of (by decide), ?_⟩, ⟨canRun_of (by decide), ?_⟩⟩ <;> decide +kernel

theorem witness_EncodeThenDecodeRestoresSource :
    let t := after (exec .encode manHost) manHost
    CanRun .encode manHost ∧ exec .encode manHost = .next t ∧
    CanRun .decode { t with regs :=
      { t.regs with srcAddr := manHost.regs.dstAddr, srcLen := t.regs.resultCount, dstAddr := 0x3000 } } := by
  exact ⟨canRun_of (by decide), next_of (by decide +kernel), canRun_of (by decide +kernel)⟩

theorem witness_TextRoundTrip : [(0x4D : Byte)].length = 1 ∧ [(0x4D : Byte), 0x61].length = 2 := by decide

theorem witness_EncodeNeverInvalid :
    Ready manHost ∧ exec .encode manHost = .next (after (exec .encode manHost) manHost) :=
  ⟨ready_of (by decide), next_of (by decide +kernel)⟩

/-- Each of the four codes. -/
theorem witness_FailuresWriteNothing :
    let run (s : State) (w : Word) := after (writeCmd w s) s
    let bad := host .b64vk man 0x1000 4 0x2000
    let stub := host (build .stub) man 0x1000 3 0x2000
    let range := host .b64vk man 0x1000 3 0x1002
    (Ready bad ∧ writeCmd 2 bad = .next (run bad 2) ∧ (run bad 2).regs.status.result = .invalid) ∧
    (Ready bad ∧ writeCmd 3 bad = .next (run bad 3) ∧ (run bad 3).regs.status.result = .badCmd) ∧
    (Ready stub ∧ writeCmd 1 stub = .next (run stub 1) ∧ (run stub 1).regs.status.result = .notApplicable) ∧
    (Ready range ∧ writeCmd 1 range = .next (run range 1) ∧ (run range 1).regs.status.result = .rangeErr) := by
  refine ⟨⟨ready_of (by decide), next_of (by decide +kernel), ?_⟩, ⟨ready_of (by decide), next_of (by decide +kernel), ?_⟩,
    ⟨ready_of (by decide), next_of (by decide +kernel), ?_⟩, ⟨ready_of (by decide), next_of (by decide +kernel), ?_⟩⟩ <;>
    decide +kernel

/-- An error region at an address. -/
def errorAt (s : State) (a n : Nat) : State := { s with regions := [{ base := a, size := n, kind := .error }] }

/-- For each clause: the last source byte and the last destination byte of ENCODE; of DECODE of a Valid source, the last
source byte and the last byte written; and the whole source of DECODE. -/
theorem witness_BusErrorEndsCommand :
    let e0 := errorAt manHost 0x1002 1
    let e1 := errorAt manHost 0x2003 1
    let d0 := errorAt tweHost 0x1003 1
    let d1 := errorAt tweHost 0x2001 1
    let d2 := errorAt tweHost 0x1000 4
    let ok (s : State) (i : Instr) := Ready s ∧ s.params.variant ≠ .stub ∧ s.rangesLegal i ∧
      s.touchesDevice s.src s.len = false ∧ s.touchesDevice s.dst (s.outmaxOf i) = false
    (ok e0 .encode ∧ e0.touches .error e0.src e0.len = true) ∧
    (ok e1 .encode ∧ e1.touches .error e1.dst (e1.outmaxOf .encode) = true) ∧
    (ok d0 .decode ∧ decText d0.source = some [0x4D, 0x61] ∧ d0.touches .error d0.src d0.len = true) ∧
    (ok d1 .decode ∧ decText d1.source = some [0x4D, 0x61] ∧ d1.touches .error d1.dst 2 = true) ∧
    (ok d2 .decode ∧ d2.len % 4 = 0 ∧ 0 < d2.len ∧
      ∃ r ∈ d2.regions, r.kind = .error ∧ r.base ≤ d2.src ∧ d2.src + d2.len ≤ r.base + r.size) := by
  refine ⟨⟨⟨ready_of (by decide), by decide, ?_, by decide, by decide⟩, by decide⟩,
    ⟨⟨ready_of (by decide), by decide, ?_, by decide, by decide⟩, by decide⟩,
    ⟨⟨ready_of (by decide), by decide, ?_, by decide, by decide⟩, by decide +kernel, by decide⟩,
    ⟨⟨ready_of (by decide), by decide, ?_, by decide, by decide⟩, by decide +kernel, by decide⟩,
    ⟨⟨ready_of (by decide), by decide, ?_, by decide, by decide⟩, by decide, by decide, by decide⟩⟩ <;>
    unfold State.rangesLegal <;> decide

/-- A command run to its end, and one that has only been accepted. -/
theorem witness_CommandFrame :
    (Inv manHost ∧ manHost.regs.status.busy = false ∧ manHost.inReset = false ∧
      exec .encode manHost = .next (after (exec .encode manHost) manHost)) ∧
    (Inv (paused tweHost) ∧ (paused tweHost).regs.status.busy = false ∧ (paused tweHost).inReset = false ∧
      exec .decode (paused tweHost) = .next (accept 2 (paused tweHost))) := by
  exact ⟨⟨inv_of_idleOk (by decide), by decide, by decide, next_of (by decide +kernel)⟩,
    ⟨inv_of_idleOk (by decide), by decide, by decide, rfl⟩⟩

/-- Two memories that differ outside the source. -/
theorem witness_ResultsDependOnSourceOnly :
    let m : List Host.Cell := man ++ [(0x1003, 0xAA)]
    Ready manHost ∧ Ready { manHost with mem := m } ∧
    (∀ a, manHost.src ≤ a → a < manHost.src + manHost.len → Memory.read m a = Memory.read manHost.mem a) ∧
    exec .encode manHost = .next (after (exec .encode manHost) manHost) := by
  refine ⟨ready_of (by decide), ready_of (by decide), ?_, next_of (by decide +kernel)⟩
  intro a h1 h2
  have h1 : 0x1000 ≤ a := h1
  have h2 : a < 0x1003 := h2
  interval_cases a <;> decide

theorem witness_StridesAndBuildsAgree :
    let other (s : State) (e d : Nat) (v : Variant) : State :=
      { s with params := { s.params with encIn := e, decIn := d, variant := v, tblImpl := .split64 } }
    (Ready manHost ∧ Ready (other manHost 3 64 .scalar) ∧ manHost.params.variant ≠ .stub ∧
      manHost.admits manHost.src manHost.len = true ∧ manHost.admits manHost.dst (outmax 1 manHost.len) = true) ∧
    (Ready tweHost ∧ Ready (other tweHost 3 4 .full) ∧ tweHost.params.variant ≠ .stub ∧
      tweHost.admits tweHost.src tweHost.len = true ∧ tweHost.admits tweHost.dst (outmax 2 tweHost.len) = true) :=
  ⟨⟨ready_of (by decide), ready_of (by decide), by decide, by decide, by decide⟩,
    ⟨ready_of (by decide), ready_of (by decide), by decide, by decide, by decide⟩⟩

theorem witness_CommandsCompleteWithinBound :
    Inv manHost ∧ manHost.regs.status.busy = false ∧ manHost.inReset = false ∧ checkCode (accept 7 manHost) ≠ none :=
  ⟨inv_of_idleOk (by decide), by decide, by decide, by decide⟩

/-- A command that has been accepted, with two steps left in this turn, and one whose turn outlasts it. -/
theorem witness_PausedCommandsFinishAsWhole :
    Inv manHost ∧ manHost.regs.status.busy = false ∧ manHost.inReset = false ∧
    isNext (exec .encode { manHost with pace := .steps 2 }) = true ∧
    isNext (exec .decode { tweHost with pace := .steps 100 }) = true :=
  ⟨inv_of_idleOk (by decide), by decide, by decide, by decide +kernel, by decide +kernel⟩

/-! States in which a command runs. -/

/-- ENC_VEC after one stride of two, under the smallest build. -/
def inEncVec : State := running (host smallBuild man 0x1000 6 0x2000) .encVec 1 3 4 1 .validate

/-- ENC_TAIL at the start. -/
def inEncTail : State := running manHost .encTail 1 0 0 0 .validate

/-- DEC_VEC in the WRITE pass, after one stride of two. -/
def inDecVec : State := running (host smallBuild twe 0x1000 8 0x2000) .decVec 2 4 3 1 .write

/-- DEC_TAIL in the VALIDATE pass, after the last group, which had one PAD. -/
def inDecTail : State := running tweHost .decTail 2 4 2 0 .validate

theorem inEncVec_inv : Inv inEncVec :=
  ⟨by decide, by decide, by decide, by decide, by decide, by decide, by decide, by decide, by decide, by decide, by decide, by decide,
    ⟨by decide, by decide, by decide, by decide, by decide, by decide⟩⟩

theorem inEncTail_inv : Inv inEncTail :=
  ⟨by decide, by decide, by decide, by decide, by decide, by decide, by decide, by decide, by decide, by decide, by decide, by decide,
    ⟨by decide, by decide, by decide, by decide, by decide, by decide⟩⟩

theorem inDecVec_inv : Inv inDecVec :=
  ⟨by decide, by decide, by decide, by decide, by decide, by decide, by decide, by decide, by decide, by decide, by decide, by decide,
    ⟨by decide, by decide, by decide, by decide, by decide, by decide, by decide, by decide⟩⟩

theorem inDecTail_inv : Inv inDecTail :=
  ⟨by decide, by decide, by decide, by decide, by decide, by decide, by decide, by decide, by decide, by decide, by decide, by decide,
    ⟨by decide, by decide, by decide, by decide, by decide, by decide, by decide, by decide⟩⟩

theorem witness_EngineStepsDecreaseRank :
    (Inv inEncVec ∧ inEncVec.eng.phase ≠ .idle ∧ engineStep inEncVec = .next (after (engineStep inEncVec) inEncVec)) ∧
    (Inv inDecTail ∧ inDecTail.eng.phase ≠ .idle ∧ engineStep inDecTail = .next (after (engineStep inDecTail) inDecTail)) ∧
    Inv manHost := by
  refine ⟨⟨inEncVec_inv, by decide, ?_⟩, ⟨inDecTail_inv, by decide, ?_⟩, inv_of_idleOk (by decide)⟩ <;> exact next_of (by decide +kernel)

theorem witness_BusyHidesResults : Inv inEncTail ∧ inEncTail.eng.phase ≠ .idle := ⟨inEncTail_inv, by decide⟩

/-- A `wait` while none runs, and one while a command runs, at a pace of no steps. -/
theorem witness_WaitEnds :
    let waiting (s : State) : State := { s with inbox := [{ action := .wait, pace := .steps 0 }] }
    (Inv (waiting manHost) ∧ (waiting manHost).inReset = false) ∧
    (Inv (waiting inEncTail) ∧ (waiting inEncTail).inReset = false) :=
  ⟨⟨inv_of_idleOk (by decide), by decide⟩,
    ⟨inEncTail_inv.of_mem rfl rfl rfl rfl inEncTail_inv.memWf inEncTail_inv.memBelow, by decide⟩⟩

/-- An engine step, and a host action. -/
theorem witness_StepKeepsInvariant :
    (Inv inDecVec ∧ step inDecVec = .next (after (step inDecVec) inDecVec)) ∧
    (Inv (manHost.withFetchWord 64 1) ∧
      step (manHost.withFetchWord 64 1) = .next (after (step (manHost.withFetchWord 64 1)) manHost)) := by
  exact ⟨⟨inDecVec_inv, next_of (by decide +kernel)⟩, ⟨inv_of_idleOk (by decide), next_of (by decide +kernel)⟩⟩

theorem witness_StepNeverFaults : Inv inDecVec := inDecVec_inv

theorem witness_StepKeepsBuild : step inDecVec = .next (after (step inDecVec) inDecVec) := next_of (by decide +kernel)

theorem witness_CursorBounds :
    (Inv inEncVec ∧ inEncVec.eng.phase = .encVec ∧ inEncVec.eng.cmd = 1) ∧
    (Inv inDecVec ∧ inDecVec.eng.phase = .decVec ∧ inDecVec.eng.cmd = 2 ∧ inDecVec.eng.rd.toNat < inDecVec.eng.len.toNat) ∧
    (Inv inDecTail ∧ inDecTail.eng.phase = .decTail ∧ inDecTail.eng.cmd = 2) :=
  ⟨⟨inEncVec_inv, by decide, by decide⟩, ⟨inDecVec_inv, by decide, by decide, by decide⟩,
    ⟨inDecTail_inv, by decide, by decide⟩⟩

/-- A block in reset. -/
def inResetHost : State := { State.reset with inReset := true, mem := man }

/-- With a command running, with none, and in reset. -/
theorem witness_ResetAbandonsCommand :
    (Inv inDecVec ∧ inDecVec.inReset = false ∧ inDecVec.eng.phase ≠ .idle) ∧
    (Inv manHost ∧ manHost.inReset = false ∧ manHost.eng.phase = .idle) ∧
    (Inv inResetHost ∧ inResetHost.inReset = true) :=
  ⟨⟨inDecVec_inv, by decide, by decide⟩, ⟨inv_of_idleOk (by decide), by decide, by decide⟩,
    ⟨inv_of_idleOk (by decide), by decide⟩⟩

theorem witness_ResetDuringAccess :
    (Inv inDecVec ∧ (wrAccess .cmd 1).wf = true ∧ inDecVec.inReset = false ∧ inDecVec.eng.phase ≠ .idle) ∧
    (Inv manHost ∧ (wrAccess .cmd 1).wf = true ∧ manHost.inReset = false ∧ manHost.eng.phase = .idle) ∧
    (Inv manHost ∧ (wrAccess .status 6).wf = true ∧ decodeAccess (wrAccess .status 6) ≠ .ok .cmd) ∧
    (Inv inResetHost ∧ (rdAccess .status).wf = true ∧ inResetHost.inReset = true) :=
  ⟨⟨inDecVec_inv, by decide, by decide, by decide⟩, ⟨inv_of_idleOk (by decide), by decide, by decide, by decide⟩,
    ⟨inv_of_idleOk (by decide), by decide, by decide⟩, ⟨inv_of_idleOk (by decide), by decide, by decide⟩⟩

theorem witness_EngineWritesOnlyDestination :
    Inv inDecVec ∧ engineStep inDecVec = .next (after (engineStep inDecVec) inDecVec) := ⟨inDecVec_inv, next_of (by decide +kernel)⟩

/-- The last byte below the register window, the top byte of memory, and, while a command runs, a source byte, a destination
byte and a byte of neither. -/
theorem witness_HostMemoryAccess :
    let free (s : State) (x : Word) := x.toNat < 2 ^ s.params.aw ∧ s.touchesDevice x.toNat 1 = false
    (Inv (paused manHost) ∧ (paused manHost).pace = .steps 0 ∧ (paused manHost).params.memCoherent = true ∧
      free (paused manHost) 0x3FFFFFFF ∧ free (paused manHost) 0xFFFFFFFFFFFFFFFF ∧ (paused manHost).eng.phase = .idle) ∧
    (Inv inDecVec ∧ inDecVec.params.memCoherent = true ∧ inDecVec.eng.phase ≠ .idle ∧
      (free inDecVec 0x1004 ∧ inDecVec.inSource (0x1004 : Word).toNat = true) ∧
      (free inDecVec 0x2000 ∧ inDecVec.inDest (0x2000 : Word).toNat = true) ∧
      (free inDecVec 0x3000 ∧ inDecVec.inDest (0x3000 : Word).toNat = false)) := by
  refine ⟨⟨inv_of_idleOk (by decide), by decide, by decide, by decide, by decide, by decide⟩,
    ⟨inDecVec_inv, by decide, by decide, by decide, by decide, by decide⟩⟩

theorem witness_LaneArithmetic :
    [(5 : Byte), 0].length = [(0 : Byte), 5].length ∧ [(5 : Byte), 0][1]? = some 0 ∧ [(0 : Byte), 5][1]? = some 5 := by decide

theorem witness_LaneMasksAndBits :
    [(5 : Byte)].length = [(7 : Byte)].length ∧ [(0xFF : Byte)].length = [(5 : Byte)].length ∧
    [(0xFF : Byte)][0]? = some 0xFF ∧ [(5 : Byte)][0]? = some 5 ∧ [(7 : Byte)][0]? = some 7 := by decide

/-- Shift amounts 7 and 8, table indices 15 and 16, permute indices at the ends of the source. -/
theorem witness_LaneShiftsTablesPermutes :
    ([(0x80 : Byte), 1][0]? = some 0x80 ∧ [7, 8][0]? = some 7 ∧ [7, 8][1]? = some 8) ∧
    ([(15 : Byte), 16].length ≤ 64 ∧ lut.length = 16 ∧ [(15 : Byte), 16][1]? = some 16) ∧
    ([some 0, some 2, none][1]? = some (some 2)) := by decide

theorem witness_XlateEncIsAlphabet :
    [(0 : Byte), 63].length ≤ 64 ∧ (∀ x ∈ [(0 : Byte), 63], x.toNat < 64) ∧ (63 : Byte).toNat < 64 := by decide

theorem witness_XlateDecInvertsAlphabet :
    ([(0x2F : Byte), 0x3D][0]? = some 0x2F ∧ (63 : Byte).toNat < 64 ∧ (0x2F : Byte) = alpha 63) ∧
    ([(0x2F : Byte), 0x3D][1]? = some 0x3D ∧ ∀ v : Byte, v.toNat < 64 → (0x3D : Byte) ≠ alpha v) := by
  refine ⟨by decide, by decide, ?_⟩
  decide +kernel

theorem witness_PackInvertsFields : (63 : Byte).toNat < 64 ∧ (0 : Byte).toNat < 64 := by decide

theorem witness_ReshufEncGroups :
    let x : List Byte := [1, 2, 3, 4, 5, 6]
    x.length = 3 * 2 ∧ 1 ≤ 2 ∧ 4 * 2 ≤ 64 ∧ 1 < 2 ∧ x[3 * 1]? = some 4 ∧ x[3 * 1 + 1]? = some 5 ∧ x[3 * 1 + 2]? = some 6 := by
  decide

theorem witness_ReshufDecGroups :
    let v : List Byte := [1, 2, 3, 255]
    v.length = 4 * 1 ∧ 1 ≤ 1 ∧ 4 * 1 ≤ 64 ∧ 0 < 1 ∧ v[4 * 0]? = some 1 ∧ v[4 * 0 + 1]? = some 2 ∧ v[4 * 0 + 2]? = some 3 ∧
    v[4 * 0 + 3]? = some 255 := by decide

theorem witness_ReshuffleBijection :
    1 ≤ 16 ∧ 4 * 16 ≤ 64 ∧ (List.replicate 48 (0xFB : Byte)).length = 3 * 16 ∧
    (List.replicate 64 (63 : Byte)).length = 4 * 16 ∧ ∀ f ∈ List.replicate 64 (63 : Byte), f.toNat < 64 := by
  refine ⟨by decide, by decide, by simp, by simp, ?_⟩
  intro f hf
  rw [List.eq_of_mem_replicate hf]; decide

theorem witness_StridesEqualScalarGroups :
    smallBuild.wf = true ∧ [(0x4D : Byte), 0x61, 0x6E].length = smallBuild.encIn ∧
    [(0x54 : Byte), 0x57, 0x46, 0x75].length = smallBuild.decIn ∧
    vany (xlateDec [(0x54 : Byte), 0x57, 0x46, 0x75]).2 = false := by decide +kernel

/-- Each of the three places a byte can stand in, and a text that is Valid. -/
theorem witness_ValidCharacters :
    validText [0x54, 0x51, 0x3D, 0x3D] = true ∧ (0x54 : Byte) = alpha 19 ∧
    [(0x54 : Byte), 0x51, 0x3D, 0x3D][2]? = some 0x3D ∧ 2 + 2 = [(0x54 : Byte), 0x51, 0x3D, 0x3D].length ∧
    [(0x54 : Byte), 0x51, 0x3D, 0x3D][3]? = some 0x3D ∧ 3 + 1 = [(0x54 : Byte), 0x51, 0x3D, 0x3D].length := by decide +kernel

end Sys2Proof.Machine.Tests
end

/-! The vector datapath, lane by lane and group by group: the translators (42_translate.md) and the reshuffles
(43_reshuffle.md). -/

namespace Sys2Proof.Machine

/-! ### The translators, lane by lane (42_translate.md) -/

/-- A constant vector, as a lane-wise image of any vector with as many lanes. -/
theorem vdup_length (k : Int) (v : List Byte) : vdup k v.length = v.map fun _ => BitVec.ofInt 8 k := by
  simp [vdup]

/-- Both builds of the table lookup look every lane up on its own (R11, R80). -/
theorem tableSub_eq_map (impl : TblImpl) (t idx : List Byte) : tableSub impl t idx = idx.map (tableLane t) := by
  cases impl with
  | native128 => rfl
  | split64 => simp only [tableSub, ← List.map_append, List.take_append_drop]

theorem vtbl16_eq_map (impl : TblImpl) (t idx : List Byte) (h : idx.length ≤ 64) :
    vtbl16 impl t idx = idx.map (tableLane t) := by
  have hsplit : idx.take 16 ++ (idx.drop 16).take 16 ++ (idx.drop 32).take 16 ++ (idx.drop 48).take 16 = idx := by
    rw [List.take_of_length_le (l := idx.drop 48) (by simp; omega)]
    have h32 : idx.drop 32 = (idx.drop 32).take 16 ++ idx.drop 48 := by
      simpa using (List.take_append_drop 16 (idx.drop 32)).symm
    have h16 : idx.drop 16 = (idx.drop 16).take 16 ++ idx.drop 32 := by
      simpa using (List.take_append_drop 16 (idx.drop 16)).symm
    rw [List.append_assoc, ← h32, List.append_assoc, ← h16, List.take_append_drop]
  simp only [vtbl16, tableSub_eq_map, ← List.map_append, hsplit]

/-- One lane of XLATE_ENC (R104). -/
def xlateEncLane (x : Byte) : Byte :=
  tableLane lut (qsubLane x 51 - maskLane (25 < x)) + x

theorem xlateEnc_eq_map (impl : TblImpl) (v : List Byte) (h : v.length ≤ 64) :
    xlateEnc impl v = v.map xlateEncLane := by
  simp only [xlateEnc, vdup_length, vqsub, vcgt, vsub, vadd, List.zipWith_map_right, List.zipWith_map_left,
    List.zipWith_self]
  rw [vtbl16_eq_map _ _ _ (by simpa using h), List.map_map, List.zipWith_map_left, List.zipWith_self]
  rfl

/-- One lane of XLATE_ENC is ALPHA on a six-bit field (R106). -/
theorem xlateEncLane_eq_alpha : ∀ x : Byte, x.toNat < 64 → xlateEncLane x = alpha x := by
  decide +kernel

theorem xlateEnc_eq_alpha (impl : TblImpl) (v : List Byte) (h : v.length ≤ 64) (hv : ∀ x ∈ v, x.toNat < 64) :
    xlateEnc impl v = v.map alpha := by
  rw [xlateEnc_eq_map impl v h]
  exact List.map_congr_left fun x hx => xlateEncLane_eq_alpha x (hv x hx)

/-- One lane of the delta XLATE_DEC selects (R109). -/
def decDeltaLane (x : Byte) : Byte := (decDelta [x]).getD 0 0

theorem decDelta_eq_map (c : List Byte) : decDelta c = c.map decDeltaLane := by
  simp only [decDelta, vdup_length, vceq, vcge, vcle, vand, vorr, vbsl, List.map_map, List.zipWith_map_right,
    List.zipWith_map_left, List.zipWith_self]
  rfl

/-- XLATE_DEC of a lane is DEC where that is defined, and BAD elsewhere (R110). -/
theorem decChar_eq_delta : ∀ x : Byte,
    decChar x = if decDeltaLane x = 0 then none else some (x + decDeltaLane x) := by
  decide +kernel

theorem decChar_of_ne_none {x : Byte} (h : decChar x ≠ none) : decChar x = some (x + decDeltaLane x) := by
  rw [decChar_eq_delta] at h ⊢
  split at h
  · exact absurd rfl h
  · rw [if_neg ‹_›]

theorem xlateDec_fields (c : List Byte) : (xlateDec c).1 = c.map fun x => x + decDeltaLane x := by
  simp only [xlateDec, decDelta_eq_map, vadd, List.zipWith_map_right, List.zipWith_self]

/-- A stride has no BAD lane exactly when every character is in the alphabet (R110). -/
theorem vany_xlateDec (c : List Byte) : vany (xlateDec c).2 = false ↔ ∀ x ∈ c, decChar x ≠ none := by
  have hlane : ∀ x : Byte, maskLane (x == 0#8) = 0#8 ↔ ¬x = 0#8 := by
    intro x
    simp [maskLane]
  simp only [xlateDec, vany, decDelta_eq_map, vdup_length, vceq, List.zipWith_map_right, List.zipWith_map_left,
    List.zipWith_self]
  simp [List.any_eq_false, decChar_eq_delta, hlane]

/-! ### The reshuffles, group by group (43_reshuffle.md) -/

/-- One lane of VSHL (R78). -/
def shlLane (x : Byte) (k : Nat) : Byte := if k < 8 then x <<< k else 0

/-- One lane of VSHR (R78). -/
def shrLane (x : Byte) (k : Nat) : Byte := if k < 8 then x >>> k else 0

/-- Lane m of RESHUF_ENC (R115). -/
def reshufEncLane (x : List Byte) (m : Nat) : Byte :=
  (shrLane (shlLane (permLane x (hPat m)) (slAmount m)) (sr1Amount m)
    ||| shrLane (permLane x (loPat m)) (sr2Amount m)) &&& 0x3F

theorem reshufEnc_eq_map (x : List Byte) :
    reshufEnc x = (List.range (4 * (x.length / 3))).map (reshufEncLane x) := by
  have hdup : ∀ n, vdup 0x3F n = (List.range n).map fun _ => (0x3F : Byte) := fun n => by simp [vdup]
  simp only [reshufEnc, hdup, vperm, vshl, vshr, vorr, vand, List.map_map, List.zipWith_map_right,
    List.zipWith_map_left, List.zipWith_self]
  rfl

/-- The H pattern past the first group is the H pattern of the groups after it. -/
theorem permLane_hPat_cons (b0 b1 b2 : Byte) (r : List Byte) (m : Nat) :
    permLane (b0 :: b1 :: b2 :: r) (hPat (4 + m)) = permLane r (hPat m) := by
  have hd : (4 + m) / 4 = m / 4 + 1 := by omega
  simp only [hPat, hd, Nat.add_mod_left]
  rcases m % 4 with _ | _ | _ | k <;> rfl

theorem permLane_loPat_cons (b0 b1 b2 : Byte) (r : List Byte) (m : Nat) :
    permLane (b0 :: b1 :: b2 :: r) (loPat (4 + m)) = permLane r (loPat m) := by
  have hd : (4 + m) / 4 = m / 4 + 1 := by omega
  simp only [loPat, hd, Nat.add_mod_left]
  rcases m % 4 with _ | _ | _ | k <;> rfl

/-- A lane past the first group is the lane of the groups after it. -/
theorem reshufEncLane_cons (b0 b1 b2 : Byte) (r : List Byte) (m : Nat) :
    reshufEncLane (b0 :: b1 :: b2 :: r) (4 + m) = reshufEncLane r m := by
  simp only [reshufEncLane, permLane_hPat_cons, permLane_loPat_cons, slAmount, sr1Amount, sr2Amount,
    Nat.add_mod_left]

theorem reshufEncLane_head (b0 b1 b2 : Byte) (r : List Byte) :
    (List.range 4).map (reshufEncLane (b0 :: b1 :: b2 :: r)) = fields b0 b1 b2 := by
  have key : [b0 >>> 2 &&& 0x3F, (b0 <<< 4 ||| b1 >>> 4) &&& 0x3F, (b1 <<< 2 ||| b2 >>> 6) &&& 0x3F, b2 &&& 0x3F]
      = fields b0 b1 b2 := by
    simp only [fields, List.cons.injEq, and_true]
    refine ⟨?_, ?_, ?_⟩ <;>
      (apply BitVec.eq_of_getLsbD_eq; intro i hi; interval_cases i <;> simp)
  rw [← key]
  simp [List.range_succ, reshufEncLane, hPat, loPat, slAmount, sr1Amount, sr2Amount, byField, permLane, shlLane,
    shrLane]

/-- RESHUF_ENC gives FIELDS of the first group, and goes on with the groups after it (R115). -/
theorem reshufEnc_cons (b0 b1 b2 : Byte) (r : List Byte) :
    reshufEnc (b0 :: b1 :: b2 :: r) = fields b0 b1 b2 ++ reshufEnc r := by
  have hn : 4 * ((r.length + 1 + 1 + 1) / 3) = 4 + 4 * (r.length / 3) := by omega
  rw [reshufEnc_eq_map, reshufEnc_eq_map r]
  simp only [List.length_cons, hn, List.range_add, List.map_append, List.map_map, reshufEncLane_head]
  congr 1
  exact List.map_congr_left fun m _ => reshufEncLane_cons b0 b1 b2 r m

/-- Lane m of RESHUF_DEC (R119). -/
def reshufDecLane (v : List Byte) (m : Nat) : Byte :=
  shlLane (permLane v (aPat m)) (saAmount m) ||| shrLane (permLane v (bPat m)) (sbAmount m)

theorem reshufDec_eq_map (v : List Byte) :
    reshufDec v = (List.range (3 * (v.length / 4))).map (reshufDecLane v) := by
  simp only [reshufDec, vperm, vshl, vshr, vorr, List.map_map, List.zipWith_map_right,
    List.zipWith_map_left, List.zipWith_self]
  rfl

theorem reshufDecLane_cons (f0 f1 f2 f3 : Byte) (r : List Byte) (m : Nat) :
    reshufDecLane (f0 :: f1 :: f2 :: f3 :: r) (3 + m) = reshufDecLane r m := by
  have hd : (3 + m) / 3 = m / 3 + 1 := by omega
  have hp : 4 * (m / 3 + 1) + m % 3 = 4 * (m / 3) + m % 3 + 4 := by omega
  simp only [reshufDecLane, aPat, bPat, saAmount, sbAmount, hd, Nat.add_mod_left, hp]
  rfl

theorem reshufDecLane_head (f0 f1 f2 f3 : Byte) (r : List Byte) :
    (List.range 3).map (reshufDecLane (f0 :: f1 :: f2 :: f3 :: r)) = pack f0 f1 f2 f3 := by
  simp [List.range_succ, reshufDecLane, aPat, bPat, saAmount, sbAmount, byField, permLane, shlLane, shrLane, pack]

/-- RESHUF_DEC gives PACK of the first group, and goes on with the groups after it (R119). -/
theorem reshufDec_cons (f0 f1 f2 f3 : Byte) (r : List Byte) :
    reshufDec (f0 :: f1 :: f2 :: f3 :: r) = pack f0 f1 f2 f3 ++ reshufDec r := by
  have hn : 3 * ((r.length + 1 + 1 + 1 + 1) / 4) = 3 + 3 * (r.length / 4) := by omega
  rw [reshufDec_eq_map, reshufDec_eq_map r]
  simp only [List.length_cons, hn, List.range_add, List.map_append, List.map_map, reshufDecLane_head]
  congr 1
  exact List.map_congr_left fun m _ => reshufDecLane_cons f0 f1 f2 f3 r m

end Sys2Proof.Machine

/-! The texts Enc and Dec, stride by stride (41_loop_driver.md R89, R94; 44_scalar_fallback.md R128). -/

namespace Sys2Proof.Machine

/-! ### Enc -/

theorem encText_append {x : List Byte} (r : List Byte) (h : x.length % 3 = 0) :
    encText (x ++ r) = encText x ++ encText r := by
  match x with
  | [] => rfl
  | [_] => simp at h
  | [_, _] => simp at h
  | b0 :: b1 :: b2 :: x =>
    have hx : x.length % 3 = 0 := by simpa [Nat.add_mod_right, Nat.add_assoc] using h
    simp only [List.cons_append, encText, encText_append r hx, List.append_assoc]

theorem length_encText (x : List Byte) : (encText x).length = 4 * ((x.length + 2) / 3) := by
  match x with
  | [] => rfl
  | [_] => simp [encText, scEncTail, fields]
  | [_, _] => simp [encText, scEncTail, fields]
  | b0 :: b1 :: b2 :: x =>
    simp only [encText, List.length_append, length_scEncGroup, length_encText x, List.length_cons]
    omega

/-- Every lane of RESHUF_ENC is a six-bit field (R115). -/
theorem reshufEnc_lt {x : List Byte} : ∀ f ∈ reshufEnc x, f.toNat < 64 := by
  intro f hf
  rw [reshufEnc_eq_map] at hf
  obtain ⟨m, -, rfl⟩ := List.mem_map.mp hf
  exact Nat.lt_of_le_of_lt (BitVec.toNat_and _ _ ▸ Nat.and_le_right) (by decide)

theorem map_alpha_reshufEnc {x : List Byte} (h : x.length % 3 = 0) : (reshufEnc x).map alpha = encText x := by
  match x with
  | [] => simp [reshufEnc_eq_map, encText]
  | [_] => simp at h
  | [_, _] => simp at h
  | b0 :: b1 :: b2 :: x =>
    have hx : x.length % 3 = 0 := by simpa [Nat.add_mod_right, Nat.add_assoc] using h
    rw [reshufEnc_cons, List.map_append, map_alpha_reshufEnc hx]
    rfl

/-- An encode stride gives the text of its bytes, in both builds of the table (R11, R116). -/
theorem xlateEnc_reshufEnc (impl : TblImpl) {x : List Byte} (h : x.length % 3 = 0) (hl : x.length ≤ 48) :
    xlateEnc impl (reshufEnc x) = encText x := by
  rw [xlateEnc_eq_alpha impl _ (by rw [length_reshufEnc]; omega) reshufEnc_lt, map_alpha_reshufEnc h]

/-! ### Dec -/

/-- A group of four characters of the alphabet is its fields packed, final or not (R125). -/
theorem scDecGroup_alphabet {c0 c1 c2 c3 f0 f1 f2 f3 : Byte} (final : Bool) (h0 : decChar c0 = some f0)
    (h1 : decChar c1 = some f1) (h2 : decChar c2 = some f2) (h3 : decChar c3 = some f3) :
    scDecGroup c0 c1 c2 c3 final = some (pack f0 f1 f2 f3) := by
  simp [scDecGroup, h0, h1, h2, h3]

/-- A group that is not final decodes only if its characters are all in the alphabet. -/
theorem scDecGroup_not_final {c0 c1 c2 c3 : Byte} {o : List Byte} (h : scDecGroup c0 c1 c2 c3 false = some o) :
    decChar c0 ≠ none ∧ decChar c1 ≠ none ∧ decChar c2 ≠ none ∧ decChar c3 ≠ none := by
  unfold scDecGroup at h
  split at h <;> simp_all

/-- A final group with a character out of the alphabet ends in PAD. -/
theorem scDecGroup_final_pad {c0 c1 c2 c3 : Byte} {o : List Byte} (h : scDecGroup c0 c1 c2 c3 true = some o)
    (hbad : ∃ x ∈ [c0, c1, c2, c3], decChar x = none) : c3 = pad := by
  unfold scDecGroup at h
  split at h <;> simp_all

theorem decText_group (c0 c1 c2 c3 : Byte) (r : List Byte) :
    decText (c0 :: c1 :: c2 :: c3 :: r) =
      (scDecGroup c0 c1 c2 c3 r.isEmpty).bind fun o => (decText r).map (o ++ ·) := by
  rw [decText]
  cases scDecGroup c0 c1 c2 c3 r.isEmpty <;> cases decText r <;> rfl

/-- A decode stride without BAD gives the bytes of its groups, wherever it stands in the text (R120). -/
theorem decText_append_stride {c : List Byte} (r : List Byte) (h : c.length % 4 = 0)
    (hc : ∀ x ∈ c, decChar x ≠ none) :
    decText (c ++ r) = (decText r).map (reshufDec (xlateDec c).1 ++ ·) := by
  rw [xlateDec_fields]
  match c with
  | [] => simp [reshufDec_eq_map]
  | [_] => simp at h
  | [_, _] => simp at h
  | [_, _, _] => simp at h
  | c0 :: c1 :: c2 :: c3 :: c =>
    have hx : c.length % 4 = 0 := by simpa [Nat.add_mod_right, Nat.add_assoc] using h
    have hdec : ∀ x ∈ c0 :: c1 :: c2 :: c3 :: c, decChar x = some (x + decDeltaLane x) :=
      fun x hm => decChar_of_ne_none (hc x hm)
    have ih := decText_append_stride r hx fun x hm => hc x (by simp [hm])
    rw [xlateDec_fields] at ih
    simp only [List.cons_append, decText_group, List.map_cons, reshufDec_cons, ih]
    rw [scDecGroup_alphabet _ (hdec c0 (by simp)) (hdec c1 (by simp)) (hdec c2 (by simp)) (hdec c3 (by simp))]
    simp [Function.comp_def]

/-- In a text that decodes, a stride with a BAD lane is the last one, and ends in PAD. -/
theorem decText_append_bad {c r o : List Byte} (h : c.length % 4 = 0) (ho : decText (c ++ r) = some o)
    (hbad : ∃ x ∈ c, decChar x = none) : r = [] ∧ pad ∈ c := by
  match c with
  | [] => simp at hbad
  | [_] => simp at h
  | [_, _] => simp at h
  | [_, _, _] => simp at h
  | c0 :: c1 :: c2 :: c3 :: c =>
    have hx : c.length % 4 = 0 := by simpa [Nat.add_mod_right, Nat.add_assoc] using h
    rw [List.cons_append, List.cons_append, List.cons_append, List.cons_append, decText_group] at ho
    obtain ⟨g, hg, ho⟩ := Option.bind_eq_some_iff.mp ho
    obtain ⟨o', ho', -⟩ := Option.map_eq_some_iff.mp ho
    cases hcr : c ++ r with
    | nil =>
      obtain ⟨rfl, rfl⟩ := List.append_eq_nil_iff.mp hcr
      have : c3 = pad := scDecGroup_final_pad (by simpa using hg) hbad
      simp [this]
    | cons x l =>
      rw [hcr] at hg
      obtain ⟨h0, h1, h2, h3⟩ := scDecGroup_not_final hg
      obtain ⟨hr, hp⟩ := decText_append_bad hx ho' (by simpa [h0, h1, h2, h3] using hbad)
      exact ⟨hr, by simp [hp]⟩

theorem decChar_pad : decChar pad = none := by decide

/-- A stride without BAD holds no PAD. -/
theorem padCount_of_alphabet {c : List Byte} (h : ∀ x ∈ c, decChar x ≠ none) : padCount c = 0 := by
  simp only [padCount, List.length_eq_zero_iff, List.filter_eq_nil_iff, beq_iff_eq]
  rintro x hx rfl
  exact h _ hx decChar_pad

theorem padCount_pos {c : List Byte} (h : pad ∈ c) : 1 ≤ padCount c :=
  List.length_pos_of_mem (List.mem_filter.mpr ⟨h, by simp⟩)

theorem padCount_append (c r : List Byte) : padCount (c ++ r) = padCount c + padCount r := by
  simp [padCount]

end Sys2Proof.Machine

/-! What a step of a command does to its cursors and its memory when the bus answers, and how a command comes to its
end. -/

namespace Sys2Proof.Machine

/-! ### Commands whose ranges the bus answers -/

/-- A running command that no host raced with, and whose ranges are ordinary memory that the bus answers. -/
structure Served (s : State) : Prop where
  inv : Inv s
  notRaced : s.raced = false
  sourceOk : s.admits s.eng.src.toNat s.eng.len.toNat = true
  destOk : s.admits s.eng.dst.toNat s.dstSize = true

/-- The source bytes the pass has still to read. -/
def restSource (s : State) : List Byte := Memory.readBytes s.mem (srcCursor s) (remaining s)

@[simp] theorem length_restSource (s : State) : (restSource s).length = remaining s :=
  Memory.length_readBytes _ _ _

/-- The next n source bytes, and what is then left. -/
theorem restSource_split {s : State} {n : Nat} (h : n ≤ remaining s) :
    restSource s = Memory.readBytes s.mem (srcCursor s) n ++
      Memory.readBytes s.mem (srcCursor s + n) (remaining s - n) := by
  rw [← Memory.readBytes_add, Nat.add_sub_cancel' h, restSource]

/-- t is s after n source bytes, k destination bytes and v strides of its pass, with the bytes l written and the next
step in phase f. -/
structure Advanced (f : Phase) (n k v : Nat) (l : List Byte) (s t : State) : Prop where
  keeps : EngineKeeps s t
  regs : t.regs = s.regs
  raced : t.raced = s.raced
  phase : t.eng.phase = f
  pass : t.eng.pass = s.eng.pass
  rd : t.eng.rd.toNat = s.eng.rd.toNat + n
  wr : t.eng.wr.toNat = s.eng.wr.toNat + k
  ns : t.eng.ns.toNat = s.eng.ns.toNat + v
  mem : t.mem = Memory.writeBytes s.mem (dstCursor s) l
  rest : restSource s = Memory.readBytes s.mem (srcCursor s) n ++ restSource t

theorem EngineKeeps.dstSize {s t : State} (h : EngineKeeps s t) : t.dstSize = s.dstSize := by
  obtain ⟨hcmd, -, hlen, -⟩ := h.latched
  simp only [State.dstSize, hcmd, hlen]

/-- A step of a served command that goes on leaves a served command. -/
theorem Served.step {s t : State} (h : Served s) (he : engineStep s = .next t) (hr : t.raced = false) : Served t := by
  have hk := engineStep_keeps he
  obtain ⟨-, hsrc, hlen, hdst⟩ := hk.latched
  have hg : Good (engineStep s) := engineStep_good h.inv
  rw [he] at hg
  refine ⟨hg, hr, ?_, ?_⟩
  · rw [admits_congr hk.regions hk.params, hsrc, hlen]; exact h.sourceOk
  · rw [admits_congr hk.regions hk.params, hdst, hk.dstSize]; exact h.destOk

section
variable {f : Phase} {n k v : Nat} {l out : List Byte} {s t : State}

theorem Advanced.remaining (h : Advanced f n k v l s t) : remaining t = remaining s - n := by
  have := h.keeps.latched.2.2.1
  simp only [Machine.remaining, this, h.rd]
  omega

theorem Advanced.served (h : Advanced f n k v l s t) (hs : Served s) (he : engineStep s = .next t) : Served t :=
  hs.step he (h.raced.trans hs.notRaced)

/-- What is written after the step continues what the step wrote. -/
theorem Advanced.writeBytes (h : Advanced f n l.length v l s t) (out : List Byte) :
    Memory.writeBytes t.mem (dstCursor t) out = Memory.writeBytes s.mem (dstCursor s) (l ++ out) := by
  have hd : dstCursor t = dstCursor s + l.length := by
    have := h.keeps.latched.2.2.2
    simp only [dstCursor, this, h.wr]
    omega
  rw [h.mem, hd, ← Memory.writeBytes_append]

theorem advanced_refl (s : State) : Advanced s.eng.phase 0 0 0 [] s s :=
  ⟨.refl s, rfl, rfl, rfl, rfl, rfl, rfl, rfl, rfl, rfl⟩

/-- A change of phase moves no cursor and writes nothing. -/
theorem advanced_setPhase (f : Phase) (q : VReg) (s : State) : Advanced f 0 0 0 [] s (setPhase f (setVReg q s)) :=
  ⟨((EngineKeeps.refl s).setVReg q).setPhase f, rfl, rfl, rfl, rfl, rfl, rfl, rfl, rfl, rfl⟩
end

/-- s with another memory and other vector and group registers. -/
def worked (m : List Host.Cell) (q : VReg) (g : Group) (s : State) : State :=
  { s with mem := m, eng := { s.eng with q := q, grp := g } }

theorem worked_keeps (m : List Host.Cell) (q : VReg) (g : Group) (s : State) : EngineKeeps s (worked m q g s) :=
  ⟨rfl, rfl, rfl, rfl, rfl, rfl, ⟨rfl, rfl, rfl⟩, rfl, ⟨rfl, rfl, rfl, rfl⟩⟩

/-- What a step that moves the cursors within the ranges of the command does. The bytes it writes are no source bytes,
so the rest of the source is what it was (60_exceptions.md R134). -/
theorem advanced_moveCursors {s : State} (h : Inv s) (hr : rangeFails s = false) {n k v : Nat} {l : List Byte}
    (q : VReg) (g : Group) (hpos : 0 < remaining s) (hn : n ≤ remaining s) (hl : l.length ≤ k)
    (hk : s.eng.wr.toNat + k ≤ s.dstSize) (hv : s.eng.ns.toNat + v < s.params.space) :
    Advanced s.eng.phase n k v l s
      (moveCursors n k v (worked (Memory.writeBytes s.mem (dstCursor s) l) q g s)) := by
  have hlen := h.latchedFit.2.1
  have hrem : remaining s = s.eng.len.toNat - s.eng.rd.toNat := rfl
  have hdst := dstSize_lt hr (by omega)
  obtain ⟨hrd, hwr, hns⟩ := moveCursors_exact (s := worked (Memory.writeBytes s.mem (dstCursor s) l) q g s)
    (n := n) (k := k) (v := v) h.params (by simp only [worked]; omega)
    (by simp only [worked]; omega) hv
  refine ⟨?_, rfl, rfl, rfl, rfl, hrd, hwr, hns, rfl, ?_⟩
  · exact (worked_keeps _ q g s).moveCursors n k v
  · have hrest : restSource (moveCursors n k v (worked (Memory.writeBytes s.mem (dstCursor s) l) q g s)) =
        Memory.readBytes (Memory.writeBytes s.mem (dstCursor s) l) (srcCursor s + n) (remaining s - n) := by
      simp only [restSource, srcCursor, remaining, hrd, moveCursors_eng_src, moveCursors_eng_len, moveCursors_mem]
      simp only [worked, Nat.add_assoc, Nat.sub_sub]
    rw [hrest, restSource_split hn]
    congr 1
    rcases Nat.eq_zero_or_pos (remaining s - n) with h0 | h0
    · simp only [h0, Memory.readBytes]
    · rcases Nat.eq_zero_or_pos l.length with hl0 | hl0
      · rw [List.length_eq_zero_iff.mp hl0]; rfl
      · refine (Memory.readBytes_writeBytes_disjoint h.memWf ?_).symm
        simp only [rangeFails, rangesOverlap, Bool.or_eq_false_iff, Bool.and_eq_false_iff,
          decide_eq_false_iff_not] at hr
        unfold srcCursor dstCursor
        omega

/-! ### Reaching the end of a command -/

/-- The engine completes the command of s within n steps, with a code and counts, and leaves memory m. -/
def CompletesIn (n : Nat) (s : State) (c : ResultCode) (m : List Host.Cell) (count strides : Nat) : Prop :=
  ∃ t, engineRun n s = .next t ∧ t.eng.phase = .idle ∧ t.mem = m ∧
    t.regs = { s.regs with
      status := s.regs.status.finish c
      resultCount := BitVec.ofNat 64 count
      resultStrides := BitVec.ofNat 64 strides }

theorem engineRun_idle {s : State} (n : Nat) (h : s.eng.phase = .idle) : engineRun n s = .next s := by
  cases n with
  | zero => rfl
  | succ n => simp [engineRun, h]

theorem engineRun_step {s t : State} (n : Nat) (h : s.eng.phase ≠ .idle) (he : engineStep s = .next t) :
    engineRun (n + 1) s = engineRun n t := by
  simp [engineRun, h, he]

theorem CompletesIn.of_step {n : Nat} {s t : State} {c : ResultCode} {m : List Host.Cell} {count strides : Nat}
    (h : CompletesIn n t c m count strides) (hp : s.eng.phase ≠ .idle) (he : engineStep s = .next t)
    (hregs : t.regs = s.regs) : CompletesIn (n + 1) s c m count strides := by
  obtain ⟨u, hu, hi, hm, hr⟩ := h
  exact ⟨u, (engineRun_step n hp he).trans hu, hi, hm, hregs ▸ hr⟩

/-- A step of a loop hands what is still to be written and counted on to the rest of the loop. -/
theorem CompletesIn.of_advanced {m n v strides : Nat} {f : Phase} {l out : List Byte} {s t : State} {c : ResultCode}
    (h : CompletesIn m t c (Memory.writeBytes t.mem (dstCursor t) out) (t.eng.wr.toNat + out.length)
      (t.eng.ns.toNat + strides))
    (ha : Advanced f n l.length v l s t) (hp : s.eng.phase ≠ .idle) (he : engineStep s = .next t) :
    CompletesIn (m + 1) s c (Memory.writeBytes s.mem (dstCursor s) (l ++ out)) (s.eng.wr.toNat + (l ++ out).length)
      (s.eng.ns.toNat + (v + strides)) := by
  have := h.of_step hp he ha.regs
  rwa [ha.writeBytes, ha.wr, ha.ns, Nat.add_assoc, Nat.add_assoc, ← List.length_append] at this

/-- A step that finishes with OK gives the cursors as counts (41_loop_driver.md R85). -/
theorem completesIn_ok {n v : Nat} {f : Phase} {l : List Byte} {s t : State} (m : Nat)
    (ha : Advanced f n l.length v l s t) (hr : s.raced = false) (hp : s.eng.phase ≠ .idle)
    (he : engineStep s = .next (finish .ok t)) :
    CompletesIn (m + 1) s .ok (Memory.writeBytes s.mem (dstCursor s) l) (s.eng.wr.toNat + l.length)
      (s.eng.ns.toNat + v) := by
  rw [finish_of_not_raced _ (ha.raced.trans hr)] at he
  refine ⟨_, (engineRun_step m hp he).trans (engineRun_idle m rfl), rfl, ha.mem, ?_⟩
  simp [complete, ha.regs, ← ha.wr, ← ha.ns]

/-- A step that finishes with any other code gives counts of 0 (41_loop_driver.md R85). -/
theorem completesIn_failed {s t : State} (n : Nat) {c : ResultCode} (hc : c ≠ .ok) (hp : s.eng.phase ≠ .idle)
    (he : engineStep s = .next (finish c t)) (hregs : t.regs = s.regs) (hr : t.raced = false) :
    CompletesIn (n + 1) s c t.mem 0 0 := by
  rw [finish_of_not_raced _ hr] at he
  refine ⟨_, (engineRun_step n hp he).trans (engineRun_idle n rfl), rfl, rfl, ?_⟩
  simp [complete, hregs, hc]

/-! ### MemRead and MemWrite at the cursors of a served command -/

theorem Served.memRead_next {s : State} (h : Served s) (hr : rangeFails s = false)
    (hle : s.eng.rd.toNat ≤ s.eng.len.toNat) {n : Nat} (hn : n ≤ remaining s)
    (k : List Byte → State → Host.Outcome State Fault Refusal) :
    memRead (srcCursor s) n s k = k (Memory.readBytes s.mem (srcCursor s) n) s := by
  have hb := (rangeFails_bounds hr).1
  unfold remaining at hn
  exact memRead_admitted k (by unfold srcCursor; omega)
    (admits_of_subrange h.sourceOk (by unfold srcCursor; omega) (by unfold srcCursor; omega))

/-- The memory is written from the state in which the step has loaded the vector or the group register. -/
theorem Served.memWrite_next {s : State} (h : Served s) (hr : rangeFails s = false) {l : List Byte}
    (hl : s.eng.wr.toNat + l.length ≤ s.dstSize) (q : VReg) (g : Group)
    (k : State → Host.Outcome State Fault Refusal) :
    memWrite (dstCursor s) l (worked s.mem q g s) k =
      k (worked (Memory.writeBytes s.mem (dstCursor s) l) q g s) := by
  have hb := (rangeFails_bounds hr).2
  have hd : (worked s.mem q g s).admits (dstCursor s) l.length = true :=
    (admits_congr rfl rfl).trans
      (admits_of_subrange h.destOk (by unfold dstCursor; omega) (by unfold dstCursor; omega))
  exact memWrite_admitted k (by show dstCursor s + _ ≤ s.params.space; unfold dstCursor; omega) hd

end Sys2Proof.Machine

/-! ENCODE, from step to step and to its end (41_loop_driver.md R87 to R89). -/

namespace Sys2Proof.Machine

/-! ### The steps of ENCODE (41_loop_driver.md R87, R88) -/

/-- The vector registers hold the text of the stride they were given (R87, R116). -/
theorem lanes_encStride {p : Params} (hp : p.wf = true) (q : VReg) {x : List Byte} (hx : x.length = p.encIn) :
    (encStride p q x).lanes p.encOut = encText x := by
  obtain ⟨-, h48, h3, -, -, -⟩ := wf_strides hp
  have hout : p.encOut = 4 * (p.encIn / 3) := by unfold Params.encOut; omega
  have hfields : (reshufEnc x).length = p.encOut := by rw [length_reshufEnc, hx, hout]
  have htext : xlateEnc p.tblImpl (reshufEnc x) = encText x :=
    xlateEnc_reshufEnc p.tblImpl (by omega) (by omega)
  have hlen : (encText x).length = p.encOut := by rw [length_encText]; omega
  rw [encStride, VReg.lanes_load q x _ hx (by omega), VReg.lanes_load _ _ _ hfields (by omega), htext,
    VReg.lanes_load _ _ _ hlen (by omega)]

section
variable {s : State}

/-- A stride of ENC_VEC (R87). -/
theorem Served.encVec_stride (h : Served s) (hp : s.eng.phase = .encVec) (hle : s.params.encIn ≤ remaining s) :
    let out := encText (Memory.readBytes s.mem (srcCursor s) s.params.encIn)
    ∃ t, engineStep s = .next t ∧ Advanced .encVec s.params.encIn out.length 1 out s t := by
  intro out
  have hc := h.inv.cursors
  simp only [CursorInv, hp] at hc
  obtain ⟨hcmd, -, hrf, hrd, hns, hwr⟩ := hc
  obtain ⟨h3, -, hmod, -, -, -⟩ := wf_strides h.inv.params
  have hrem : remaining s = s.eng.len.toNat - s.eng.rd.toNat := rfl
  have hds := dstSize_encode hcmd
  have hlen : out.length = 4 * (s.params.encIn / 3) := by
    simp only [out, length_encText, Memory.length_readBytes]; omega
  have hout : s.params.encOut = out.length := by rw [hlen]; unfold Params.encOut; omega
  have hrd3 : s.eng.rd.toNat % 3 = 0 := by rw [hns, Nat.mul_mod, hmod]; simp
  have hnsle : s.eng.ns.toNat ≤ s.eng.rd.toNat := by rw [hns]; exact Nat.le_mul_of_pos_right _ (by omega)
  have hsp := h.inv.latchedFit.2.1
  let q := encStride s.params s.eng.q (Memory.readBytes s.mem (srcCursor s) s.params.encIn)
  have hq : q.lanes s.params.encOut = out := lanes_encStride h.inv.params _ (Memory.length_readBytes _ _ _)
  refine ⟨moveCursors s.params.encIn out.length 1
    (worked (Memory.writeBytes s.mem (dstCursor s) out) q s.eng.grp s), ?_, ?_⟩
  · simp only [engineStep, hp, stepEncVec, if_pos hle]
    rw [h.memRead_next hrf hrd hle]
    change memWrite (dstCursor s) (q.lanes s.params.encOut) (worked s.mem q s.eng.grp s) _ = _
    rw [hq, h.memWrite_next hrf (by omega), hout]
  · exact hp ▸ advanced_moveCursors h.inv hrf q s.eng.grp (by omega) hle le_rfl (by omega) (by omega)

/-- ENC_VEC without a whole stride left (R87). -/
theorem encVec_end (hp : s.eng.phase = .encVec) (hlt : remaining s < s.params.encIn) :
    ∃ t, engineStep s = .next t ∧ Advanced .encTail 0 0 0 [] s t :=
  ⟨_, by simp only [engineStep, hp, stepEncVec, if_neg (Nat.not_le.mpr hlt)]; rfl,
    advanced_setPhase .encTail s.eng.q s⟩

/-- A whole group of ENC_TAIL (R88). -/
theorem Served.encTail_group (h : Served s) (hp : s.eng.phase = .encTail) (hle : 3 ≤ remaining s) :
    let out := encText (Memory.readBytes s.mem (srcCursor s) 3)
    ∃ t, engineStep s = .next t ∧ Advanced .encTail 3 out.length 0 out s t := by
  intro out
  have hc := h.inv.cursors
  simp only [CursorInv, hp] at hc
  obtain ⟨hcmd, -, hrf, hrd3, hrd, hwr⟩ := hc
  have hrem : remaining s = s.eng.len.toNat - s.eng.rd.toNat := rfl
  have hds := dstSize_encode hcmd
  let g := s.eng.grp.load (Memory.readBytes s.mem (srcCursor s) 3)
  have hg : scEncGroup g.b0 g.b1 g.b2 = out := (List.append_nil _).symm
  have hlen : out.length = 4 := by rw [← hg, length_scEncGroup]
  refine ⟨moveCursors 3 out.length 0 (worked (Memory.writeBytes s.mem (dstCursor s) out) s.eng.q g s), ?_, ?_⟩
  · simp only [engineStep, hp, stepEncTail, if_pos hle]
    rw [h.memRead_next hrf hrd hle]
    change memWrite (dstCursor s) (scEncGroup g.b0 g.b1 g.b2) (worked s.mem s.eng.q g s) _ = _
    rw [hg, h.memWrite_next hrf (by omega), hlen]
  · exact hp ▸ advanced_moveCursors h.inv hrf s.eng.q g (by omega) hle le_rfl (by omega) h.inv.cursorsFit.2.2

theorem scEncTail_eq_encText {l : List Byte} (h0 : 0 < l.length) (h3 : l.length < 3) : scEncTail l = encText l := by
  match l with
  | [] => simp at h0
  | [_] => rfl
  | [_, _] => rfl
  | _ :: _ :: _ :: _ => simp at h3; omega

/-- The last step of ENCODE: no byte is left, or a short group (R88). -/
theorem Served.encTail_last (h : Served s) (hp : s.eng.phase = .encTail) (hlt : remaining s < 3) :
    let out := encText (restSource s)
    ∃ t, engineStep s = .next (finish .ok t) ∧ Advanced .encTail (remaining s) out.length 0 out s t := by
  intro out
  have hc := h.inv.cursors
  simp only [CursorInv, hp] at hc
  obtain ⟨hcmd, -, hrf, hrd3, hrd, hwr⟩ := hc
  have hrem : remaining s = s.eng.len.toNat - s.eng.rd.toNat := rfl
  have hds := dstSize_encode hcmd
  rcases Nat.eq_zero_or_pos (remaining s) with h0 | h0
  · have hout : out = [] := by simp only [out, restSource, h0, Memory.readBytes, encText]
    rw [hout, h0]
    exact ⟨s, by simp [engineStep, hp, stepEncTail, h0], hp ▸ advanced_refl s⟩
  · let g := s.eng.grp.load (restSource s)
    have hg : scEncTail (g.bytes (remaining s)) = out := by
      have hb := Group.bytes_load s.eng.grp (restSource s) (by simp; omega)
      rw [length_restSource] at hb
      rw [hb, scEncTail_eq_encText (by simpa using h0) (by simpa using hlt)]
    have hlen : out.length = 4 := by simp only [out, length_encText, length_restSource]; omega
    refine ⟨moveCursors (remaining s) out.length 0
      (worked (Memory.writeBytes s.mem (dstCursor s) out) s.eng.q g s), ?_, ?_⟩
    · simp only [engineStep, hp, stepEncTail, if_neg (Nat.not_le.mpr hlt), if_neg h0.ne']
      rw [h.memRead_next hrf hrd le_rfl]
      change memWrite (dstCursor s) (scEncTail (g.bytes (remaining s))) (worked s.mem s.eng.q g s) _ = _
      rw [hg, h.memWrite_next hrf (by omega), hlen]
    · exact hp ▸ advanced_moveCursors h.inv hrf s.eng.q g h0 le_rfl le_rfl (by omega) h.inv.cursorsFit.2.2

/-! ### ENCODE from a phase to its end (R89) -/

/-- The text of the rest is the text of a step's bytes and the text of what is then left. -/
theorem Advanced.encText_rest {f : Phase} {n k v : Nat} {l : List Byte} {t : State} (h : Advanced f n k v l s t)
    (hn : n % 3 = 0) :
    encText (restSource s) = encText (Memory.readBytes s.mem (srcCursor s) n) ++ encText (restSource t) := by
  rw [h.rest, encText_append _ (by simpa using hn)]

/-- ENCODE from ENC_TAIL on. -/
theorem Served.encTail_completes (n : Nat) (h : Served s) (hp : s.eng.phase = .encTail)
    (hn : remaining s / 3 + 1 ≤ n) :
    CompletesIn n s .ok (Memory.writeBytes s.mem (dstCursor s) (encText (restSource s)))
      (s.eng.wr.toNat + (encText (restSource s)).length) s.eng.ns.toNat := by
  induction n generalizing s with
  | zero => omega
  | succ n ih =>
    by_cases hle : 3 ≤ remaining s
    · obtain ⟨t, he, ha⟩ := h.encTail_group hp hle
      have hrem := ha.remaining
      have := (ih (ha.served h he) ha.phase (by omega)).of_advanced (strides := 0) ha (by simp [hp]) he
      rwa [← ha.encText_rest rfl] at this
    · obtain ⟨t, he, ha⟩ := h.encTail_last hp (by omega)
      exact completesIn_ok n ha h.notRaced (by simp [hp]) he

/-- ENCODE from ENC_VEC on: a stride for each whole stride that is left. -/
theorem Served.encVec_completes (n : Nat) (h : Served s) (hp : s.eng.phase = .encVec)
    (hn : remaining s / 3 + 2 ≤ n) :
    CompletesIn n s .ok (Memory.writeBytes s.mem (dstCursor s) (encText (restSource s)))
      (s.eng.wr.toNat + (encText (restSource s)).length) (s.eng.ns.toNat + remaining s / s.params.encIn) := by
  obtain ⟨h3, -, hmod, -, -, -⟩ := wf_strides h.inv.params
  induction n generalizing s with
  | zero => omega
  | succ n ih =>
    by_cases hle : s.params.encIn ≤ remaining s
    · obtain ⟨t, he, ha⟩ := h.encVec_stride hp hle
      have hrem := ha.remaining
      have hpar := ha.keeps.params
      have := (ih (ha.served h he) ha.phase (by omega) (by rwa [hpar]) (by rwa [hpar])).of_advanced ha (by simp [hp]) he
      rw [← ha.encText_rest hmod, hrem, hpar, Nat.add_comm 1, ← Nat.div_eq_sub_div (by omega) hle] at this
      exact this
    · obtain ⟨t, he, ha⟩ := encVec_end hp (by omega)
      have hrem := ha.remaining
      have := ((ha.served h he).encTail_completes n ha.phase (by omega)).of_advanced (l := []) (strides := 0) ha
        (by simp [hp]) he
      rw [Nat.div_eq_of_lt (by omega), ha.encText_rest rfl]
      exact this

end
end Sys2Proof.Machine

/-! The steps of DECODE (41_loop_driver.md R92, R93). -/

namespace Sys2Proof.Machine

/-- What a step of DECODE writes of the bytes it decoded: nothing in the VALIDATE pass. -/
def passOut (s : State) (out : List Byte) : List Byte :=
  match s.eng.pass with
  | .validate => []
  | .write => out

theorem length_passOut_le (s : State) (out : List Byte) : (passOut s out).length ≤ out.length := by
  unfold passOut; split <;> simp

/-- The strides a pass of DECODE has still to count, when its source is Valid (R94). -/
def restStrides (s : State) : Nat :=
  if s.eng.phase = .decVec then decStrides s.params (remaining s) (padCount (restSource s)) else 0

/-- The most steps a pass of DECODE has still to take before it comes to the end of its source. -/
def passSteps (s : State) : Nat := remaining s / 4 + if s.eng.phase = .decVec then 1 else 0

section
variable {s : State}

/-- A stride of DEC_VEC whose characters are all in the alphabet (R92). -/
theorem Served.decVec_stride (h : Served s) (hp : s.eng.phase = .decVec) (hle : s.params.decIn ≤ remaining s)
    (hc : ∀ x ∈ Memory.readBytes s.mem (srcCursor s) s.params.decIn, decChar x ≠ none) :
    let out := reshufDec (xlateDec (Memory.readBytes s.mem (srcCursor s) s.params.decIn)).1
    ∃ t, engineStep s = .next t ∧ Advanced .decVec s.params.decIn out.length 1 (passOut s out) s t := by
  intro out
  have hcur := h.inv.cursors
  simp only [CursorInv, hp] at hcur
  obtain ⟨hcmd, -, hrf, hl4, hr4, hrd, hns, hwr⟩ := hcur
  obtain ⟨-, -, -, h4, h64, hmod⟩ := wf_strides h.inv.params
  have hrem : remaining s = s.eng.len.toNat - s.eng.rd.toNat := rfl
  have hds := dstSize_decode hcmd
  have hsp := h.inv.latchedFit.2.1
  have hnsle : s.eng.ns.toNat ≤ s.eng.rd.toNat := by rw [hns]; exact Nat.le_mul_of_pos_right _ (by omega)
  let c := Memory.readBytes s.mem (srcCursor s) s.params.decIn
  have hcl : c.length = s.params.decIn := Memory.length_readBytes _ _ _
  have hv : (xlateDec c).1.length = s.params.decIn := by rw [xlateDec_fields, List.length_map, hcl]
  have hlen : out.length = 3 * (s.params.decIn / 4) := by rw [length_reshufDec, hv]
  have hout : s.params.decOut = out.length := by rw [hlen]; unfold Params.decOut; omega
  have hbad : vany (xlateDec c).2 = false := (vany_xlateDec c).mpr hc
  let q1 := (s.eng.q.load c).load (xlateDec c).1
  let q2 := q1.load (reshufDec (q1.lanes s.params.decIn))
  have hq1 : q1.lanes s.params.decIn = (xlateDec c).1 := VReg.lanes_load _ _ _ hv h64
  have hq2 : q2.lanes s.params.decOut = out := by
    simp only [q2, hq1]
    exact VReg.lanes_load _ _ _ hout.symm (by omega)
  have hstep : engineStep s = match s.eng.pass with
      | .validate => .next (moveCursors s.params.decIn s.params.decOut 1 (worked s.mem q1 s.eng.grp s))
      | .write => memWrite (dstCursor s) (q2.lanes s.params.decOut) (worked s.mem q2 s.eng.grp s)
          fun s' => .next (moveCursors s.params.decIn s.params.decOut 1 s') := by
    simp only [engineStep, hp, stepDecVec, if_pos hle]
    rw [h.memRead_next hrf hrd hle, VReg.lanes_load _ _ _ hcl h64, hbad]
    rfl
  have ha (q : VReg) := hp ▸ advanced_moveCursors h.inv hrf q s.eng.grp (by omega) hle (length_passOut_le s out)
    (by omega) (v := 1) (by omega)
  rw [hq2, hout] at hstep
  cases hpass : s.eng.pass with
  | validate =>
    refine ⟨_, ?_, ha q1⟩
    simp only [hstep, hpass, passOut]
    rfl
  | write =>
    refine ⟨_, ?_, ha q2⟩
    simp only [hstep, hpass, passOut]
    rw [h.memWrite_next hrf (by omega)]

/-- DEC_VEC without a whole stride left, or with a stride that has a BAD lane (R92). -/
theorem Served.decVec_leave (h : Served s) (hp : s.eng.phase = .decVec)
    (hc : remaining s < s.params.decIn ∨
      ∃ x ∈ Memory.readBytes s.mem (srcCursor s) s.params.decIn, decChar x = none) :
    ∃ t, engineStep s = .next t ∧ Advanced .decTail 0 0 0 [] s t := by
  have hcur := h.inv.cursors
  simp only [CursorInv, hp] at hcur
  obtain ⟨-, -, hrf, -, -, hrd, -, -⟩ := hcur
  obtain ⟨-, -, -, h4, h64, hmod⟩ := wf_strides h.inv.params
  by_cases hle : s.params.decIn ≤ remaining s
  · obtain ⟨x, hx, hxb⟩ := hc.resolve_left (by omega)
    let c := Memory.readBytes s.mem (srcCursor s) s.params.decIn
    have hcl : c.length = s.params.decIn := Memory.length_readBytes _ _ _
    have hbad : vany (xlateDec c).2 = true := by
      rw [← Bool.not_eq_false, vany_xlateDec]
      exact fun hall => hall x hx hxb
    refine ⟨_, ?_, advanced_setPhase .decTail (s.eng.q.load c) s⟩
    simp only [engineStep, hp, stepDecVec, if_pos hle]
    rw [h.memRead_next hrf hrd hle, VReg.lanes_load _ _ _ hcl h64, hbad]
    rfl
  · refine ⟨_, ?_, advanced_setPhase .decTail s.eng.q s⟩
    simp only [engineStep, hp, stepDecVec, if_neg hle]
    rfl

/-- The next group of the source, decoded (R93). -/
def nextGroup (s : State) : Option (List Byte) :=
  let c (i : Nat) := Memory.read s.mem (srcCursor s + i)
  scDecGroup (c 0) (c 1) (c 2) (c 3) (remaining s == 4)

/-- The text of the rest is the next group, and the text of what is then left. -/
theorem decText_restSource {r : List Byte} (h : restSource s = Memory.readBytes s.mem (srcCursor s) 4 ++ r) :
    decText (restSource s) = (nextGroup s).bind fun o => (decText r).map (o ++ ·) := by
  have hl : remaining s = 4 + r.length := by simpa using congrArg List.length h
  have hfinal : r.isEmpty = (remaining s == 4) := by
    rw [Bool.eq_iff_iff, List.isEmpty_iff, ← List.length_eq_zero_iff, beq_iff_eq]
    omega
  rw [h, nextGroup, ← hfinal]
  exact decText_group _ _ _ _ r

/-- DEC_TAIL with a group left, as the bus answers it (R93). -/
theorem Served.engineStep_decTail (h : Served s) (hp : s.eng.phase = .decTail) (hrf : rangeFails s = false)
    (hrd : s.eng.rd.toNat ≤ s.eng.len.toNat) (hle : 4 ≤ remaining s) :
    ∃ g, engineStep s =
      match nextGroup s with
      | none => .next (finish .invalid (worked s.mem s.eng.q g s))
      | some o =>
        match s.eng.pass with
        | .validate => .next (moveCursors 4 o.length 0 (worked s.mem s.eng.q g s))
        | .write => memWrite (dstCursor s) o (worked s.mem s.eng.q g s)
            fun s' => .next (moveCursors 4 o.length 0 s') := by
  refine ⟨s.eng.grp.load (Memory.readBytes s.mem (srcCursor s) 4), ?_⟩
  have h0 : remaining s ≠ 0 := by omega
  simp only [engineStep, hp, stepDecTail, if_neg h0]
  rw [h.memRead_next hrf hrd hle]
  rfl

/-- A group of DEC_TAIL: its bytes, or the end of the command with INVALID (R93). -/
theorem Served.decTail_group (h : Served s) (hp : s.eng.phase = .decTail) (hpos : 0 < remaining s) :
    (∃ t out, engineStep s = .next t ∧ Advanced .decTail 4 out.length 0 (passOut s out) s t ∧
      decText (restSource s) = (decText (restSource t)).map (out ++ ·)) ∨
    (∃ t, engineStep s = .next (finish .invalid t) ∧ Advanced .decTail 0 0 0 [] s t ∧
      decText (restSource s) = none) := by
  have hcur := h.inv.cursors
  simp only [CursorInv, hp] at hcur
  obtain ⟨hcmd, -, hrf, hl4, hr4, hrd, -, hwr⟩ := hcur
  have hrem : remaining s = s.eng.len.toNat - s.eng.rd.toNat := rfl
  have hds := dstSize_decode hcmd
  have hle : 4 ≤ remaining s := by omega
  have hwr := hwr (by omega)
  obtain ⟨g, hstep⟩ := h.engineStep_decTail hp hrf hrd hle
  cases hd : nextGroup s with
  | none =>
    refine .inr ⟨worked s.mem s.eng.q g s, by rw [hstep, hd], ?_, ?_⟩
    · exact ⟨worked_keeps _ _ g s, rfl, rfl, hp, rfl, rfl, rfl, rfl, rfl, rfl⟩
    · rw [decText_restSource (restSource_split hle), hd]
      rfl
  | some out =>
    obtain ⟨-, ho3, -⟩ := scDecGroup_length hd
    have ha := hp ▸ advanced_moveCursors h.inv hrf s.eng.q g hpos hle (length_passOut_le s out) (by omega)
      (v := 0) h.inv.cursorsFit.2.2
    refine .inl ⟨_, out, ?_, ha, ?_⟩
    · rw [hstep, hd]
      cases hpass : s.eng.pass with
      | validate => simp only [passOut, hpass]; rfl
      | write => simp only [passOut, hpass]; rw [h.memWrite_next hrf (by omega)]
    · rw [decText_restSource ha.rest, hd]
      rfl

end
end Sys2Proof.Machine

/-! The two passes of DECODE to their ends (41_loop_driver.md R91, R94). -/

namespace Sys2Proof.Machine

/-! ### RESULT_STRIDES of a pass of DECODE (41_loop_driver.md R94) -/

theorem decStrides_of_lt {p : Params} {m q : Nat} (h : m < p.decIn) : decStrides p m q = 0 := by
  simp [decStrides, Nat.div_eq_of_lt h]

/-- The stride that holds the padding is not counted. -/
theorem decStrides_of_pad {p : Params} {q : Nat} (h0 : 0 < p.decIn) (hq : 1 ≤ q) : decStrides p p.decIn q = 0 := by
  simp [decStrides, Nat.div_self h0, hq]

/-- A stride that is not the last one with padding counts one. -/
theorem decStrides_of_stride {p : Params} {m q : Nat} (hv : p.variant = .full) (h0 : 0 < p.decIn) (hle : p.decIn ≤ m)
    (hq : m = p.decIn → q = 0) : decStrides p m q = 1 + decStrides p (m - p.decIn) q := by
  obtain ⟨k, rfl⟩ := Nat.exists_eq_add_of_le hle
  have hmod : (p.decIn + k) % p.decIn = k % p.decIn := Nat.add_mod_left _ _
  have hdiv : (p.decIn + k) / p.decIn = k / p.decIn + 1 := by rw [Nat.add_comm, Nat.add_div_right _ h0]
  rw [Nat.add_sub_cancel_left]
  simp only [decStrides, hv, if_true, hmod, hdiv]
  rcases Nat.eq_zero_or_pos k with rfl | hk
  · simp [hq rfl]
  · by_cases hd : 1 ≤ k / p.decIn
    · simp only [hd, Nat.le_add_left, true_and]
      split <;> omega
    · have hlt : k < p.decIn := by
        by_contra hge
        exact hd (Nat.div_pos (by omega) h0)
      have hne : k % p.decIn ≠ 0 := by rw [Nat.mod_eq_of_lt hlt]; omega
      simp only [hne, false_and, and_false, if_false]
      omega

/-! ### A pass of DECODE from step to step -/

/-- A step of a pass that goes on: it decodes out, moves the pass on, and counts v strides if the source is Valid. -/
structure PassStep (v : Nat) (out : List Byte) (s t : State) : Prop where
  step : engineStep s = .next t
  advanced : ∃ f n, (f = .decVec ∨ f = .decTail) ∧ Advanced f n out.length v (passOut s out) s t
  fewer : passSteps t < passSteps s
  text : decText (restSource s) = (decText (restSource t)).map (out ++ ·)
  strides : decText (restSource s) ≠ none → restStrides s = v + restStrides t

section
variable {s : State}

@[simp] theorem passOut_nil (s : State) : passOut s [] = [] := by unfold passOut; split <;> rfl

/-- A stride whose characters are all in the alphabet is a step of the pass that counts (R92). -/
theorem Served.decVec_counts (h : Served s) (hp : s.eng.phase = .decVec) (hle : s.params.decIn ≤ remaining s)
    (hc : ∀ x ∈ Memory.readBytes s.mem (srcCursor s) s.params.decIn, decChar x ≠ none) :
    ∃ t out, PassStep 1 out s t := by
  have hcur := h.inv.cursors
  simp only [CursorInv, hp] at hcur
  obtain ⟨-, hv, -, -, -, -, -, -⟩ := hcur
  obtain ⟨-, -, -, h4, -, hmod⟩ := wf_strides h.inv.params
  obtain ⟨t, he, ha⟩ := h.decVec_stride hp hle hc
  have hrem := ha.remaining
  have hs : restStrides s = decStrides s.params (remaining s) (padCount (restSource s)) := if_pos hp
  have ht : restStrides t = decStrides t.params (remaining t) (padCount (restSource t)) := if_pos ha.phase
  refine ⟨t, _, he, ⟨_, _, .inl rfl, ha⟩, ?_, ?_, fun _ => ?_⟩
  · simp only [passSteps, hp, ha.phase, hrem]
    omega
  · rw [ha.rest, decText_append_stride _ (by rwa [Memory.length_readBytes]) hc]
  · have hpads : padCount (restSource s) = padCount (restSource t) := by
      rw [ha.rest, padCount_append, padCount_of_alphabet hc, Nat.zero_add]
    rw [hs, ht, hrem, hpads, ha.keeps.params]
    refine decStrides_of_stride hv (by omega) hle fun hlast => ?_
    have hnil : restSource t = [] := List.eq_nil_of_length_eq_zero (by rw [length_restSource]; omega)
    rw [hnil]
    rfl

/-- A pass over a Valid source counts no stride any more once DEC_VEC finds no whole stride, or a BAD lane: that can only
be the padding at the end. -/
theorem restStrides_of_leave (hp : s.eng.phase = .decVec) (hwf : s.params.wf = true)
    (hc : remaining s < s.params.decIn ∨
      ∃ x ∈ Memory.readBytes s.mem (srcCursor s) s.params.decIn, decChar x = none)
    (hvalid : decText (restSource s) ≠ none) : restStrides s = 0 := by
  obtain ⟨-, -, -, h4, -, hmod⟩ := wf_strides hwf
  have hs : restStrides s = decStrides s.params (remaining s) (padCount (restSource s)) := if_pos hp
  rw [hs]
  rcases Nat.lt_or_ge (remaining s) s.params.decIn with hlt | hle
  · exact decStrides_of_lt hlt
  · obtain ⟨o, ho⟩ := Option.ne_none_iff_exists'.mp hvalid
    rw [restSource_split hle] at ho
    obtain ⟨hnil, hpad⟩ :=
      decText_append_bad (by rwa [Memory.length_readBytes]) ho (hc.resolve_left (by omega))
    have hlast : remaining s = s.params.decIn := by
      have := congrArg List.length hnil
      rw [Memory.length_readBytes, List.length_nil] at this
      omega
    rw [hlast]
    refine decStrides_of_pad (by omega) ?_
    rw [restSource_split hle, padCount_append]
    exact Nat.le_add_right_of_le (padCount_pos hpad)

/-- DEC_VEC counts a stride, or leaves the rest to DEC_TAIL (R92). -/
theorem Served.decVec_step (h : Served s) (hp : s.eng.phase = .decVec) : ∃ t v out, PassStep v out s t := by
  by_cases hgood : s.params.decIn ≤ remaining s ∧
      ∀ x ∈ Memory.readBytes s.mem (srcCursor s) s.params.decIn, decChar x ≠ none
  · obtain ⟨t, out, ht⟩ := h.decVec_counts hp hgood.1 hgood.2
    exact ⟨t, 1, out, ht⟩
  · have hbad : remaining s < s.params.decIn ∨
        ∃ x ∈ Memory.readBytes s.mem (srcCursor s) s.params.decIn, decChar x = none := by
      by_contra hno
      push Not at hno
      exact hgood hno
    obtain ⟨t, he, ha⟩ := h.decVec_leave hp hbad
    have ht : restStrides t = 0 := by simp [restStrides, ha.phase]
    refine ⟨t, 0, [], he, ⟨_, _, .inr rfl, by simpa using ha⟩, ?_, ?_, fun hvalid => ?_⟩
    · simp [passSteps, hp, ha.phase, ha.remaining]
    · rw [ha.rest]
      simp [Memory.readBytes]
    · rw [restStrides_of_leave hp h.inv.params hbad hvalid, ht]

/-- DEC_TAIL decodes a group, or finds that the source is not Valid (R93). -/
theorem Served.decTail_step (h : Served s) (hp : s.eng.phase = .decTail) (hpos : 0 < remaining s) :
    (∃ t v out, PassStep v out s t) ∨
    (∃ t, engineStep s = .next (finish .invalid t) ∧ Advanced .decTail 0 0 0 [] s t ∧
      decText (restSource s) = none) := by
  refine (h.decTail_group hp hpos).imp_left ?_
  rintro ⟨t, out, he, ha, htext⟩
  have hrem := ha.remaining
  have hlen := congrArg List.length ha.rest
  rw [List.length_append, Memory.length_readBytes, length_restSource, length_restSource] at hlen
  refine ⟨t, 0, out, he, ⟨_, _, .inr rfl, ha⟩, ?_, htext, fun _ => ?_⟩
  · simp only [passSteps, hp, ha.phase]
    omega
  · simp [restStrides, hp, ha.phase]

/-- What a pass of DECODE can do: go on, find that the source is not Valid, or come to its end. -/
theorem Served.decode_step (h : Served s) (hp : s.eng.phase = .decVec ∨ s.eng.phase = .decTail) :
    (∃ t v out, PassStep v out s t) ∨
    (∃ t, engineStep s = .next (finish .invalid t) ∧ Advanced .decTail 0 0 0 [] s t ∧
      decText (restSource s) = none) ∨
    (s.eng.phase = .decTail ∧ remaining s = 0 ∧ decText (restSource s) = some []) := by
  rcases hp with hp | hp
  · exact .inl (h.decVec_step hp)
  · rcases Nat.eq_zero_or_pos (remaining s) with h0 | hpos
    · exact .inr (.inr ⟨hp, h0, by simp [restSource, h0, Memory.readBytes, decText]⟩)
    · exact (h.decTail_step hp hpos).imp_right .inl

theorem PassStep.served {v : Nat} {out : List Byte} {t : State} (h : PassStep v out s t) (hs : Served s) :
    Served t ∧ (t.eng.phase = .decVec ∨ t.eng.phase = .decTail) ∧ t.eng.pass = s.eng.pass := by
  obtain ⟨f, n, hf, ha⟩ := h.advanced
  exact ⟨ha.served hs h.step, ha.phase ▸ hf, ha.pass⟩

theorem ne_idle_of_decoding (hp : s.eng.phase = .decVec ∨ s.eng.phase = .decTail) : s.eng.phase ≠ .idle := by
  rcases hp with hp | hp <;> simp [hp]

/-- The WRITE pass over a source that is Valid, to its end (R94). -/
theorem Served.write_completes (n : Nat) {o : List Byte} (h : Served s)
    (hp : s.eng.phase = .decVec ∨ s.eng.phase = .decTail) (hpass : s.eng.pass = .write)
    (ho : decText (restSource s) = some o) (hn : passSteps s < n) :
    CompletesIn n s .ok (Memory.writeBytes s.mem (dstCursor s) o) (s.eng.wr.toNat + o.length)
      (s.eng.ns.toNat + restStrides s) := by
  induction n generalizing s o with
  | zero => omega
  | succ n ih =>
    rcases h.decode_step hp with ⟨t, v, out, hst⟩ | ⟨t, -, -, hnone⟩ | ⟨htail, h0, hnil⟩
    · obtain ⟨f, k, -, ha⟩ := hst.advanced
      obtain ⟨hserved, hp', hpass'⟩ := hst.served h
      obtain ⟨o', ho', rfl⟩ := Option.map_eq_some_iff.mp (hst.text.symm.trans ho)
      simp only [passOut, hpass] at ha
      have := (ih hserved hp' (hpass'.trans hpass) ho' (by have := hst.fewer; omega)).of_advanced ha
        (ne_idle_of_decoding hp) hst.step
      rwa [← hst.strides (by simp [ho])] at this
    · simp [ho] at hnone
    · obtain rfl : o = [] := by simpa [ho] using hnil
      have hz : restStrides s = 0 := by simp [restStrides, htail]
      rw [hz]
      exact completesIn_ok (l := []) n (advanced_refl s) h.notRaced (ne_idle_of_decoding hp)
        (by simp [engineStep, htail, stepDecTail, h0, hpass])

/-- A step of the VALIDATE pass writes nothing (R91). -/
theorem PassStep.validated {v : Nat} {out : List Byte} {t : State} (h : PassStep v out s t)
    (hpass : s.eng.pass = .validate) :
    t.mem = s.mem ∧ t.regs = s.regs ∧ t.params = s.params ∧
      t.eng.src = s.eng.src ∧ t.eng.len = s.eng.len ∧ t.eng.dst = s.eng.dst := by
  obtain ⟨f, n, -, ha⟩ := h.advanced
  obtain ⟨-, hl⟩ := ha.keeps.latched
  simp only [passOut, hpass] at ha
  exact ⟨ha.mem, ha.regs, ha.keeps.params, hl⟩

/-- The VALIDATE pass over a source that is not Valid ends the command with INVALID, and writes nothing (R94). -/
theorem Served.validate_invalid (n : Nat) (h : Served s) (hp : s.eng.phase = .decVec ∨ s.eng.phase = .decTail)
    (hpass : s.eng.pass = .validate) (ho : decText (restSource s) = none) (hn : passSteps s < n) :
    CompletesIn n s .invalid s.mem 0 0 := by
  induction n generalizing s with
  | zero => omega
  | succ n ih =>
    rcases h.decode_step hp with ⟨t, v, out, hst⟩ | ⟨t, he, ha, -⟩ | ⟨-, -, hnil⟩
    · obtain ⟨hserved, hp', hpass'⟩ := hst.served h
      obtain ⟨hmem, hregs, -⟩ := hst.validated hpass
      have ho' : decText (restSource t) = none := by simpa [ho] using hst.text.symm
      have := ih hserved hp' (hpass'.trans hpass) ho' (by have := hst.fewer; omega)
      exact hmem ▸ this.of_step (ne_idle_of_decoding hp) hst.step hregs
    · have hm : t.mem = s.mem := ha.mem
      exact hm ▸ completesIn_failed n (by decide) (ne_idle_of_decoding hp) he ha.regs (ha.raced.trans h.notRaced)
    · simp [ho] at hnil

/-- The source of the running command. -/
def wholeSource (s : State) : List Byte := Memory.readBytes s.mem s.eng.src.toNat s.eng.len.toNat

/-- The WRITE pass from its start (R91). -/
theorem Served.startWritePass_completes (n : Nat) {o : List Byte} (h : Served (startWritePass s))
    (ho : decText (wholeSource s) = some o) (hn : s.eng.len.toNat / 4 + 1 < n) :
    CompletesIn n (startWritePass s) .ok (Memory.writeBytes s.mem s.eng.dst.toNat o) o.length
      (decStrides s.params s.eng.len.toNat (padCount (wholeSource s))) := by
  have hrest : restSource (startWritePass s) = wholeSource s := rfl
  have hremaining : remaining (startWritePass s) = s.eng.len.toNat := rfl
  have hphase : (startWritePass s).eng.phase = decStart s.params := rfl
  have hp : decStart s.params = .decVec ∨ decStart s.params = .decTail := by unfold decStart; split <;> simp
  have hstrides : restStrides (startWritePass s) = decStrides s.params s.eng.len.toNat (padCount (wholeSource s)) := by
    simp only [restStrides, hrest, hremaining, hphase, decStart]
    by_cases hv : s.params.variant = .full
    · simp only [hv, if_true]; rfl
    · simp [hv, decStrides]
  have := h.write_completes n (hphase ▸ hp) rfl (hrest ▸ ho) (by
    simp only [passSteps, hremaining]; split <;> omega)
  rw [hstrides] at this
  simpa [startWritePass, dstCursor] using this

/-- The VALIDATE pass over a source that is Valid, and then the WRITE pass (R91, R94). -/
theorem Served.validate_valid (n : Nat) {o : List Byte} (h : Served s)
    (hp : s.eng.phase = .decVec ∨ s.eng.phase = .decTail) (hpass : s.eng.pass = .validate)
    (hrest : decText (restSource s) ≠ none) (ho : decText (wholeSource s) = some o)
    (hn : passSteps s + s.eng.len.toNat / 4 + 2 < n) :
    CompletesIn n s .ok (Memory.writeBytes s.mem s.eng.dst.toNat o) o.length
      (decStrides s.params s.eng.len.toNat (padCount (wholeSource s))) := by
  induction n generalizing s with
  | zero => omega
  | succ n ih =>
    rcases h.decode_step hp with ⟨t, v, out, hst⟩ | ⟨t, -, -, hnone⟩ | ⟨htail, h0, -⟩
    · obtain ⟨hserved, hp', hpass'⟩ := hst.served h
      obtain ⟨hmem, hregs, hparams, hsrc, hlen, hdst⟩ := hst.validated hpass
      have hwhole : wholeSource t = wholeSource s := by simp only [wholeSource, hmem, hsrc, hlen]
      have hrest' : decText (restSource t) ≠ none := by
        intro hnone
        simp [hst.text, hnone] at hrest
      have := ih hserved hp' (hpass'.trans hpass) hrest' (hwhole ▸ ho)
        (by have := hst.fewer; rw [hlen]; omega)
      rw [hmem, hdst, hparams, hlen, hwhole] at this
      exact this.of_step (ne_idle_of_decoding hp) hst.step hregs
    · exact absurd hnone hrest
    · have he : engineStep s = .next (startWritePass s) := by simp [engineStep, htail, stepDecTail, h0, hpass]
      exact ((h.step he h.notRaced).startWritePass_completes n ho (by omega)).of_step (ne_idle_of_decoding hp) he rfl

end
end Sys2Proof.Machine

/-! A command from its CMD write to its end, and what the build changes of it (00_scope.md R8, R9, R11). -/

namespace Sys2Proof.Machine

/-! ### A command from CHECK to its end -/

section
variable {s : State}

theorem checkCode_ne_ok (s : State) : checkCode s ≠ some .ok := by
  unfold checkCode
  repeat' split
  all_goals simp

/-- A command that passes CHECK, and whose ranges are ordinary memory, starts its loop (41_loop_driver.md R84). -/
theorem Served.engineStep_check (h : Served s) (hp : s.eng.phase = .check) (hc : checkCode s = none) :
    engineStep s = .next (startCommand s) := by
  obtain ⟨hsrc, hdst⟩ := And.intro h.sourceOk h.destOk
  simp only [State.admits, Bool.and_eq_true, Bool.not_eq_true'] at hsrc hdst
  simp [engineStep, hp, stepCheck, hc, touchesSideEffects, hsrc.2, hdst.2]

/-- ENCODE of a command that passes CHECK (41_loop_driver.md R89). -/
theorem Served.encode_completes (h : Served s) (hp : s.eng.phase = .check) (hcmd : s.eng.cmd = 1)
    (hc : checkCode s = none) :
    CompletesIn (stepBound s) s .ok (Memory.writeBytes s.mem s.eng.dst.toNat (encText (wholeSource s)))
      (encText (wholeSource s)).length (encStrides s.params s.eng.len.toNat) := by
  have he := h.engineStep_check hp hc
  have hstart : startCommand s = startLoop s.eng.pass (encStart s.params) s := if_pos hcmd
  rw [hstart] at he
  have hserved := h.step he h.notRaced
  have hbound : stepBound s = (s.eng.len.toNat + 2) / 3 + 2 + 1 := if_pos hcmd
  rw [hbound]
  refine CompletesIn.of_step ?_ (by simp [hp]) he rfl
  have hrem : remaining (startLoop s.eng.pass (encStart s.params) s) = s.eng.len.toNat := rfl
  by_cases hv : s.params.variant = .full
  · have := hserved.encVec_completes ((s.eng.len.toNat + 2) / 3 + 2) (if_pos hv) (by omega)
    simpa [encStrides, hv, hrem, restSource, wholeSource, srcCursor, dstCursor] using this
  · have := hserved.encTail_completes ((s.eng.len.toNat + 2) / 3 + 2) (if_neg hv) (by omega)
    simpa [encStrides, hv, hrem, restSource, wholeSource, srcCursor, dstCursor] using this

/-- The VALIDATE pass of a command that passes CHECK, at its start. -/
theorem Served.startCommand_decode (h : Served s) (hp : s.eng.phase = .check) (hcmd : s.eng.cmd = 2)
    (hc : checkCode s = none) :
    let t := startLoop .validate (decStart s.params) s
    engineStep s = .next t ∧ Served t ∧ (t.eng.phase = .decVec ∨ t.eng.phase = .decTail) ∧
      passSteps t ≤ s.eng.len.toNat / 4 + 1 ∧ stepBound s = s.eng.len.toNat / 2 + 4 + 1 := by
  intro t
  have hne : s.eng.cmd ≠ 1 := by rw [hcmd]; decide
  have he := h.engineStep_check hp hc
  have hstart : startCommand s = t := if_neg hne
  rw [hstart] at he
  have hrem : remaining t = s.eng.len.toNat := rfl
  refine ⟨he, h.step he h.notRaced, ?_, ?_, if_neg hne⟩
  · simp only [t, startLoop_eng_phase, decStart]
    split <;> simp
  · simp only [passSteps, hrem]
    split <;> omega

/-- DECODE of a Valid source (41_loop_driver.md R94). -/
theorem Served.decode_valid (h : Served s) (hp : s.eng.phase = .check) (hcmd : s.eng.cmd = 2)
    (hc : checkCode s = none) {o : List Byte} (ho : decText (wholeSource s) = some o) :
    CompletesIn (stepBound s) s .ok (Memory.writeBytes s.mem s.eng.dst.toNat o) o.length
      (decStrides s.params s.eng.len.toNat (padCount (wholeSource s))) := by
  obtain ⟨he, hserved, hphase, hsteps, hbound⟩ := h.startCommand_decode hp hcmd hc
  have hrest : restSource (startLoop .validate (decStart s.params) s) = wholeSource s := rfl
  rw [hbound]
  exact (hserved.validate_valid _ hphase rfl (by simp [hrest, ho]) ho
    (by simp only [startLoop_eng_len]; omega)).of_step (by simp [hp]) he rfl

/-- DECODE of a source that is not Valid (41_loop_driver.md R94). -/
theorem Served.decode_invalid (h : Served s) (hp : s.eng.phase = .check) (hcmd : s.eng.cmd = 2)
    (hc : checkCode s = none) (ho : decText (wholeSource s) = none) :
    CompletesIn (stepBound s) s .invalid s.mem 0 0 := by
  obtain ⟨he, hserved, hphase, hsteps, hbound⟩ := h.startCommand_decode hp hcmd hc
  rw [hbound]
  exact (hserved.validate_invalid _ hphase rfl ho (by omega)).of_step (by simp [hp]) he rfl

end

/-- What the command of a state in CHECK comes to when the bus answers: its code, and the bytes it writes at E.dst. -/
def commandResult (s : State) : ResultCode × List Byte :=
  match checkCode s with
  | some c => (c, [])
  | none =>
    if s.eng.cmd = 1 then (.ok, encText (wholeSource s))
    else
      match decText (wholeSource s) with
      | some o => (.ok, o)
      | none => (.invalid, [])

/-- Every served command completes within the bound of R156, with the result its source and its ranges determine. -/
theorem Served.command_completes {s : State} (h : Served s) (hp : s.eng.phase = .check) :
    ∃ strides, CompletesIn (stepBound s) s (commandResult s).1
      (Memory.writeBytes s.mem s.eng.dst.toNat (commandResult s).2) (commandResult s).2.length strides := by
  cases hc : checkCode s with
  | some c =>
    have hok : c ≠ .ok := fun h => checkCode_ne_ok s (h ▸ hc)
    have hpos : stepBound s = stepBound s - 1 + 1 := by unfold stepBound; split <;> omega
    have he : engineStep s = .next (finish c s) := by simp [engineStep, hp, stepCheck, hc]
    simp only [commandResult, hc]
    rw [hpos]
    exact ⟨0, completesIn_failed _ hok (by simp [hp]) he rfl h.notRaced⟩
  | none =>
    by_cases hcmd : s.eng.cmd = 1
    · simp only [commandResult, hc, hcmd, if_true]
      exact ⟨_, h.encode_completes hp hcmd hc⟩
    · have hcmd2 : s.eng.cmd = 2 := (checkCode_none hc).1.resolve_left hcmd
      cases ho : decText (wholeSource s) with
      | some o =>
        simp only [commandResult, hc, hcmd, if_false, ho]
        exact ⟨_, h.decode_valid hp hcmd2 hc ho⟩
      | none =>
        simp only [commandResult, hc, hcmd, if_false, ho]
        exact ⟨0, h.decode_invalid hp hcmd2 hc ho⟩

/-! ### From a CMD write to the command's end -/

/-- A word that decodes is the word of the command it names (30_encoding.md R61, R62). -/
theorem eq_encode_of_decodeWord {w : Word} {i : Instr} (h : decodeWord w = .ok i) : w = encode i := by
  have hw : w = Word.rsvd w ++ Word.opcode w := by
    apply BitVec.eq_of_getLsbD_eq
    intro j hj
    simp only [Word.rsvd, Word.opcode, BitVec.getLsbD_append, BitVec.getLsbD_extractLsb']
    split
    · simp only [Nat.zero_add, ‹j < 8›, decide_true, Bool.true_and]
    · simp only [show j - 8 < 56 by omega, show 8 + (j - 8) = j by omega, decide_true, Bool.true_and]
  unfold decodeWord at h
  split at h
  · cases h
  · have hr : Word.rsvd w = 0 := not_not.mp ‹_›
    split at h
    · cases h; rw [hw, hr, ‹Word.opcode w = 1›]; rfl
    · split at h
      · cases h; rw [hw, hr, ‹Word.opcode w = 2›]; rfl
      · cases h

/-- A CMD write presents its word, legal or not (41_loop_driver.md R82, R83). -/
theorem writeCmd_eq_issue (w : Word) (s : State) : writeCmd w s = issue w s := by
  unfold writeCmd
  cases h : decodeWord w with
  | error e => rfl
  | ok i =>
    rw [eq_encode_of_decodeWord h]
    cases i <;> rfl

/-- A command accepted from a ready state, with ranges that the bus answers. -/
theorem served_accept {s : State} (h : Ready s) (w : Word) (hsrc : s.admits s.src s.len = true)
    (hdst : s.admits s.dst (outmax w s.len) = true) : Served (accept w s) := by
  obtain ⟨e1, e2, e3⟩ := accept_latches h.inv w
  refine ⟨accept_inv h.inv h.released w, rfl, ?_, ?_⟩
  · rw [admits_congr (accept_regions w s) (accept_params w s), e1, e2]; exact hsrc
  · rw [admits_congr (accept_regions w s) (accept_params w s), State.dstSize, e2, e3]; exact hdst

/-- A CMD write to a ready block whose ranges the bus answers, to the end of its command. -/
theorem writeCmd_completes {s : State} (h : Ready s) (w : Word) (hsrc : s.admits s.src s.len = true)
    (hdst : s.admits s.dst (outmax w s.len) = true) :
    ∃ t strides, writeCmd w s = .next t ∧
      t.mem = Memory.writeBytes s.mem s.dst (commandResult (accept w s)).2 ∧
      t.regs = s.completedRegs (commandResult (accept w s)).1 (commandResult (accept w s)).2.length strides := by
  obtain ⟨strides, t, ht, -, hmem, hregs⟩ := (served_accept h w hsrc hdst).command_completes rfl
  refine ⟨t, strides, ?_, ?_, hregs⟩
  · rw [writeCmd_eq_issue, issue_ready h, ht]
  · rw [hmem, (accept_latches h.inv w).2.2]; rfl

/-! ### Two builds of one machine (00_scope.md R8, R9, R11) -/

/-- The state in a build with other strides, VARIANT and TBL_IMPL. -/
def rebuilt (encIn decIn : Nat) (v : Variant) (b : TblImpl) (s : State) : State :=
  { s with params := { s.params with encIn := encIn, decIn := decIn, variant := v, tblImpl := b } }

section
variable {s : State} (encIn decIn : Nat) {v : Variant} (b : TblImpl)

/-- CHECK asks of the build only whether it has a datapath (60_exceptions.md R131). -/
theorem checkCode_rebuilt (hs : s.params.variant ≠ .stub) (hv : v ≠ .stub) :
    checkCode (rebuilt encIn decIn v b s) = checkCode s := by
  have hr : rangeFails (rebuilt encIn decIn v b s) = rangeFails s := rfl
  have hv' : (rebuilt encIn decIn v b s).params.variant ≠ .stub := hv
  simp only [checkCode, hr, if_neg hs, if_neg hv']
  rfl

theorem commandResult_rebuilt (hs : s.params.variant ≠ .stub) (hv : v ≠ .stub) :
    commandResult (rebuilt encIn decIn v b s) = commandResult s := by
  simp only [commandResult, checkCode_rebuilt encIn decIn b hs hv]
  rfl

end

/-- Settles O31: both builds complete with the same result, since only CHECK's question about STUB and the
strides they count look at the build. -/
theorem stridesAndBuildsAgree : Obligations.StridesAndBuildsAgree := by
  intro s w encIn decIn v b s' hs hs' hvar hv hsrc hdst
  obtain ⟨t, strides, ht, hmem, hregs⟩ := writeCmd_completes hs w hsrc hdst
  obtain ⟨t', strides', ht', hmem', hregs'⟩ := writeCmd_completes hs' w
    ((admits_congr rfl rfl).trans hsrc) ((admits_congr rfl rfl).trans hdst)
  have hsame : commandResult (accept w s') = commandResult (accept w s) :=
    commandResult_rebuilt (s := accept w s) encIn decIn b hvar hv
  rw [hsame] at hmem' hregs'
  refine ⟨t, t', ht, ht', hmem'.trans hmem.symm, ?_⟩
  rw [hregs, hregs']
  rfl

end Sys2Proof.Machine

/-! No step changes the build or the platform (00_scope.md section 4). -/

namespace Sys2Proof.Machine

/-- An outcome whose next state, if there is one, has the build and the platform of s. -/
def BuildKept (s : State) : Host.Outcome State Fault Refusal → Prop
  | .next t => t.params = s.params ∧ t.regions = s.regions
  | .fault _ => True
  | .refused _ => True

section
variable {s : State}

theorem engineStep_buildKept (s : State) : BuildKept s (engineStep s) := by
  cases h : engineStep s with
  | next t => exact ⟨(engineStep_keeps h).params, (engineStep_keeps h).regions⟩
  | fault f => trivial
  | refused r => trivial

/-- The engine's run from a state u of the same build as s. -/
theorem advance_buildKept {u : State} (hp : u.params = s.params) (hr : u.regions = s.regions) :
    BuildKept s (advance u) := by
  cases h : advance u with
  | next t => exact ⟨(advance_keeps h).params.trans hp, (advance_keeps h).regions.trans hr⟩
  | fault f => trivial
  | refused r => trivial

theorem writeCmd_buildKept (w : Word) (s : State) : BuildKept s (writeCmd w s) := by
  rw [writeCmd_eq_issue, issue]
  split
  · exact ⟨rfl, rfl⟩
  · split
    · exact advance_buildKept rfl rfl
    · exact advance_buildKept rfl rfl

theorem hostWrite_buildKept (r : RegName) (w : Word) (s : State) : BuildKept s (hostWrite r w s) := by
  unfold hostWrite
  split
  · exact writeCmd_buildKept w s
  · exact advance_buildKept (writeReg_params _ w s) (writeReg_regions _ w s)

theorem hostAccess_buildKept (t : Transaction) (s : State) : BuildKept s (hostAccess t s) := by
  unfold hostAccess
  split
  · trivial
  · split
    · exact ⟨rfl, rfl⟩
    · split
      · exact advance_buildKept rfl rfl
      · exact hostWrite_buildKept _ _ s

theorem hostWait_buildKept (s : State) : BuildKept s (hostWait s) := by
  have h := hostAccess_buildKept (rdAccess .status) s
  unfold hostWait
  split
  · rename_i t ht
    rw [ht] at h
    show BuildKept s (.next (if waitsOn t.response then _ else t))
    split <;> exact h
  · trivial
  · trivial

theorem hostMemRead_buildKept (a : Nat) (s : State) : BuildKept s (hostMemRead a s) := by
  unfold hostMemRead
  split
  · split <;> exact advance_buildKept rfl rfl
  · trivial

theorem hostMemWrite_buildKept (a : Nat) (b : Byte) (s : State) : BuildKept s (hostMemWrite a b s) := by
  unfold hostMemWrite
  split
  · dsimp only
    split <;> exact advance_buildKept rfl rfl
  · trivial

theorem hostReset_buildKept (level : Bool) (s : State) : BuildKept s (hostReset level s) := by
  unfold hostReset
  split
  · show BuildKept s (.next (if s.inReset then s else resetBlock s))
    split
    · exact ⟨rfl, rfl⟩
    · exact ⟨resetBlock_params s, resetBlock_regions s⟩
  · exact ⟨rfl, rfl⟩

/-- The reset of the block after an access of the same build. -/
theorem resetBlock_buildKept {u : State} (h : BuildKept s (.next u)) : BuildKept s (.next (resetBlock u)) :=
  ⟨(resetBlock_params u).trans h.1, (resetBlock_regions u).trans h.2⟩

theorem hostResetDuring_buildKept (t : Transaction) (s : State) : BuildKept s (hostResetDuring t s) := by
  unfold hostResetDuring
  split
  · trivial
  · split
    · exact ⟨rfl, rfl⟩
    · rename_i r _ _
      have h := hostWrite_buildKept r t.data { s with draws := s.draws + 1, pace := .steps 0 }
      dsimp only
      split
      · exact resetBlock_buildKept ⟨rfl, rfl⟩
      · split
        · split
          · rename_i u hu
            rw [hu] at h
            exact resetBlock_buildKept h
          · trivial
          · trivial
        · exact resetBlock_buildKept ⟨rfl, rfl⟩

theorem hostReleaseDuring_buildKept (t : Transaction) (s : State) : BuildKept s (hostReleaseDuring t s) := by
  unfold hostReleaseDuring
  split
  · trivial
  · split
    · dsimp only
      split
      · exact advance_buildKept rfl rfl
      · split
        · exact hostWrite_buildKept _ t.data { s with draws := s.draws + 1, inReset := false }
        · exact advance_buildKept rfl rfl
    · exact hostAccess_buildKept t s

theorem perform_buildKept (a : HostAction) (s : State) : BuildKept s (perform a s) := by
  cases a with
  | access t => exact hostAccess_buildKept t s
  | wait => exact hostWait_buildKept s
  | memRead x => exact hostMemRead_buildKept x.toNat s
  | memWrite x b => exact hostMemWrite_buildKept x.toNat b s
  | resetInput level => exact hostReset_buildKept level s
  | resetDuring t => exact hostResetDuring_buildKept t s
  | releaseDuring t => exact hostReleaseDuring_buildKept t s

theorem step_buildKept (s : State) : BuildKept s (step s) := by
  unfold step
  split
  · exact engineStep_buildKept s
  · exact perform_buildKept _ (takeTurn _ _ s)

end

/-- Settles O39: by cases on the host action, each of which ends in a run of the engine or in a reset. -/
theorem stepKeepsBuild : Obligations.StepKeepsBuild := by
  intro s t h
  have hk := step_buildKept s
  rwa [h] at hk

end Sys2Proof.Machine

/-! The register window (10_state.md section 2): the map of its offsets, accesses that are well-formed and those
that are refused, what a write changes, and the words of STATUS and CAPS. -/

namespace Sys2Proof

/-! ### The register map (10_state.md R24, R25) -/

/-- An aligned offset below the reserved ones is that of a named register. -/
theorem RegName.offset_ofOffset : ∀ o : BitVec 8, o.toNat % 8 = 0 → o.toNat < 0x48 →
    (RegName.ofOffset o).offset = o ∧ RegName.ofOffset o ≠ .reserved := by decide

theorem RegName.ofOffset_reserved : ∀ o : BitVec 8, 0x48 ≤ o.toNat → RegName.ofOffset o = .reserved := by decide

theorem RegName.ofOffset_offset (r : RegName) : RegName.ofOffset r.offset = r := by cases r <;> decide

theorem RegName.offset_aligned (r : RegName) : r.offset.toNat % 8 = 0 := by cases r <;> rfl

theorem decodeAccess_of_width {t : Transaction} (h : t.width ≠ 64) : decodeAccess t = .error .width := by
  simp [decodeAccess, h]

theorem decodeAccess_of_misaligned {t : Transaction} (hw : t.width = 64) (h : t.offset.toNat % 8 ≠ 0) :
    decodeAccess t = .error .misaligned := by
  simp [decodeAccess, hw, h]

theorem decodeAccess_of_wf {t : Transaction} (h : t.wf = true) : decodeAccess t = .ok (RegName.ofOffset t.offset) := by
  simp only [Transaction.wf, Bool.and_eq_true, beq_iff_eq] at h
  simp [decodeAccess, h]

theorem Transaction.aligned_of_wf {t : Transaction} (h : t.wf = true) : t.offset.toNat % 8 = 0 := by
  simp only [Transaction.wf, Bool.and_eq_true, beq_iff_eq] at h
  exact h.2

/-- A write by name, as a 64-bit access at the register's offset (30_encoding.md R67). -/
@[simp] theorem decodeAccess_wrAccess (r : RegName) (v : Word) : decodeAccess (wrAccess r v) = .ok r := by
  simp [decodeAccess, wrAccess, r.offset_aligned, r.ofOffset_offset]

@[simp] theorem decodeAccess_rdAccess (r : RegName) : decodeAccess (rdAccess r) = .ok r := by
  simp [decodeAccess, rdAccess, r.offset_aligned, r.ofOffset_offset]

namespace Machine

/-! ### Accesses of a released block, and those that are refused -/

section
variable {s : State} {t : Transaction} {r : RegName}

theorem advance_paused (h : s.pace = .steps 0) : advance s = .next s := by
  simp [advance, h, engineRun]

theorem perform_read (hr : s.inReset = false) (hd : decodeAccess t = .ok r) (hk : t.kind = .read) :
    perform (.access t) s = advance { s with response := some (readReg r s) } := by
  simp [perform, hostAccess, hostRead, hr, hd, hk]

theorem perform_write (hr : s.inReset = false) (hd : decodeAccess t = .ok r) (hk : t.kind = .write) :
    perform (.access t) s = hostWrite r t.data s := by
  simp [perform, hostAccess, hr, hd, hk]

theorem perform_bad_access {e : BadAccess} (hd : decodeAccess t = .error e) :
    perform (.access t) s = .refused (refuseAccess e) := by
  simp [perform, hostAccess, hd]

/-- A write to CMD presents a command; every other write is of a register. -/
theorem hostWrite_of_ne_cmd (h : r ≠ .cmd) (w : Word) (s : State) : hostWrite r w s = advance (writeReg r w s) := by
  cases r with
  | cmd => exact absurd rfl h
  | _ => rfl

theorem perform_write_paused (hr : s.inReset = false) (hp : s.pace = .steps 0) (hd : decodeAccess t = .ok r)
    (hk : t.kind = .write) (hc : r ≠ .cmd) : perform (.access t) s = .next (writeReg r t.data s) := by
  rw [perform_write hr hd hk, hostWrite_of_ne_cmd hc, advance_paused ((writeReg_pace r t.data s).trans hp)]

theorem rangesOverlap_window {a base : Nat} (h1 : base ≤ a) (h2 : a < base + 256) :
    rangesOverlap a 1 base 256 = true := by
  simp only [rangesOverlap, Bool.and_eq_true, decide_eq_true_eq]
  omega

/-- No byte of the register window is memory to the host (10_state.md R23, 20_memory.md R52). -/
theorem hostOrdinary_window {a : Nat} (h : rangesOverlap a 1 s.params.regBase 256 = true) :
    hostOrdinary s a = false := by
  simp [hostOrdinary, State.touchesDevice, h]

theorem hostRefusal_window {a : Nat} (h : rangesOverlap a 1 s.params.regBase 256 = true) :
    hostRefusal s a = .accessWidth := by
  simp [hostRefusal, h]

end

/-! ### What a register write changes (10_state.md R30 to R35) -/

section
variable {r : RegName}

theorem writeReg_status_of_ne (h : r ≠ .status) (w : Word) (s : State) :
    (writeReg r w s).regs.status = s.regs.status := by
  cases r with
  | status => exact absurd rfl h
  | _ => rfl

theorem writeReg_srcAddr_of_ne (h : r ≠ .srcAddr) (w : Word) (s : State) :
    (writeReg r w s).regs.srcAddr = s.regs.srcAddr := by
  cases r with
  | srcAddr => exact absurd rfl h
  | _ => rfl

theorem writeReg_srcLen_of_ne (h : r ≠ .srcLen) (w : Word) (s : State) :
    (writeReg r w s).regs.srcLen = s.regs.srcLen := by
  cases r with
  | srcLen => exact absurd rfl h
  | _ => rfl

theorem writeReg_dstAddr_of_ne (h : r ≠ .dstAddr) (w : Word) (s : State) :
    (writeReg r w s).regs.dstAddr = s.regs.dstAddr := by
  cases r with
  | dstAddr => exact absurd rfl h
  | _ => rfl

/-- A write of one register leaves what every other one reads. -/
theorem readReg_writeReg_of_ne {q : RegName} (h : q ≠ r) (w : Word) (s : State) :
    readReg q (writeReg r w s) = readReg q s := by
  cases q with
  | id => rfl
  | caps => exact congrArg capsWord (writeReg_params r w s)
  | cmd => rfl
  | status => exact congrArg Status.word (writeReg_status_of_ne h.symm w s)
  | srcAddr => exact writeReg_srcAddr_of_ne h.symm w s
  | srcLen => exact writeReg_srcLen_of_ne h.symm w s
  | dstAddr => exact writeReg_dstAddr_of_ne h.symm w s
  | resultCount => exact writeReg_resultCount r w s
  | resultStrides => exact writeReg_resultStrides r w s
  | reserved => rfl

theorem readReg_writeReg_operand (h : r = .srcAddr ∨ r = .srcLen ∨ r = .dstAddr) (w : Word) (s : State) :
    readReg r (writeReg r w s) = narrow s.params w.toNat := by
  rcases h with rfl | rfl | rfl <;> rfl

theorem writeReg_readOnly
    (h : r = .id ∨ r = .caps ∨ r = .resultCount ∨ r = .resultStrides ∨ r = .reserved) (w : Word) (s : State) :
    writeReg r w s = s := by
  rcases h with rfl | rfl | rfl | rfl | rfl <;> rfl

/-- In a legal build a narrowed number keeps its low AW bits (00_scope.md R5). -/
theorem narrow_toNat_mod {p : Params} (h : p.wf = true) (n : Nat) : (narrow p n).toNat = n % p.space := by
  have hn : n % p.space < 2 ^ 64 := lt_of_lt_of_le (Nat.mod_lt n (space_pos p)) (space_le h)
  simp only [narrow, BitVec.toNat_ofNat, Nat.mod_eq_of_lt hn]

/-- A write of 1 to bit 1 or 2 clears its flag, and a write of 0 keeps it (10_state.md R30). -/
theorem Status.clear_eq (f : Status) (w : Word) : f.clear w =
    { f with
      done := if w.getLsbD 1 then false else f.done
      overrun := if w.getLsbD 2 then false else f.overrun } := by
  have hflag (f bit : Bool) : (f && !bit) = if bit then false else f := by cases bit <;> simp
  simp only [Status.clear, hflag]

end

/-! ### The fields of STATUS and CAPS (10_state.md R27, R29) -/

/-- A word of two fields, as a number. -/
theorem toNat_append_eq_add {m n : Nat} (x : BitVec m) (y : BitVec n) : (x ++ y).toNat = x.toNat * 2 ^ n + y.toNat := by
  rw [BitVec.toNat_append, ← Nat.shiftLeft_add_eq_or_of_lt y.isLt, Nat.shiftLeft_eq]

theorem Status.toNat_word (f : Status) : f.word.toNat =
    (resultBits f.result).toNat * 256 + f.overrun.toNat * 4 + f.done.toNat * 2 + f.busy.toNat := by
  simp only [Status.word, toNat_append_eq_add, BitVec.toNat_ofBool, BitVec.ofNat_eq_ofNat, BitVec.toNat_ofNat]
  omega

theorem aw_le {p : Params} (h : p.wf = true) : p.aw ≤ 64 := by
  simp only [Params.wf, Bool.and_eq_true, decide_eq_true_eq] at h
  omega

/-- Every parameter of a legal build is below the top of its field of CAPS. -/
theorem caps_fields_fit {p : Params} (h : p.wf = true) :
    p.aw < 2 ^ 7 ∧ p.encIn < 2 ^ 8 ∧ p.encOut < 2 ^ 8 ∧ p.decIn < 2 ^ 8 ∧ p.decOut < 2 ^ 8 := by
  have haw := aw_le h
  obtain ⟨-, henc, -, -, hdec, -⟩ := wf_strides h
  unfold Params.encOut Params.decOut
  omega

theorem toNat_capsWord {p : Params} (h : p.wf = true) : (capsWord p).toNat =
    (variantBits p.variant).toNat + (tblImplBits p.tblImpl).toNat * 4 + p.encIn * 2 ^ 8 + p.encOut * 2 ^ 16
      + p.decIn * 2 ^ 24 + p.decOut * 2 ^ 32 + p.aw * 2 ^ 40 := by
  obtain ⟨haw, hei, heo, hdi, hdo⟩ := caps_fields_fit h
  simp only [capsWord, toNat_append_eq_add, BitVec.ofNat_eq_ofNat, BitVec.toNat_ofNat, Nat.mod_eq_of_lt,
    haw, hei, heo, hdi, hdo]
  omega

/-! ### The statements -/

/-- Settles O8: the written register holds the narrowed word, and the frame is that of a register write. -/
theorem operandRegistersStoreAwBits : Obligations.OperandRegistersStoreAwBits := by
  intro s r q w hwf hr
  refine ⟨?_, fun hq => readReg_writeReg_of_ne hq w s, writeReg_eng r w s, writeReg_mem r w s⟩
  rw [readReg_writeReg_operand hr, narrow_toNat_mod hwf]
  rfl

/-- Settles O10: each parameter of a legal build fits its field of the word. -/
theorem capsReportsParameters : Obligations.CapsReportsParameters := by
  intro p hwf
  have hvariant : (variantBits p.variant).toNat = match p.variant with | .full => 0 | .scalar => 1 | .stub => 2 := by
    cases p.variant <;> rfl
  have htbl : (tblImplBits p.tblImpl).toNat * 4 = match p.tblImpl with | .native128 => 0 | .split64 => 4 := by
    cases p.tblImpl <;> rfl
  rw [toNat_capsWord hwf, hvariant, htbl]
  rfl

/-- Settles O3: an aligned 64-bit access decodes to the register at its offset. -/
theorem registerMapRoundTrip : Obligations.RegisterMapRoundTrip := by
  refine ⟨rfl, fun r v => ⟨decodeAccess_wrAccess r v, decodeAccess_rdAccess r⟩, fun t ht => ?_⟩
  exact ⟨RegName.ofOffset t.offset, decodeAccess_of_wf ht,
    RegName.offset_ofOffset t.offset (Transaction.aligned_of_wf ht), RegName.ofOffset_reserved t.offset⟩

/-- Settles O6: the sum of the fields of STATUS, at DONE = 1 and the other flags 0 after a completion. -/
theorem statusWordFields : Obligations.StatusWordFields := by
  refine ⟨rfl, fun f => ⟨f.toNat_word, fun c ho => ?_⟩⟩
  simp [Status.toNat_word, ho]

/-- Settles O7: a write to STATUS is the clearing of its two flags. -/
theorem statusWriteClears : Obligations.StatusWriteClears := by
  intro s w hr hp
  rw [perform_write_paused hr hp (decodeAccess_wrAccess .status w) rfl (by decide), ← Status.clear_eq]
  rfl

/-- Settles O9: a write to a read-only register is ignored, and the constant registers read what they are. -/
theorem readOnlyRegistersIgnoreWrites : Obligations.ReadOnlyRegistersIgnoreWrites := by
  intro s t r hr hp hd hk hro
  have hc : r ≠ .cmd := by rintro rfl; simp at hro
  refine ⟨?_, rfl, rfl, rfl⟩
  rw [perform_write_paused hr hp hd hk hc, writeReg_readOnly hro]

/-- Settles O11: the access does not decode, and an address of the window is not memory to the host. -/
theorem malformedAccessRefused : Obligations.MalformedAccessRefused := by
  intro s t x b
  refine ⟨fun hw => perform_bad_access (decodeAccess_of_width hw),
    fun hw ha => perform_bad_access (decodeAccess_of_misaligned hw ha), fun h1 h2 => ?_⟩
  have hwin := rangesOverlap_window h1 h2
  constructor
  · simp [perform, hostMemRead, hostOrdinary_window hwin, hostRefusal_window hwin]
  · simp [perform, hostMemWrite, hostOrdinary_window hwin, hostRefusal_window hwin]

/-- Settles O12: with no engine step after it, a read is its response. -/
theorem readsReturnTheRegister : Obligations.ReadsReturnTheRegister := by
  intro s t r hr hp hd hk
  rw [perform_read hr hd hk]
  exact advance_paused hp

/-- Settles O36: every register and element is 0, memory is empty and no phase runs. -/
theorem resetMeetsInvariant : Obligations.ResetMeetsInvariant where
  params := by decide
  memWf := rfl
  memBelow := rfl
  operandsFit := ⟨zero_fits _, zero_fits _, zero_fits _⟩
  resultsFit := ⟨zero_fits _, zero_fits _⟩
  latchedFit := ⟨zero_fits _, zero_fits _, zero_fits _⟩
  cursorsFit := ⟨zero_fits _, zero_fits _, zero_fits _⟩
  busyIff := by decide
  notBusyAndDone := by decide
  busyHidesResults := by decide
  resetStopsEngine := fun _ => rfl
  resetHolds := fun _ => rfl
  cursors := trivial

/-- Settles O41: the reset state is written out, and so is each register's value in it. -/
theorem resetValues : Obligations.ResetValues := by
  unfold Obligations.ResetValues
  decide

end Machine

end Sys2Proof

/-! A command in other surroundings (20_memory.md R48, 60_exceptions.md R136): with another memory outside its source, or on a
platform whose bus answers, a command does what it does where it is. -/

namespace Sys2Proof.Machine

/-! ### Other surroundings -/

/-- What a running command meets outside the block: memory, the platform's regions, and the free values still to be drawn. -/
structure Surroundings where
  mem : List Host.Cell
  regions : List Region
  draws : Nat

/-- The state in other surroundings. -/
def State.within (s : State) (o : Surroundings) : State :=
  { s with mem := o.mem, regions := o.regions, draws := o.draws }

@[simp] theorem within_eng (s : State) (o : Surroundings) : (s.within o).eng = s.eng := rfl
@[simp] theorem within_params (s : State) (o : Surroundings) : (s.within o).params = s.params := rfl

/-- The bus of the surroundings o: quiet, so that it answers every access, or the bus of s. -/
def BusAlike (quiet : Bool) (o : Surroundings) (s : State) : Prop :=
  match quiet with
  | true => o.regions = []
  | false => o.regions = s.regions ∧ o.draws = s.draws

/-- The surroundings o show the command of s what its own show it: the same bytes at the addresses of P, its source among
them, and a quiet bus or the same one. No host raced with the command. -/
structure Alike (quiet : Bool) (P : Nat → Prop) (o : Surroundings) (s : State) : Prop where
  notRaced : s.raced = false
  memWf : Memory.wf s.mem = true
  otherWf : Memory.wf o.mem = true
  source : ∀ a, s.inSource a = true → P a
  agree : ∀ a, P a → Memory.read o.mem a = Memory.read s.mem a
  bus : BusAlike quiet o s

/-- The command of t has ended BUS_ERR, with count 0 (60_exceptions.md R136). -/
def EndedBusErr (t : State) : Prop :=
  t.eng.phase = .idle ∧ t.regs.status.result = .busErr ∧ t.regs.resultCount = 0

/-- Where x answers a next state, y answers the same one in surroundings that are still alike; a quiet y may go on where x
ends BUS_ERR. -/
def Follows (quiet : Bool) (P : Nat → Prop) (x y : Host.Outcome State Fault Refusal) : Prop :=
  ∀ t, x = .next t →
    (∃ o, y = .next (t.within o) ∧ Alike quiet P o t) ∨ (quiet = true ∧ EndedBusErr t)

section
variable {quiet : Bool} {P : Nat → Prop} {o : Surroundings} {s t : State}

theorem Alike.follows (h : Alike quiet P o t) : Follows quiet P (.next t) (.next (t.within o)) := by
  rintro _ ⟨⟩
  exact .inl ⟨o, rfl, h⟩

/-- A state with the same memory, bus and source has surroundings alike. -/
theorem Alike.of_eq (h : Alike quiet P o s) (h1 : t.mem = s.mem) (h2 : t.regions = s.regions) (h3 : t.draws = s.draws)
    (h4 : t.raced = false) (h5 : t.eng.src = s.eng.src) (h6 : t.eng.len = s.eng.len) : Alike quiet P o t where
  notRaced := h4
  memWf := h1 ▸ h.memWf
  otherWf := h.otherWf
  source := by simpa only [State.inSource, h5, h6] using h.source
  agree := h1 ▸ h.agree
  bus := by simpa only [BusAlike, h2, h3] using h.bus

theorem Alike.moveCursors (h : Alike quiet P o s) (n k v : Nat) : Alike quiet P o (moveCursors n k v s) :=
  h.of_eq rfl rfl rfl h.notRaced rfl rfl

theorem Alike.setPhase (h : Alike quiet P o s) (f : Phase) : Alike quiet P o (setPhase f s) :=
  h.of_eq rfl rfl rfl h.notRaced rfl rfl

theorem Alike.setVReg (h : Alike quiet P o s) (q : VReg) : Alike quiet P o (setVReg q s) :=
  h.of_eq rfl rfl rfl h.notRaced rfl rfl

theorem Alike.loadGroup (h : Alike quiet P o s) (l : List Byte) : Alike quiet P o (loadGroup l s) :=
  h.of_eq rfl rfl rfl h.notRaced rfl rfl

theorem Alike.startLoop (h : Alike quiet P o s) (p : Pass) (f : Phase) : Alike quiet P o (startLoop p f s) :=
  h.of_eq rfl rfl rfl h.notRaced rfl rfl

theorem Alike.startCommand (h : Alike quiet P o s) : Alike quiet P o (startCommand s) := by
  unfold Machine.startCommand
  split
  · exact h.startLoop _ _
  · exact h.startLoop _ _

theorem startCommand_within (s : State) (o : Surroundings) : startCommand (s.within o) = (startCommand s).within o := by
  unfold startCommand
  rw [within_eng]
  split <;> rfl

/-! ### Completion and the bus -/

theorem Alike.finish (h : Alike quiet P o s) (c : ResultCode) :
    Follows quiet P (.next (finish c s)) (.next (finish c (s.within o))) := by
  rw [finish_of_not_raced c h.notRaced, finish_of_not_raced (s := s.within o) c h.notRaced]
  exact Alike.follows (h.of_eq rfl rfl rfl rfl rfl rfl)

/-- On the same bus, the free bytes of BUS_ERR are the same. -/
theorem Alike.finishBusErr (h : Alike false P o s) :
    Follows false P (.next (finishBusErr s)) (.next (finishBusErr (s.within o))) := by
  obtain ⟨hregions, hdraws⟩ := h.bus
  let o' : Surroundings :=
    { mem := (scrambleDest (s.within o)).mem, regions := o.regions, draws := o.draws + 1 }
  refine Alike.finish (o := o') ?_ .busErr
  refine ⟨h.notRaced, wf_scrambleDest h.memWf, wf_scrambleDest h.otherWf, h.source, fun a ha => ?_,
    hregions, by simp [o', hdraws]⟩
  have hread := read_scrambleDest (s := s.within o) h.otherWf a
  simp only [o', hread, read_scrambleDest h.memWf]
  simp only [State.within, hdraws, h.agree a ha]
  rfl

theorem endedBusErr_finishBusErr (h : s.raced = false) : EndedBusErr (Machine.finishBusErr s) := by
  rw [Machine.finishBusErr, finish_of_not_raced (s := scrambleDest s) _ h]
  exact ⟨rfl, rfl, rfl⟩

theorem touches_within (h : o.regions = s.regions) (k : RegionKind) (lo n : Nat) :
    (s.within o).touches k lo n = s.touches k lo n := by
  simp only [State.touches, State.within, h]

theorem touches_within_quiet (h : o.regions = []) (k : RegionKind) (lo n : Nat) : (s.within o).touches k lo n = false := by
  simp [State.touches, State.within, h]

theorem Alike.touches_false (h : Alike quiet P o s) {k : RegionKind} {lo n : Nat} (ht : s.touches k lo n = false) :
    (s.within o).touches k lo n = false := by
  have hbus := h.bus
  cases quiet with
  | true => exact touches_within_quiet hbus k lo n
  | false => rwa [touches_within hbus.1]

theorem Alike.busFails_same (h : Alike false P o s) (lo n : Nat) : (s.within o).busFails lo n = s.busFails lo n := by
  obtain ⟨hregions, hdraws⟩ := h.bus
  have hd : (s.within o).draws = s.draws := hdraws
  simp only [State.busFails, touches_within hregions, hd]

/-- A bus that answers s answers in the surroundings o. -/
theorem Alike.busFails_false (h : Alike quiet P o s) {lo n : Nat} (hb : s.busFails lo n = false) :
    (s.within o).busFails lo n = false := by
  cases quiet with
  | true => simp [State.busFails, touches_within_quiet h.bus]
  | false => rwa [h.busFails_same]

theorem Alike.busTick (h : Alike quiet P o s) (lo n : Nat) :
    ∃ d, (s.within o).busTick lo n = (s.busTick lo n).within { o with draws := d } ∧
      Alike quiet P { o with draws := d } (s.busTick lo n) := by
  refine ⟨((s.within o).busTick lo n).draws, ?_, ?_, ?_, h.otherWf, ?_, ?_, ?_⟩
  · simp only [State.busTick]
    split <;> split <;> rfl
  · simpa using h.notRaced
  · simpa using h.memWf
  · simpa [State.inSource] using h.source
  · simpa using h.agree
  · have hbus := h.bus
    cases quiet with
    | true => exact hbus
    | false =>
      obtain ⟨hregions, hdraws⟩ := hbus
      refine ⟨by simpa using hregions, ?_⟩
      simp only [State.busTick, touches_within hregions]
      split <;> simp [State.within, hdraws]

/-- An access that the bus answers, or that ends the command BUS_ERR. -/
theorem Alike.access (h : Alike quiet P o s) {lo n : Nat} {x : Host.Outcome State Fault Refusal}
    {y : State → Host.Outcome State Fault Refusal}
    (hgo : ∀ d, Alike quiet P { o with draws := d } (s.busTick lo n) →
      Follows quiet P x (y ((s.busTick lo n).within { o with draws := d }))) :
    Follows quiet P (if s.busFails lo n then .next (Machine.finishBusErr (s.busTick lo n)) else x)
      (if (s.within o).busFails lo n then .next (Machine.finishBusErr ((s.within o).busTick lo n))
        else y ((s.within o).busTick lo n)) := by
  obtain ⟨d, htick, hd⟩ := h.busTick lo n
  rw [htick]
  cases hb : s.busFails lo n with
  | false =>
    rw [h.busFails_false hb]
    exact hgo d hd
  | true =>
    cases quiet with
    | true =>
      rintro _ ⟨⟩
      exact .inr ⟨rfl, endedBusErr_finishBusErr (by simpa using h.notRaced)⟩
    | false =>
      rw [h.busFails_same, hb]
      exact hd.finishBusErr

/-- A read of source bytes gives the same bytes. -/
theorem Alike.memRead (h : Alike quiet P o s) {lo n : Nat} (hsrc : ∀ a, lo ≤ a → a < lo + n → s.inSource a = true)
    {k k' : List Byte → State → Host.Outcome State Fault Refusal}
    (hk : ∀ l u o', Alike quiet P o' u → Follows quiet P (k l u) (k' l (u.within o'))) :
    Follows quiet P (memRead lo n s k) (memRead lo n (s.within o) k') := by
  have hbytes : Memory.readBytes o.mem lo n = Memory.readBytes s.mem lo n :=
    Memory.readBytes_congr fun a h1 h2 => h.agree a (h.source a (hsrc a h1 h2))
  unfold Machine.memRead
  by_cases hs : s.params.space < lo + n
  · rw [if_pos hs]
    rintro _ ⟨⟩
  · rw [if_neg hs, if_neg (show ¬(s.within o).params.space < lo + n from hs)]
    exact h.access (y := k' (Memory.readBytes o.mem lo n)) fun d hd => hbytes ▸ hk _ _ _ hd

/-- The same bytes written to two memories leave them alike. -/
theorem Alike.memWrite (h : Alike quiet P o s) (lo : Nat) (l : List Byte)
    {k k' : State → Host.Outcome State Fault Refusal}
    (hk : ∀ u o', Alike quiet P o' u → Follows quiet P (k u) (k' (u.within o'))) :
    Follows quiet P (memWrite lo l s k) (memWrite lo l (s.within o) k') := by
  unfold Machine.memWrite
  by_cases hs : s.params.space < lo + l.length
  · rw [if_pos hs]
    rintro _ ⟨⟩
  · rw [if_neg hs, if_neg (show ¬(s.within o).params.space < lo + l.length from hs)]
    refine h.access (y := fun u => k' { u with mem := Memory.writeBytes o.mem lo l }) fun d hd => ?_
    refine hk _ { mem := Memory.writeBytes o.mem lo l, regions := o.regions, draws := d } ?_
    refine ⟨hd.notRaced, Memory.wf_writeBytes lo l h.memWf, Memory.wf_writeBytes lo l h.otherWf, hd.source,
      fun a ha => ?_, hd.bus⟩
    simp only [Memory.read_writeBytes _ _ _ h.memWf, Memory.read_writeBytes _ _ _ h.otherWf, h.agree a ha]

/-! ### The engine steps -/

/-- The bytes from the source cursor on are source bytes. -/
theorem inSource_of_cursor {n a : Nat} (hn : n ≤ remaining s) (h1 : srcCursor s ≤ a) (h2 : a < srcCursor s + n) :
    s.inSource a = true := by
  simp only [State.inSource, Bool.and_eq_true, decide_eq_true_eq]
  unfold remaining at hn
  unfold srcCursor at h1 h2
  omega

/-- What side effects s does not touch, it does not touch in the surroundings o. -/
theorem Alike.touchesSideEffects_false (h : Alike quiet P o s) (ht : touchesSideEffects s = false) :
    touchesSideEffects (s.within o) = false := by
  simp only [touchesSideEffects, State.touchesDevice, Bool.or_eq_false_iff] at ht ⊢
  obtain ⟨⟨hsrc, hsrcw⟩, hdst, hdstw⟩ := ht
  exact ⟨⟨h.touches_false hsrc, hsrcw⟩, h.touches_false hdst, hdstw⟩

/-- What follows on both sides of a test that does not look at the surroundings. -/
theorem Follows.ite {c : Prop} [Decidable c] {x x' y y' : Host.Outcome State Fault Refusal}
    (h : c → Follows quiet P x y) (h' : ¬c → Follows quiet P x' y') :
    Follows quiet P (if c then x else x') (if c then y else y') := by
  split
  · exact h ‹_›
  · exact h' ‹_›

theorem Alike.stepCheck (h : Alike quiet P o s) : Follows quiet P (stepCheck s) (stepCheck (s.within o)) := by
  have hcode : checkCode (s.within o) = checkCode s := rfl
  unfold Machine.stepCheck
  rw [hcode]
  cases checkCode s with
  | some c => exact h.finish c
  | none =>
    cases hd : touchesSideEffects s with
    | true => rintro _ ⟨⟩
    | false =>
      rw [h.touchesSideEffects_false hd]
      exact startCommand_within s o ▸ h.startCommand.follows

theorem Alike.stepEncVec (h : Alike quiet P o s) : Follows quiet P (stepEncVec s) (stepEncVec (s.within o)) := by
  refine Follows.ite (fun hle => ?_) fun _ => (h.setPhase _).follows
  refine h.memRead (fun a => inSource_of_cursor hle) fun x u o' hu => ?_
  exact (hu.setVReg _).memWrite _ _ fun v o'' hv => (hv.moveCursors _ _ _).follows

theorem Alike.stepEncTail (h : Alike quiet P o s) : Follows quiet P (stepEncTail s) (stepEncTail (s.within o)) := by
  refine Follows.ite (fun hle => ?_) fun _ => Follows.ite (fun _ => h.finish .ok) fun _ => ?_
  · refine h.memRead (fun a => inSource_of_cursor hle) fun g u o' hu => ?_
    exact (hu.loadGroup _).memWrite _ _ fun v o'' hv => (hv.moveCursors _ _ _).follows
  · refine h.memRead (fun a => inSource_of_cursor le_rfl) fun g u o' hu => ?_
    exact (hu.loadGroup _).memWrite _ _ fun v o'' hv => (hv.moveCursors _ _ _).finish .ok

/-- What follows on both sides of a step by the pass. -/
theorem Follows.pass {p : Pass} {x x' y y' : Host.Outcome State Fault Refusal} (h : Follows quiet P x y)
    (h' : Follows quiet P x' y') :
    Follows quiet P (match p with | .validate => x | .write => x') (match p with | .validate => y | .write => y') := by
  cases p with
  | validate => exact h
  | write => exact h'

/-- What follows on both sides of a step by the group it decoded. -/
theorem Follows.group {d : Option (List Byte)} {x y : Host.Outcome State Fault Refusal}
    {f g : List Byte → Host.Outcome State Fault Refusal} (h : Follows quiet P x y)
    (h' : ∀ out, Follows quiet P (f out) (g out)) :
    Follows quiet P (match d with | none => x | some out => f out) (match d with | none => y | some out => g out) := by
  cases d with
  | none => exact h
  | some out => exact h' out

theorem Alike.stepDecVec (h : Alike quiet P o s) : Follows quiet P (stepDecVec s) (stepDecVec (s.within o)) := by
  refine Follows.ite (fun hle => ?_) fun _ => (h.setPhase _).follows
  refine h.memRead (fun a => inSource_of_cursor hle) fun c u o' hu => ?_
  refine Follows.ite (fun _ => ((hu.setVReg _).setPhase _).follows) fun _ => ?_
  refine Follows.pass ((hu.setVReg _).moveCursors _ _ _).follows ?_
  exact ((hu.setVReg _).setVReg _).memWrite _ _ fun v o'' hv => (hv.moveCursors _ _ _).follows

theorem Alike.stepDecTail (h : Alike quiet P o s) (hle : remaining s ≠ 0 → 4 ≤ remaining s) :
    Follows quiet P (stepDecTail s) (stepDecTail (s.within o)) := by
  refine Follows.ite (fun _ => Follows.pass (h.startLoop _ _).follows (h.finish .ok)) fun h0 => ?_
  refine h.memRead (fun a => inSource_of_cursor (hle h0)) fun g u o' hu => ?_
  refine Follows.group ((hu.loadGroup g).finish .invalid) fun out => ?_
  refine Follows.pass ((hu.loadGroup g).moveCursors _ _ _).follows ?_
  exact (hu.loadGroup g).memWrite _ _ fun v o'' hv => (hv.moveCursors _ _ _).follows

/-- A group of DEC_TAIL is whole (41_loop_driver.md R95). -/
theorem Inv.decTail_whole (h : Inv s) (hp : s.eng.phase = .decTail) (h0 : remaining s ≠ 0) : 4 ≤ remaining s := by
  have hc := h.cursors
  simp only [CursorInv, hp] at hc
  obtain ⟨-, -, -, hl4, hr4, hrd, -, -⟩ := hc
  unfold remaining at h0 ⊢
  omega

/-- An engine step in other surroundings. -/
theorem Alike.engineStep (h : Alike quiet P o s) (hi : Inv s) :
    Follows quiet P (engineStep s) (engineStep (s.within o)) := by
  unfold Machine.engineStep
  rw [within_eng]
  cases hp : s.eng.phase with
  | idle => exact h.follows
  | check => exact h.stepCheck
  | encVec => exact h.stepEncVec
  | encTail => exact h.stepEncTail
  | decVec => exact h.stepDecVec
  | decTail => exact h.stepDecTail (hi.decTail_whole hp)

/-- A run of the engine in other surroundings. -/
theorem Alike.engineRun (n : Nat) (h : Alike quiet P o s) (hi : Inv s) :
    Follows quiet P (engineRun n s) (engineRun n (s.within o)) := by
  induction n generalizing s o with
  | zero => exact h.follows
  | succ n ih =>
    by_cases hp : s.eng.phase = .idle
    · rw [engineRun_idle _ hp, engineRun_idle (s := s.within o) _ hp]
      exact h.follows
    · cases he : Machine.engineStep s with
      | next u =>
        rw [engineRun_step n hp he]
        have hu : Good (Machine.engineStep s) := engineStep_good hi
        rw [he] at hu
        rcases h.engineStep hi u he with ⟨o', he', ho'⟩ | ⟨hq, hend⟩
        · rw [engineRun_step (s := s.within o) n hp he']
          exact ih ho' hu
        · rw [engineRun_idle n hend.1]
          rintro _ ⟨⟩
          exact .inr ⟨hq, hend⟩
      | fault f => simp [Follows, Machine.engineRun, hp, he]
      | refused r => simp [Follows, Machine.engineRun, hp, he]

end
end Sys2Proof.Machine

/-! What a command comes to on a platform that may answer with bus errors or refuse it, and what of memory that depends on
(20_memory.md R48, R50, R52). -/

namespace Sys2Proof.Machine

/-! ### A command that CHECK refuses (20_memory.md R52) -/

section
variable {s t : State}

theorem stepBound_eq_succ (s : State) : ∃ n, stepBound s = n + 1 := by
  unfold stepBound
  split <;> exact ⟨_, rfl⟩

/-- A command that CHECK lets go on, and that touches memory with side effects, runs no further. -/
theorem engineRun_touching (hp : s.eng.phase = .check) (hc : checkCode s = none) (hd : touchesSideEffects s = true) :
    engineRun (stepBound s) s = .refused .deviceMemory := by
  obtain ⟨n, hn⟩ := stepBound_eq_succ s
  simp [hn, engineRun, engineStep, hp, stepCheck, hc, hd]

theorem outmax_encode_word (i : Instr) (s : State) : outmax (encode i) s.len = s.outmaxOf i := by
  cases i with
  | encode => exact outmax_encode _
  | decode => exact outmax_decode _

theorem dstSize_accept (h : Inv s) (i : Instr) : (accept (encode i) s).dstSize = s.outmaxOf i := by
  rw [State.dstSize, (accept_latches h _).2.1, ← outmax_encode_word]
  rfl

/-- CHECK finds no fault with an accepted command of a build with a datapath, of legal ranges and of a legal length. -/
theorem checkCode_accept (h : Inv s) {i : Instr} (hv : s.params.variant ≠ .stub) (hr : s.rangesLegal i)
    (hl : i = .decode → s.len % 4 = 0) : checkCode (accept (encode i) s) = none := by
  obtain ⟨hsrc, hlen, hdst⟩ := accept_latches h (encode i)
  have hrf : rangeFails (accept (encode i) s) = false := by
    simp only [State.rangesLegal, State.src, State.len, State.dst] at hr
    simp only [rangeFails, rangesOverlap, hsrc, hlen, hdst, dstSize_accept h, accept_params, Bool.or_eq_false_iff,
      Bool.and_eq_false_iff, decide_eq_false_iff_not]
    omega
  unfold checkCode
  rw [hrf, hlen, accept_params, accept_eng_cmd, if_neg hv]
  cases i with
  | encode => rfl
  | decode => simp [encode, opcodeOf, hl rfl]

theorem exec_eq_writeCmd (i : Instr) (s : State) : exec i s = writeCmd (encode i) s := by
  rw [writeCmd_eq_issue]
  cases i <;> rfl

/-- A CMD write to a ready block runs the engine from its acceptance. -/
theorem writeCmd_ready (h : Ready s) (w : Word) :
    writeCmd w s = engineRun (stepBound (accept w s)) (accept w s) := by
  rw [writeCmd_eq_issue, issue_ready h]

/-! ### The result of a command on any platform -/

/-- A platform without regions answers the ranges of a command that touches no side effects. -/
theorem served_within_quiet (h : Inv s) (hr : s.raced = false) (hd : touchesSideEffects s = false) :
    Served (s.within { mem := s.mem, regions := [], draws := s.draws }) := by
  simp only [touchesSideEffects, State.touchesDevice, Bool.or_eq_false_iff] at hd
  obtain ⟨⟨-, hsrc⟩, -, hdst⟩ := hd
  have hadmits : ∀ lo n, rangesOverlap lo n s.params.regBase 256 = false →
      (s.within { mem := s.mem, regions := [], draws := s.draws }).admits lo n = true := by
    intro lo n hw
    simp [State.admits, State.touchesDevice, touches_within_quiet, hw]
  exact ⟨h.of_mem rfl rfl rfl rfl h.memWf h.memBelow, hr, hadmits _ _ hsrc, hadmits _ _ hdst⟩

/-- A command that is not refused ends BUS_ERR, or with the result that its source and its ranges determine: what it does
where the bus answers. -/
theorem completes_or_busErr (h : Inv s) (hr : s.raced = false) (hp : s.eng.phase = .check)
    (ht : engineRun (stepBound s) s = .next t) :
    EndedBusErr t ∨ ∃ strides, t.mem = Memory.writeBytes s.mem s.eng.dst.toNat (commandResult s).2 ∧
      t.regs = { s.regs with
        status := s.regs.status.finish (commandResult s).1
        resultCount := BitVec.ofNat 64 (commandResult s).2.length
        resultStrides := BitVec.ofNat 64 strides } := by
  cases hc : checkCode s with
  | some c =>
    obtain ⟨n, hn⟩ := stepBound_eq_succ s
    have hok : c ≠ .ok := fun h => checkCode_ne_ok s (h ▸ hc)
    have he : engineStep s = .next (finish c s) := by simp [engineStep, hp, stepCheck, hc]
    obtain ⟨u, hu, -, hmem, hregs⟩ := completesIn_failed n hok (by simp [hp]) he rfl hr
    rw [← hn, ht] at hu
    cases hu
    simp only [commandResult, hc]
    exact .inr ⟨0, hmem, hregs⟩
  | none =>
    cases hd : touchesSideEffects s with
    | true => rw [engineRun_touching hp hc hd] at ht; cases ht
    | false =>
      let o : Surroundings := { mem := s.mem, regions := [], draws := s.draws }
      have ho : Alike true (fun _ => True) o s :=
        ⟨hr, h.memWf, h.memWf, fun _ _ => trivial, fun _ _ => rfl, rfl⟩
      rcases ho.engineRun (stepBound s) h t ht with ⟨o', ho', hl⟩ | ⟨-, hend⟩
      · obtain ⟨strides, u, hu, -, hmem, hregs⟩ := (served_within_quiet h hr hd).command_completes hp
        have : Host.Outcome.next u = .next (t.within o') := hu.symm.trans ho'
        cases this
        have hsame : o'.mem = t.mem := Memory.ext_read hl.otherWf hl.memWf fun a => hl.agree a trivial
        exact .inr ⟨strides, hsame ▸ hmem, hregs⟩
      · exact .inl hend

/-- What a CMD write to a ready block comes to, when it is not refused. -/
theorem writeCmd_result (h : Ready s) {w : Word} (ht : writeCmd w s = .next t) :
    EndedBusErr t ∨ ∃ strides, t.mem = Memory.writeBytes s.mem s.dst (commandResult (accept w s)).2 ∧
      t.regs = s.completedRegs (commandResult (accept w s)).1 (commandResult (accept w s)).2.length strides := by
  rw [writeCmd_ready h] at ht
  have hresult := completes_or_busErr (accept_inv h.inv h.released w) rfl rfl ht
  rw [(accept_latches h.inv w).2.2] at hresult
  exact hresult

/-- Only a command that ends OK writes its destination. -/
theorem commandResult_writes_nothing (h : (commandResult s).1 ≠ .ok) : (commandResult s).2 = [] := by
  cases hc : checkCode s with
  | some c => simp only [commandResult, hc]
  | none =>
    by_cases hcmd : s.eng.cmd = 1
    · exact absurd (by simp only [commandResult, hc, hcmd, if_true]) h
    · cases ho : decText (wholeSource s) with
      | some o => exact absurd (by simp only [commandResult, hc, hcmd, if_false, ho]) h
      | none => simp only [commandResult, hc, hcmd, if_false, ho]

end

/-! ### The statements -/

/-- Settles O21: CHECK finds no fault with the command, and one of its ranges touches memory with side effects. -/
theorem deviceMemoryRefused : Obligations.DeviceMemoryRefused := by
  intro s i h hv hr hl hd
  obtain ⟨hsrc, hlen, hdst⟩ := accept_latches h.inv (encode i)
  rw [exec_eq_writeCmd, writeCmd_ready h]
  refine engineRun_touching rfl (checkCode_accept h.inv hv hr hl) ?_
  rw [touchesSideEffects, Bool.or_eq_true, hsrc, hlen, hdst, dstSize_accept h.inv]
  exact hd

/-- Settles O27: a command that ends neither BUS_ERR nor OK has the result of the same command where the bus answers, which
writes nothing. -/
theorem failuresWriteNothing : Obligations.FailuresWriteNothing := by
  intro s t w h ht hcode a
  rcases writeCmd_result h ht with ⟨-, hbus, -⟩ | ⟨strides, hmem, hregs⟩
  · simp [hbus] at hcode
  · have hok : (commandResult (accept w s)).1 ≠ .ok := by
      intro hok
      simp [hregs, State.completedRegs, hok] at hcode
    rw [hmem, commandResult_writes_nothing hok]
    rfl

/-- The result of a command depends on memory through its source. -/
theorem commandResult_mem {s : State} {m : List Host.Cell} (h : Inv s) (w : Word)
    (hm : ∀ a, s.src ≤ a → a < s.src + s.len → Memory.read m a = Memory.read s.mem a) :
    commandResult (accept w { s with mem := m }) = commandResult (accept w s) := by
  obtain ⟨hsrc, hlen, -⟩ := accept_latches h w
  have hsource : wholeSource (accept w { s with mem := m }) = wholeSource (accept w s) := by
    refine Memory.readBytes_congr (m := m) (m' := s.mem) ?_
    change ∀ a, (accept w s).eng.src.toNat ≤ a → a < (accept w s).eng.src.toNat + (accept w s).eng.len.toNat → _
    rw [hsrc, hlen]
    exact hm
  simp only [commandResult, hsource]
  rfl

/-- Settles O30: the two runs are in lockstep, and both write the bytes that the source determines. -/
theorem resultsDependOnSourceOnly : Obligations.ResultsDependOnSourceOnly := by
  intro s t m i h h' hm ht
  rw [exec_eq_writeCmd] at ht
  obtain ⟨hsrc, hlen, -⟩ := accept_latches h.inv (encode i)
  let o : Surroundings := { mem := m, regions := s.regions, draws := s.draws }
  have ho : Alike false (fun a => s.src ≤ a ∧ a < s.src + s.len) o (accept (encode i) s) :=
    ⟨rfl, h.inv.memWf, h'.inv.memWf, fun a ha => by
      simpa only [State.inSource, hsrc, hlen, Bool.and_eq_true, decide_eq_true_eq] using ha, fun a ha => hm a ha.1 ha.2, rfl, rfl⟩
  have hrun := ho.engineRun (stepBound (accept (encode i) s)) (accept_inv h.inv h.released _) t
    (by rw [← writeCmd_ready h, ht])
  obtain ⟨o', hu, -⟩ := hrun.resolve_right (by simp)
  have hu : writeCmd (encode i) { s with mem := m } = .next (t.within o') := (writeCmd_ready h' _).trans hu
  refine ⟨t.within o', (exec_eq_writeCmd i _).trans hu, rfl, fun a h1 h2 => ?_⟩
  rcases writeCmd_result h ht with ⟨-, -, hzero⟩ | ⟨strides, hmem, hregs⟩
  · simp [hzero] at h2
    omega
  · rcases writeCmd_result h' hu with ⟨-, -, hzero⟩ | ⟨strides', hmem', -⟩
    · have hzero : t.regs.resultCount = 0 := hzero
      simp [hzero] at h2
      omega
    · have hcount : t.regs.resultCount.toNat ≤ (commandResult (accept (encode i) s)).2.length := by
        rw [hregs]
        exact Nat.mod_le _ _
      rw [commandResult_mem h.inv _ hm] at hmem'
      change (t.within o').mem = Memory.writeBytes m s.dst _ at hmem'
      rw [hmem, hmem', Memory.read_writeBytes _ _ _ h.inv.memWf, Memory.read_writeBytes _ _ _ h'.inv.memWf,
        if_pos (by omega), if_pos ⟨h1, by omega⟩]

end Sys2Proof.Machine

/-! Where a command writes (20_memory.md R49, R51, 60_exceptions.md R136, 70_reset_and_hazards.md R154): in its destination range, and
never in its source. -/

namespace Sys2Proof.Machine

/-! ### States of one command whose memory differs in the destination alone -/

/-- t is the command of s further on: every byte outside its largest destination range, and every source byte, reads as in
s. -/
structure Confined (s t : State) : Prop where
  keeps : EngineKeeps s t
  memWf : Memory.wf t.mem = true
  frame : ∀ a, s.inDest a = false ∨ s.inSource a = true → Memory.read t.mem a = Memory.read s.mem a

/-- Where x answers a next state, it is s further on. -/
def StaysConfined (s : State) (x : Host.Outcome State Fault Refusal) : Prop := ∀ t, x = .next t → Confined s t

section
variable {s t u : State}

theorem EngineKeeps.inDest (h : EngineKeeps s t) (a : Nat) : t.inDest a = s.inDest a := by
  obtain ⟨-, -, -, hdst⟩ := h.latched
  simp only [State.inDest, h.dstSize, hdst]

theorem EngineKeeps.inSource (h : EngineKeeps s t) (a : Nat) : t.inSource a = s.inSource a := by
  obtain ⟨-, hsrc, hlen, -⟩ := h.latched
  simp only [State.inSource, hsrc, hlen]

theorem memory_keeps (s : State) (m : List Host.Cell) (d : Nat) : EngineKeeps s { s with mem := m, draws := d } :=
  ⟨rfl, rfl, rfl, rfl, rfl, rfl, ⟨rfl, rfl, rfl⟩, rfl, ⟨rfl, rfl, rfl, rfl⟩⟩

/-- A byte outside the destination range, or in the source, is no destination byte outside the source. -/
theorem not_inDest_outside_source {a : Nat} (h : s.inDest a = false ∨ s.inSource a = true) :
    ¬(s.inDest a = true ∧ s.inSource a = false) := by
  rcases h with h | h <;> simp [h]

theorem confined_refl (h : Memory.wf s.mem = true) : Confined s s := ⟨.refl s, h, fun _ _ => rfl⟩

theorem Confined.trans (h : Confined s t) (h' : Confined t u) : Confined s u :=
  ⟨h.keeps.trans h'.keeps, h'.memWf, fun a ha =>
    (h'.frame a (by rwa [h.keeps.inDest, h.keeps.inSource])).trans (h.frame a ha)⟩

/-- A change of the engine alone. -/
theorem Confined.of_keeps (h : Confined s t) (hk : EngineKeeps s u) (hm : u.mem = t.mem) : Confined s u :=
  ⟨hk, hm ▸ h.memWf, hm ▸ h.frame⟩

theorem Confined.next (h : Confined s t) : StaysConfined s (.next t) := by
  rintro _ ⟨⟩
  exact h

theorem Confined.moveCursors (h : Confined s t) (n k v : Nat) : Confined s (moveCursors n k v t) :=
  h.of_keeps (h.keeps.moveCursors n k v) rfl

theorem Confined.setPhase (h : Confined s t) (f : Phase) : Confined s (setPhase f t) :=
  h.of_keeps (h.keeps.setPhase f) rfl

theorem Confined.setVReg (h : Confined s t) (q : VReg) : Confined s (setVReg q t) :=
  h.of_keeps (h.keeps.setVReg q) rfl

theorem Confined.loadGroup (h : Confined s t) (l : List Byte) : Confined s (loadGroup l t) :=
  h.of_keeps (h.keeps.loadGroup l) rfl

theorem Confined.startLoop (h : Confined s t) (p : Pass) (f : Phase) : Confined s (startLoop p f t) :=
  h.of_keeps (h.keeps.startLoop p f) rfl

theorem Confined.busTick (h : Confined s t) (lo n : Nat) : Confined s (t.busTick lo n) :=
  h.of_keeps (h.keeps.trans (busTick_keeps lo n t)) (busTick_mem t lo n)

/-- The free bytes are destination bytes and no source bytes (60_exceptions.md R136). -/
theorem Confined.scrambleDest (h : Confined s t) : Confined s (scrambleDest t) := by
  refine ⟨h.keeps.trans (memory_keeps t _ _), wf_scrambleDest h.memWf, fun a ha => ?_⟩
  rw [read_scrambleDest h.memWf, h.keeps.inDest, h.keeps.inSource, if_neg, h.frame a ha]
  exact fun ⟨hd, _, hs⟩ => not_inDest_outside_source ha ⟨hd, hs⟩

/-- A completion, raced or not (70_reset_and_hazards.md R154). -/
theorem Confined.finish (h : Confined s t) (c : ResultCode) : Confined s (finish c t) := by
  cases hr : t.raced with
  | false => exact h.of_keeps (h.keeps.finish c) (by rw [finish_of_not_raced c hr]; rfl)
  | true => exact h.scrambleDest.of_keeps (h.keeps.finish c) (by rw [Machine.finish, if_pos hr]; rfl)

theorem Confined.finishBusErr (h : Confined s t) : Confined s (finishBusErr t) := h.scrambleDest.finish _

/-! ### MemRead and MemWrite -/

theorem Confined.memRead (h : Confined s s) {lo n : Nat} {k : List Byte → State → Host.Outcome State Fault Refusal}
    (hk : ∀ l t, Confined s t → t.eng = s.eng → StaysConfined s (k l t)) : StaysConfined s (memRead lo n s k) := by
  have htick := h.busTick lo n
  rcases memRead_cases lo n s k with ⟨-, he⟩ | ⟨-, -, he⟩ | ⟨-, -, he⟩ <;> rw [he]
  · rintro _ ⟨⟩
  · exact htick.finishBusErr.next
  · exact hk _ _ htick (busTick_eng s lo n)

/-- Bytes of the destination range of a command that passed CHECK are no source bytes (60_exceptions.md R134). -/
theorem inDest_of_cursor (hrf : rangeFails s = false) {n a : Nat} (hn : s.eng.wr.toNat + n ≤ s.dstSize)
    (h1 : dstCursor s ≤ a) (h2 : a < dstCursor s + n) : s.inDest a = true ∧ s.inSource a = false := by
  simp only [rangeFails, rangesOverlap, Bool.or_eq_false_iff, Bool.and_eq_false_iff, decide_eq_false_iff_not] at hrf
  simp only [State.inDest, State.inSource, Bool.and_eq_true, Bool.and_eq_false_iff, decide_eq_true_eq,
    decide_eq_false_iff_not]
  unfold dstCursor at h1 h2
  omega

/-- A write at the destination cursor that stays within outmax. -/
theorem Confined.memWrite (h : Confined s t) (hrf : rangeFails s = false) {lo : Nat} {l : List Byte}
    (hlo : lo = dstCursor s) (hl : s.eng.wr.toNat + l.length ≤ s.dstSize)
    {k : State → Host.Outcome State Fault Refusal} (hk : ∀ u, Confined s u → StaysConfined s (k u)) :
    StaysConfined s (memWrite lo l t k) := by
  have htick := h.busTick lo l.length
  rcases memWrite_cases lo l t k with ⟨-, he⟩ | ⟨-, -, he⟩ | ⟨-, -, he⟩ <;> rw [he]
  · rintro _ ⟨⟩
  · exact htick.finishBusErr.next
  · refine hk _ ⟨htick.keeps.trans (memory_keeps _ _ _), Memory.wf_writeBytes lo l h.memWf, fun a ha => ?_⟩
    rw [Memory.read_writeBytes lo a l h.memWf, if_neg, h.frame a ha]
    exact fun ⟨h1, h2⟩ => not_inDest_outside_source ha (inDest_of_cursor hrf hl (hlo ▸ h1) (hlo ▸ h2))

/-! ### The engine steps -/

theorem length_scEncTail_le (l : List Byte) : (scEncTail l).length ≤ 4 := by
  match l with
  | [] => simp [scEncTail]
  | [_] => exact le_rfl
  | [_, _] => exact le_rfl
  | _ :: _ :: _ :: _ => simp [scEncTail]

theorem stepCheck_confined (h : Inv s) : StaysConfined s (stepCheck s) := by
  have hs := confined_refl h.memWf
  unfold stepCheck startCommand
  split
  · exact (hs.finish _).next
  · split
    · rintro _ ⟨⟩
    · split
      · exact (hs.startLoop _ _).next
      · exact (hs.startLoop _ _).next

theorem stepEncVec_confined (h : Inv s) (hp : s.eng.phase = .encVec) : StaysConfined s (stepEncVec s) := by
  have hs := confined_refl h.memWf
  have hc := h.cursors
  simp only [CursorInv, hp] at hc
  obtain ⟨hcmd, -, hrf, hrd, hns, hwr⟩ := hc
  obtain ⟨-, -, hmod, -, -, -⟩ := wf_strides h.params
  have hrd3 : s.eng.rd.toNat % 3 = 0 := by rw [hns, Nat.mul_mod, hmod]; simp
  unfold stepEncVec
  dsimp only
  split
  · rename_i hle
    have hroom : s.eng.wr.toNat + s.params.encOut ≤ s.dstSize := by
      rw [dstSize_encode hcmd]
      unfold remaining at hle
      unfold Params.encOut
      omega
    refine hs.memRead fun x t ht he => ?_
    exact (ht.setVReg _).memWrite hrf (by simp [dstCursor, he]) (by simpa using hroom)
      fun u hu => (hu.moveCursors _ _ _).next
  · exact (hs.setPhase _).next

theorem stepEncTail_confined (h : Inv s) (hp : s.eng.phase = .encTail) : StaysConfined s (stepEncTail s) := by
  have hs := confined_refl h.memWf
  have hc := h.cursors
  simp only [CursorInv, hp] at hc
  obtain ⟨hcmd, -, hrf, hrd3, hrd, hwr⟩ := hc
  have hroom (h0 : remaining s ≠ 0) : s.eng.wr.toNat + 4 ≤ s.dstSize := by
    rw [dstSize_encode hcmd]
    unfold remaining at h0
    omega
  unfold stepEncTail
  dsimp only
  split
  · refine hs.memRead fun x t ht he => ?_
    exact (ht.loadGroup x).memWrite hrf (by simp [dstCursor, he]) (by rw [length_scEncGroup]; exact hroom (by omega))
      fun u hu => (hu.moveCursors _ _ _).next
  · split
    · exact (hs.finish .ok).next
    · refine hs.memRead fun x t ht he => ?_
      exact (ht.loadGroup x).memWrite hrf (by simp [dstCursor, he])
        ((Nat.add_le_add_left (length_scEncTail_le _) _).trans (hroom (by omega)))
        fun u hu => ((hu.moveCursors _ _ _).finish .ok).next

theorem stepDecVec_confined (h : Inv s) (hp : s.eng.phase = .decVec) : StaysConfined s (stepDecVec s) := by
  have hs := confined_refl h.memWf
  have hc := h.cursors
  simp only [CursorInv, hp] at hc
  obtain ⟨hcmd, -, hrf, -, hr4, hrd, -, hwr⟩ := hc
  obtain ⟨-, -, -, -, -, hmod⟩ := wf_strides h.params
  unfold stepDecVec
  dsimp only
  split
  · rename_i hle
    have hroom : s.eng.wr.toNat + s.params.decOut ≤ s.dstSize := by
      rw [dstSize_decode hcmd]
      unfold remaining at hle
      unfold Params.decOut
      omega
    refine hs.memRead fun c t ht he => ?_
    split
    · exact ((ht.setVReg _).setPhase _).next
    · split
      · exact ((ht.setVReg _).moveCursors _ _ _).next
      · exact ((ht.setVReg _).setVReg _).memWrite hrf (by simp [dstCursor, he]) (by simpa using hroom)
          fun u hu => (hu.moveCursors _ _ _).next
  · exact (hs.setPhase _).next

theorem stepDecTail_confined (h : Inv s) (hp : s.eng.phase = .decTail) : StaysConfined s (stepDecTail s) := by
  have hs := confined_refl h.memWf
  have hc := h.cursors
  simp only [CursorInv, hp] at hc
  obtain ⟨hcmd, -, hrf, hl4, hr4, hrd, -, hwr⟩ := hc
  unfold stepDecTail
  dsimp only
  split
  · split
    · exact (hs.startLoop _ _).next
    · exact (hs.finish .ok).next
  · rename_i h0
    have hroom : s.eng.wr.toNat + 3 ≤ s.dstSize := by
      rw [dstSize_decode hcmd]
      unfold remaining at h0
      omega
    refine hs.memRead fun g t ht he => ?_
    split
    · exact ((ht.loadGroup g).finish .invalid).next
    · rename_i out hout
      obtain ⟨-, ho3, -⟩ := scDecGroup_length hout
      split
      · exact ((ht.loadGroup g).moveCursors _ _ _).next
      · exact (ht.loadGroup g).memWrite hrf (by simp [dstCursor, he]) (by omega)
          fun u hu => (hu.moveCursors _ _ _).next

theorem engineStep_confined (h : Inv s) : StaysConfined s (engineStep s) := by
  unfold engineStep
  split
  · exact (confined_refl h.memWf).next
  · exact stepCheck_confined h
  · exact stepEncVec_confined h ‹_›
  · exact stepEncTail_confined h ‹_›
  · exact stepDecVec_confined h ‹_›
  · exact stepDecTail_confined h ‹_›

theorem engineRun_confined (n : Nat) (h : Inv s) : StaysConfined s (engineRun n s) := by
  induction n generalizing s with
  | zero => exact (confined_refl h.memWf).next
  | succ n ih =>
    unfold engineRun
    split
    · exact (confined_refl h.memWf).next
    · split
      · rename_i u hu
        have hgood : Good (engineStep s) := engineStep_good h
        rw [hu] at hgood
        exact fun t ht => (engineStep_confined h u hu).trans (ih hgood t ht)
      · rintro _ ⟨⟩
      · rintro _ ⟨⟩

theorem advance_confined (h : Inv s) : StaysConfined s (advance s) := by
  unfold advance
  split <;> exact engineRun_confined _ h

/-- The two halves of the frame, by address. -/
theorem Confined.reads (h : Confined s t) (a : Nat) :
    (¬(s.eng.dst.toNat ≤ a ∧ a < s.eng.dst.toNat + s.dstSize) → Memory.read t.mem a = Memory.read s.mem a) ∧
    (s.eng.src.toNat ≤ a → a < s.eng.src.toNat + s.eng.len.toNat → Memory.read t.mem a = Memory.read s.mem a) := by
  refine ⟨fun ha => h.frame a (.inl ?_), fun h1 h2 => h.frame a (.inr ?_)⟩
  · simpa [State.inDest] using ha
  · simp [State.inSource, h1, h2]

/-! ### The host's accesses to memory (20_memory.md R55) -/

/-- A coherent host's write of a byte, with no engine step after it. -/
theorem perform_memWrite_coherent {x : Word} (b : Byte) (hp : s.pace = .steps 0) (hc : s.params.memCoherent = true)
    (ho : hostOrdinary s x.toNat = true) :
    perform (.memWrite x b) s = .next { s with
      raced := s.raced || (s.regs.status.busy && (s.inSource x.toNat || s.inDest x.toNat))
      mem := Memory.write s.mem x.toNat b } := by
  simp only [perform, hostMemWrite, ho, hc, if_true]
  exact advance_paused hp

/-- The host's read of a byte, with no engine step after it. -/
theorem perform_memRead_paused {x : Word} (hp : s.pace = .steps 0) (ho : hostOrdinary s x.toNat = true) :
    ∃ u, perform (.memRead x) s = .next u ∧ u.mem = s.mem ∧
      (hostSeesAnyValue s x.toNat = false → u.response = some ((Memory.read s.mem x.toNat).setWidth 64)) := by
  simp only [perform, hostMemRead, ho, if_true]
  cases hostSeesAnyValue s x.toNat with
  | true => exact ⟨_, advance_paused hp, rfl, by simp⟩
  | false => exact ⟨_, advance_paused hp, rfl, fun _ => rfl⟩

end

/-! ### The statements -/

/-- Settles O44: by cases on the phase, each of which writes at the destination cursor within outmax. -/
theorem engineWritesOnlyDestination : Obligations.EngineWritesOnlyDestination := by
  intro s t h ht a
  exact (engineStep_confined h t ht).reads a

/-- Settles O29: the frame of the engine's run from the acceptance. -/
theorem commandFrame : Obligations.CommandFrame := by
  intro s t i h hb hr ht
  rw [exec_eq_writeCmd, writeCmd_eq_issue, issue_accepted hr hb] at ht
  have hconf := advance_confined (accept_inv h hr (encode i)) t ht
  obtain ⟨hsrc, hlen, hdst⟩ := accept_latches h (encode i)
  obtain ⟨hparams, hregions, hreset, hresponse, hpace, hinbox, ⟨hsa, hsl, hda⟩, hover, hcmd, htsrc, htlen, htdst⟩ :=
    hconf.keeps
  have hreads := hconf.reads
  simp only [hsrc, hlen, hdst, dstSize_accept h] at hreads
  exact ⟨hsa, hsl, hda, hover, hcmd, htsrc.trans hsrc, htlen.trans hlen, htdst.trans hdst, hparams, hregions, hreset,
    hresponse, hpace, hinbox, fun a => (hreads a).1, fun a => (hreads a).2⟩

/-- Settles O45: the byte is stored as in any memory, and the read finds it where the host sees memory's own value. -/
theorem hostMemoryAccess : Obligations.HostMemoryAccess := by
  intro s x b h hp hc hx hd
  have ho : hostOrdinary s x.toNat = true := by
    rw [hostOrdinary, hd, Bool.not_false, Bool.and_true, decide_eq_true_eq]
    exact hx
  have hbusy : s.regs.status.busy = true ↔ s.eng.phase ≠ .idle := h.busyIff
  obtain ⟨u, hu, humem, hresponse⟩ := perform_memRead_paused (x := x) (s := { s with
      raced := s.raced || (s.regs.status.busy && (s.inSource x.toNat || s.inDest x.toNat))
      mem := Memory.write s.mem x.toNat b }) hp ho
  refine ⟨_, u, perform_memWrite_coherent b hp hc ho, fun a => Memory.read_write x.toNat a b h.memWf, ?_, rfl, rfl, hu,
    humem, fun hsees => ?_⟩
  · simp only [Bool.or_eq_true, Bool.and_eq_true, hbusy]
  · have hown : hostSeesAnyValue s x.toNat = false := by
      simp only [hostSeesAnyValue, hc, Bool.not_true, Bool.or_false, Bool.and_eq_false_iff]
      refine hsees.imp_left fun hidle => ?_
      rw [← Bool.not_eq_true, hbusy]
      exact not_not.mpr hidle
    rw [hresponse hown, Memory.read_write x.toNat x.toNat b h.memWf, if_pos rfl]

end Sys2Proof.Machine

/-! Command words and the lines of the host command language (30_encoding.md R61 to R68). -/

namespace Sys2Proof.Machine

/-! ### The decoder (R61, R62, R64) -/

section
variable {w : Word} {i : Instr}

theorem decodeWord_encode (i : Instr) : decodeWord (encode i) = .ok i := by
  cases i with
  | encode => rfl
  | decode => rfl

theorem decodeWord_eq_ok_iff : decodeWord w = .ok i ↔ w = encode i :=
  ⟨eq_encode_of_decodeWord, fun h => h ▸ decodeWord_encode i⟩

theorem decodeWord_of_decodeTableWord {n : Nat} (h : decodeTableWord 64 n = some i) :
    decodeWord (BitVec.ofNat 64 (n % 2 ^ 64)) = .ok i := by
  unfold decodeTableWord at h
  split at h
  · split at h
    · rename_i j hj
      cases h
      exact hj
    · cases h
  · cases h

/-- Every word that is the word of no command is illegal (R64). -/
theorem decodeWord_illegal_iff : (∃ e, decodeWord w = .error e) ↔ w.toNat ≠ 1 ∧ w.toNat ≠ 2 := by
  have hword : (w.toNat ≠ 1 ∧ w.toNat ≠ 2) ↔ ∀ i, decodeWord w ≠ .ok i := by
    simp only [ne_eq, decodeWord_eq_ok_iff, BitVec.toNat_eq]
    exact ⟨fun ⟨h1, h2⟩ i => by cases i <;> assumption, fun h => ⟨h .encode, h .decode⟩⟩
  rw [hword]
  cases decodeWord w with
  | error e => simp
  | ok i => simp

theorem rsvd_ne_zero_iff : Word.rsvd w ≠ 0 ↔ 256 ≤ w.toNat := by
  have hw : (Word.rsvd w).toNat = w.toNat / 256 := by
    rw [Word.rsvd, BitVec.extractLsb'_toNat, Nat.shiftRight_eq_div_pow]
    omega
  rw [ne_eq, BitVec.toNat_eq, hw]
  simp only [BitVec.ofNat_eq_ofNat, BitVec.toNat_ofNat]
  omega

theorem decodeWord_reservedBits_iff : decodeWord w = .error .reservedBits ↔ 256 ≤ w.toNat := by
  rw [← rsvd_ne_zero_iff]
  unfold decodeWord
  split
  · exact iff_of_true rfl ‹_›
  · refine iff_of_false ?_ ‹_›
    split
    · simp
    · split <;> simp

end

/-! ### A read of STATUS, alone and in a `wait` loop (R67, R68) -/

/-- BUSY is bit 0 of STATUS (10_state.md R29). -/
theorem getLsbD_zero_word (f : Status) : f.word.getLsbD 0 = f.busy := by
  rw [Status.word, BitVec.getLsbD_append]
  simp

theorem wf_of_mem_actions {c : HostCommand} {t : Transaction} (h : .access t ∈ c.actions) :
    t.wf = true := by
  have hwr : ∀ r v, (wrAccess r v).wf = true := fun r v => by simp [Transaction.wf, wrAccess, r.offset_aligned]
  have hrd : ∀ r, (rdAccess r).wf = true := fun r => by simp [Transaction.wf, rdAccess, r.offset_aligned]
  cases c <;> simp only [HostCommand.actions, List.mem_cons, List.not_mem_nil, or_false, HostAction.access.injEq,
    reduceCtorEq] at h
  case wr => exact h ▸ hwr _ _
  case rd => exact h ▸ hrd _
  case encode => exact h ▸ hwr _ _
  case decode => exact h ▸ hwr _ _
  case setup => rcases h with rfl | rfl | rfl <;> exact hwr _ _
  case ack => exact h ▸ hwr _ _

section
variable {s t : State}

/-- The state in which STATUS has been read, before the engine runs on. -/
def readStatus (s : State) : State := { s with response := some s.regs.status.word }

theorem hostAccess_rdStatus (hr : s.inReset = false) :
    hostAccess (rdAccess .status) s = advance (readStatus s) :=
  perform_read hr (decodeAccess_rdAccess .status) rfl

/-- The loop goes on exactly when the value read has BUSY = 1. -/
theorem hostWait_of_next (hr : s.inReset = false) (h : hostAccess (rdAccess .status) s = .next t) :
    hostWait s = .next (if s.regs.status.busy
      then { t with inbox := { action := .wait, pace := fairPace s.pace } :: s.inbox } else t) := by
  have hk := advance_keeps ((hostAccess_rdStatus hr).symm.trans h)
  have hw : waitsOn t.response = s.regs.status.busy := hk.response ▸ getLsbD_zero_word s.regs.status
  have hi : t.inbox = s.inbox := hk.inbox
  simp only [hostWait, h, hw, hi]

end

/-- A CMD write of a legal word is its command; in reset both leave the state as it is (70_reset_and_hazards.md R148). -/
theorem hostAccess_wrCmd {w : Word} {i : Instr} (h : decodeWord w = .ok i) (s : State) :
    hostAccess (wrAccess .cmd w) s = exec i s := by
  cases hr : s.inReset with
  | false =>
    refine (perform_write hr (decodeAccess_wrAccess .cmd w) rfl).trans ?_
    simp only [hostWrite, wrAccess, writeCmd, h]
  | true =>
    rw [exec_eq_writeCmd, writeCmd_eq_issue]
    simp [hostAccess, issue, hr]

/-- Settles O2: the decoder reads a command from its word alone. -/
theorem decodeInvertsEncode : Obligations.DecodeInvertsEncode :=
  ⟨rfl, rfl, fun _ _ => ⟨decodeWord_eq_ok_iff, decodeWord_illegal_iff, decodeWord_reservedBits_iff⟩⟩

/-- Settles O1: the words of the table, one by one. -/
theorem commandWordsDecode : Obligations.CommandWordsDecode := by
  unfold Obligations.CommandWordsDecode
  decide

/-- Settles O4: the turn is a CMD write of the word, whose meaning is exec of the command it decodes to. -/
theorem stepRunsDecodedCommand : Obligations.StepRunsDecodedCommand := by
  intro s w i h
  exact hostAccess_wrCmd (decodeWord_of_decodeTableWord h) _

/-- Settles O5: the lines are written out, and the turn of a `wait` is a STATUS read that looks at BUSY. -/
theorem hostCommandLines : Obligations.HostCommandLines := by
  refine ⟨fun _ _ => ⟨rfl, rfl⟩, rfl, rfl, fun _ _ _ => rfl, rfl, rfl,
    fun _ _ => wf_of_mem_actions, fun s p rest hr => ?_⟩
  change hostWait (takeTurn p rest s) = match hostAccess (rdAccess .status) (takeTurn p rest s) with
    | .next t => _ | .fault f => _ | .refused x => _
  cases h : hostAccess (rdAccess .status) (takeTurn p rest s) with
  | next t => exact hostWait_of_next hr h
  | fault f => simp only [hostWait, h]
  | refused x => simp only [hostWait, h]

end Sys2Proof.Machine

/-! How a command's rank falls with every engine step (70_reset_and_hazards.md R156), and how a `wait` loop ends (30_encoding.md
R68). -/

namespace Sys2Proof.Machine

/-! ### The rank, phase by phase -/

/-- The steps the WRITE pass can still need, when it is to come. -/
def writePassRank (s : State) : Nat :=
  match s.eng.pass with
  | .validate => s.eng.len.toNat / 4 + 2
  | .write => 0

section
variable {s t u : State}

theorem engineRank_idle (h : s.eng.phase = .idle) : engineRank s = 0 := by simp [engineRank, h]

theorem engineRank_check (h : s.eng.phase = .check) : engineRank s = stepBound s := by simp [engineRank, h]

theorem engineRank_encVec (h : s.eng.phase = .encVec) : engineRank s = (remaining s + 2) / 3 + 2 := by
  simp [engineRank, h, remaining]

theorem engineRank_encTail (h : s.eng.phase = .encTail) : engineRank s = (remaining s + 2) / 3 + 1 := by
  simp [engineRank, h, remaining]

theorem engineRank_decVec (h : s.eng.phase = .decVec) : engineRank s = remaining s / 4 + 2 + writePassRank s := by
  simp only [engineRank, h]
  rfl

theorem engineRank_decTail (h : s.eng.phase = .decTail) : engineRank s = remaining s / 4 + 1 + writePassRank s := by
  simp only [engineRank, h]
  rfl

theorem writePassRank_le (s : State) : writePassRank s ≤ s.eng.len.toNat / 4 + 2 := by
  unfold writePassRank
  split <;> omega

theorem three_le_stepBound (s : State) : 3 ≤ stepBound s := by
  unfold stepBound
  split <;> omega

/-- The rank of a running command is not 0. -/
theorem engineRank_pos (h : s.eng.phase ≠ .idle) : 0 < engineRank s := by
  have hb := three_le_stepBound s
  cases hp : s.eng.phase with
  | idle => exact absurd hp h
  | check => rw [engineRank_check hp]; omega
  | encVec => rw [engineRank_encVec hp]; omega
  | encTail => rw [engineRank_encTail hp]; omega
  | decVec => rw [engineRank_decVec hp]; omega
  | decTail => rw [engineRank_decTail hp]; omega

/-! ### What a step works on -/

/-- v is s in the middle of a step: the loop stands where it stands in s. -/
structure SameLoop (s v : State) : Prop where
  params : v.params = s.params
  phase : v.eng.phase = s.eng.phase
  len : v.eng.len = s.eng.len
  rd : v.eng.rd = s.eng.rd
  pass : v.eng.pass = s.eng.pass

theorem sameLoop_refl (s : State) : SameLoop s s := ⟨rfl, rfl, rfl, rfl, rfl⟩

theorem SameLoop.of_eq (h : SameLoop s t) (hp : u.params = t.params) (he : u.eng = t.eng) : SameLoop s u := by
  obtain ⟨h1, h2, h3, h4, h5⟩ := h
  exact ⟨hp.trans h1, he ▸ h2, he ▸ h3, he ▸ h4, he ▸ h5⟩

theorem SameLoop.setVReg (h : SameLoop s t) (q : VReg) : SameLoop s (setVReg q t) := ⟨h.1, h.2, h.3, h.4, h.5⟩

theorem SameLoop.loadGroup (h : SameLoop s t) (l : List Byte) : SameLoop s (loadGroup l t) := ⟨h.1, h.2, h.3, h.4, h.5⟩

theorem SameLoop.remaining (h : SameLoop s t) : remaining t = remaining s := by
  simp only [Machine.remaining, h.len, h.rd]

theorem SameLoop.writePassRank (h : SameLoop s t) : writePassRank t = writePassRank s := by
  simp only [Machine.writePassRank, h.len, h.pass]

/-- Bytes of the source that a step has read are no longer to be read. -/
theorem SameLoop.remaining_moveCursors (h : SameLoop s t) (hi : Inv s) {n : Nat} (h0 : 0 < n) (hn : n ≤ Machine.remaining s)
    (k v : Nat) : Machine.remaining (moveCursors n k v t) = Machine.remaining s - n := by
  have hlen := hi.latchedFit.2.1
  have hrd : (moveCursors n k v t).eng.rd.toNat = s.eng.rd.toNat + n := by
    unfold Machine.remaining at hn
    rw [← narrow_toNat hi.params (n := s.eng.rd.toNat + n) (by omega), ← h.rd, ← h.params]
    rfl
  simp only [Machine.remaining, hrd, moveCursors_eng_len, h.len]
  omega

/-! ### What lowers the rank -/

/-- An outcome that is a state of a rank below r, or the refusal of the command (20_memory.md R52, log 12). -/
def Lowers (r : Nat) : Host.Outcome State Fault Refusal → Prop
  | .next t => engineRank t < r
  | .fault _ => True
  | .refused x => x = .deviceMemory

variable {r : Nat}

/-- A command that has ended has no step to come. -/
theorem finish_lowers (hr : 0 < r) (c : ResultCode) (s : State) : Lowers r (.next (finish c s)) :=
  show engineRank (finish c s) < r from (engineRank_idle (finish_ends c s).1).trans_lt hr

theorem SameLoop.memRead (h : SameLoop s t) (hr : 0 < r) {lo n : Nat}
    {k : List Byte → State → Host.Outcome State Fault Refusal} (hk : ∀ l u, SameLoop s u → Lowers r (k l u)) :
    Lowers r (memRead lo n t k) := by
  rcases memRead_cases lo n t k with ⟨-, he⟩ | ⟨-, -, he⟩ | ⟨-, -, he⟩ <;> rw [he]
  · trivial
  · exact finish_lowers hr _ _
  · exact hk _ _ (h.of_eq (busTick_params t lo n) (busTick_eng t lo n))

theorem SameLoop.memWrite (h : SameLoop s t) (hr : 0 < r) {lo : Nat} {l : List Byte}
    {k : State → Host.Outcome State Fault Refusal} (hk : ∀ u, SameLoop s u → Lowers r (k u)) :
    Lowers r (memWrite lo l t k) := by
  rcases memWrite_cases lo l t k with ⟨-, he⟩ | ⟨-, -, he⟩ | ⟨-, -, he⟩ <;> rw [he]
  · trivial
  · exact finish_lowers hr _ _
  · exact hk _ (h.of_eq (busTick_params t lo _) (busTick_eng t lo _))

/-- A whole group of ENCODE, or more. -/
theorem SameLoop.moveCursors_encode (h : SameLoop s t) (hi : Inv s)
    (hp : s.eng.phase = .encVec ∨ s.eng.phase = .encTail) {n : Nat} (h3 : 3 ≤ n) (hn : n ≤ Machine.remaining s)
    (k v : Nat) :
    Lowers (engineRank s) (.next (moveCursors n k v t)) := by
  have hrem := h.remaining_moveCursors hi (by omega) hn k v
  show engineRank (moveCursors n k v t) < engineRank s
  rcases hp with hp | hp
  · rw [engineRank_encVec (s := moveCursors n k v t) (h.phase.trans hp), engineRank_encVec hp, hrem]
    omega
  · rw [engineRank_encTail (s := moveCursors n k v t) (h.phase.trans hp), engineRank_encTail hp, hrem]
    omega

/-- A whole group of DECODE, or more. -/
theorem SameLoop.moveCursors_decode (h : SameLoop s t) (hi : Inv s)
    (hp : s.eng.phase = .decVec ∨ s.eng.phase = .decTail) {n : Nat} (h4 : 4 ≤ n) (hn : n ≤ Machine.remaining s)
    (k v : Nat) :
    Lowers (engineRank s) (.next (moveCursors n k v t)) := by
  have hrem := h.remaining_moveCursors hi (by omega) hn k v
  have hpass : Machine.writePassRank (moveCursors n k v t) = Machine.writePassRank s := h.writePassRank
  show engineRank (moveCursors n k v t) < engineRank s
  rcases hp with hp | hp
  · rw [engineRank_decVec (s := moveCursors n k v t) (h.phase.trans hp), engineRank_decVec hp, hrem, hpass]
    omega
  · rw [engineRank_decTail (s := moveCursors n k v t) (h.phase.trans hp), engineRank_decTail hp, hrem, hpass]
    omega

/-- ENC_VEC hands what is left to ENC_TAIL. -/
theorem SameLoop.setPhase_encTail (h : SameLoop s t) (hp : s.eng.phase = .encVec) :
    Lowers (engineRank s) (.next (setPhase .encTail t)) := by
  have hrem : Machine.remaining (setPhase .encTail t) = Machine.remaining s := h.remaining
  show engineRank (setPhase .encTail t) < engineRank s
  rw [engineRank_encTail rfl, engineRank_encVec hp, hrem]
  omega

/-- DEC_VEC hands what is left to DEC_TAIL. -/
theorem SameLoop.setPhase_decTail (h : SameLoop s t) (hp : s.eng.phase = .decVec) :
    Lowers (engineRank s) (.next (setPhase .decTail t)) := by
  have hrem : Machine.remaining (setPhase .decTail t) = Machine.remaining s := h.remaining
  have hpass : Machine.writePassRank (setPhase .decTail t) = Machine.writePassRank s := h.writePassRank
  show engineRank (setPhase .decTail t) < engineRank s
  rw [engineRank_decTail rfl, engineRank_decVec hp, hrem, hpass]
  omega

theorem engineRank_startLoop_encode (p : Pass) (s : State) :
    engineRank (startLoop p (encStart s.params) s) ≤ (s.eng.len.toNat + 2) / 3 + 2 := by
  unfold encStart
  split
  · exact (engineRank_encVec rfl).le
  · exact (engineRank_encTail rfl).le.trans (Nat.le_succ _)

theorem engineRank_startLoop_decode (p : Pass) (s : State) :
    engineRank (startLoop p (decStart s.params) s) ≤
      s.eng.len.toNat / 4 + 2 + writePassRank (startLoop p (decStart s.params) s) := by
  unfold decStart
  split
  · exact (engineRank_decVec rfl).le
  · exact (engineRank_decTail rfl).le.trans (Nat.add_le_add_right (Nat.le_succ _) _)

/-! ### The engine steps -/

theorem stepCheck_lowers (hp : s.eng.phase = .check) : Lowers (engineRank s) (stepCheck s) := by
  rw [engineRank_check hp]
  unfold stepCheck
  split
  · exact finish_lowers (Nat.lt_of_lt_of_le (by decide) (three_le_stepBound s)) _ s
  · split
    · rfl
    · show engineRank (startCommand s) < stepBound s
      unfold startCommand stepBound
      split
      · exact Nat.lt_succ_of_le (engineRank_startLoop_encode _ s)
      · have hstart := engineRank_startLoop_decode .validate s
        have hpass := writePassRank_le (startLoop .validate (decStart s.params) s)
        simp only [startLoop_eng_len] at hpass
        omega

theorem stepEncVec_lowers (h : Inv s) (hp : s.eng.phase = .encVec) : Lowers (engineRank s) (stepEncVec s) := by
  have hpos := engineRank_pos (s := s) (by simp [hp])
  have hs := sameLoop_refl s
  obtain ⟨h3, -⟩ := wf_strides h.params
  unfold stepEncVec
  dsimp only
  split
  · refine hs.memRead hpos fun x u hu => (hu.setVReg _).memWrite hpos fun v hv => ?_
    exact hv.moveCursors_encode h (.inl hp) h3 ‹_› _ _
  · exact hs.setPhase_encTail hp

theorem stepEncTail_lowers (h : Inv s) (hp : s.eng.phase = .encTail) : Lowers (engineRank s) (stepEncTail s) := by
  have hpos := engineRank_pos (s := s) (by simp [hp])
  have hs := sameLoop_refl s
  unfold stepEncTail
  dsimp only
  split
  · refine hs.memRead hpos fun g u hu => (hu.loadGroup g).memWrite hpos fun v hv => ?_
    exact hv.moveCursors_encode h (.inr hp) le_rfl ‹_› _ _
  · split
    · exact finish_lowers hpos _ _
    · exact hs.memRead hpos fun g u hu => (hu.loadGroup g).memWrite hpos fun v _ => finish_lowers hpos _ _

theorem stepDecVec_lowers (h : Inv s) (hp : s.eng.phase = .decVec) : Lowers (engineRank s) (stepDecVec s) := by
  have hpos := engineRank_pos (s := s) (by simp [hp])
  have hs := sameLoop_refl s
  obtain ⟨-, -, -, h4, -⟩ := wf_strides h.params
  unfold stepDecVec
  dsimp only
  split
  · refine hs.memRead hpos fun c u hu => ?_
    split
    · exact (hu.setVReg _).setPhase_decTail hp
    · split
      · exact (hu.setVReg _).moveCursors_decode h (.inl hp) h4 ‹_› _ _
      · refine ((hu.setVReg _).setVReg _).memWrite hpos fun v hv => ?_
        exact hv.moveCursors_decode h (.inl hp) h4 ‹_› _ _
  · exact hs.setPhase_decTail hp

theorem stepDecTail_lowers (h : Inv s) (hp : s.eng.phase = .decTail) : Lowers (engineRank s) (stepDecTail s) := by
  have hpos := engineRank_pos (s := s) (by simp [hp])
  have hs := sameLoop_refl s
  unfold stepDecTail
  dsimp only
  split
  · split
    · rename_i hpass
      have hstart : engineRank (startWritePass s) ≤ s.eng.len.toNat / 4 + 2 := engineRank_startLoop_decode .write s
      show engineRank (startWritePass s) < engineRank s
      rw [engineRank_decTail hp, writePassRank, hpass]
      dsimp only
      omega
    · exact finish_lowers hpos _ _
  · have hle := h.decTail_whole hp ‹_›
    refine hs.memRead hpos fun g u hu => ?_
    split
    · exact finish_lowers hpos _ _
    · split
      · exact (hu.loadGroup g).moveCursors_decode h (.inr hp) le_rfl hle _ _
      · refine (hu.loadGroup g).memWrite hpos fun v hv => ?_
        exact hv.moveCursors_decode h (.inr hp) le_rfl hle _ _

/-- Every engine step of a running command lowers its rank, or is the refusal of the command. -/
theorem engineStep_lowers (h : Inv s) (hp : s.eng.phase ≠ .idle) : Lowers (engineRank s) (engineStep s) := by
  unfold engineStep
  split
  · exact absurd ‹_› hp
  · exact stepCheck_lowers ‹_›
  · exact stepEncVec_lowers h ‹_›
  · exact stepEncTail_lowers h ‹_›
  · exact stepDecVec_lowers h ‹_›
  · exact stepDecTail_lowers h ‹_›

/-- What holds of the runs from every state of a lower rank holds of a run that takes a step. -/
theorem engineRun_succ_lowers {n : Nat} (h : Inv s) (hp : s.eng.phase ≠ .idle)
    (hk : ∀ t, Inv t → engineRank t < engineRank s → Lowers r (engineRun n t)) : Lowers r (engineRun (n + 1) s) := by
  have hl := engineStep_lowers h hp
  have hg := engineStep_good h
  rw [engineRun, if_neg hp]
  cases he : engineStep s with
  | next t =>
    rw [he] at hl hg
    exact hk t hg hl
  | fault f => trivial
  | refused x =>
    rw [he] at hl
    exact hl

theorem engineRun_lowers_of_lt (n : Nat) (h : Inv s) (hr : engineRank s < r) : Lowers r (engineRun n s) := by
  induction n generalizing s with
  | zero => exact hr
  | succ n ih =>
    by_cases hp : s.eng.phase = .idle
    · rw [engineRun_idle _ hp]
      exact hr
    · exact engineRun_succ_lowers h hp fun t ht hlt => ih ht (hlt.trans hr)

/-- A run of at least one step lowers the rank of a running command. -/
theorem engineRun_lowers (n : Nat) (h : Inv s) (hp : s.eng.phase ≠ .idle) :
    Lowers (engineRank s) (engineRun (n + 1) s) :=
  engineRun_succ_lowers h hp fun _ ht hlt => engineRun_lowers_of_lt n ht hlt

theorem advance_lowers_of_lt (h : Inv s) (hr : engineRank s < r) : Lowers r (advance s) := by
  unfold advance
  split <;> exact engineRun_lowers_of_lt _ h hr

/-- At any pace but no steps, the engine runs at least one step. -/
theorem advance_lowers (h : Inv s) (hp : s.eng.phase ≠ .idle) (hpace : s.pace ≠ .steps 0) :
    Lowers (engineRank s) (advance s) := by
  unfold advance
  split
  · rename_i n hn
    obtain ⟨m, rfl⟩ := Nat.exists_eq_succ_of_ne_zero (n := n) (by rintro rfl; exact hpace hn)
    exact engineRun_lowers m h hp
  · obtain ⟨m, hm⟩ := Nat.exists_eq_succ_of_ne_zero (n := stepBound s) (by have := three_le_stepBound s; omega)
    exact hm ▸ engineRun_lowers m h hp

/-! ### The reads of a `wait` loop (30_encoding.md R68) -/

/-- The next turn is a `wait` at the pace p, of a released block. -/
structure Waiting (p : Pace) (rest : List Turn) (s : State) : Prop where
  inv : Inv s
  released : s.inReset = false
  next : s.inbox = { action := .wait, pace := p } :: rest

/-- The loop has ended with a value whose BUSY is 0, or the command was refused (20_memory.md R52, log 12). -/
def WaitOver (rest : List Turn) (x : Host.Outcome State Fault Refusal) : Prop :=
  (∃ (t : State) (w : Word), x = .next t ∧ t.inbox = rest ∧ t.eng.phase = .idle ∧ t.response = some w ∧
    w.getLsbD 0 = false) ∨ x = .refused .deviceMemory

variable {p : Pace} {rest : List Turn}

theorem fairPace_ne (p : Pace) : fairPace p ≠ .steps 0 := by
  unfold fairPace
  split
  · decide
  · assumption

theorem Waiting.step_eq (h : Waiting p rest s) : step s = hostWait (takeTurn p rest s) := by
  rw [step, h.next]
  rfl

/-- The engine's run after a read of the loop. -/
theorem Waiting.hostAccess_eq (h : Waiting p rest s) :
    hostAccess (rdAccess .status) (takeTurn p rest s) = advance (readStatus (takeTurn p rest s)) :=
  hostAccess_rdStatus (s := takeTurn p rest s) h.released

theorem Waiting.step_of_next (h : Waiting p rest s) (ha : advance (readStatus (takeTurn p rest s)) = .next t) :
    step s = .next (if s.regs.status.busy then { t with inbox := { action := .wait, pace := fairPace p } :: rest } else t) :=
  h.step_eq.trans (hostWait_of_next (s := takeTurn p rest s) h.released (h.hostAccess_eq.trans ha))

/-- A read of an IDLE block ends the loop. -/
theorem Waiting.step_idle (h : Waiting p rest s) (hp : s.eng.phase = .idle) : WaitOver rest (step s) := by
  have hbusy : s.regs.status.busy = false := by
    rw [← Bool.not_eq_true, h.inv.busyIff]
    exact not_not.mpr hp
  have ha : advance (readStatus (takeTurn p rest s)) = .next (readStatus (takeTurn p rest s)) := by
    unfold advance
    split <;> exact engineRun_idle _ hp
  rw [h.step_of_next ha, hbusy]
  exact .inl ⟨_, _, rfl, rfl, hp, rfl, (getLsbD_zero_word s.regs.status).trans hbusy⟩

/-- A read of a running block leaves the loop where it is, at a fair pace, with the command no less far on; and further on
unless the pace is no steps. -/
theorem Waiting.step_running (h : Waiting p rest s) (hp : s.eng.phase ≠ .idle) :
    step s = .refused .deviceMemory ∨
    ∃ t, step s = .next t ∧ Waiting (fairPace p) rest t ∧ engineRank t ≤ engineRank s ∧
      (p ≠ .steps 0 → engineRank t < engineRank s) := by
  have hi : Inv (readStatus (takeTurn p rest s)) := h.inv.of_mem rfl rfl rfl rfl h.inv.memWf h.inv.memBelow
  have hgood := advance_good hi
  have hle : Lowers (engineRank s + 1) (advance (readStatus (takeTurn p rest s))) :=
    advance_lowers_of_lt hi (Nat.lt_succ_self _)
  have hlt : p ≠ .steps 0 → Lowers (engineRank s) (advance (readStatus (takeTurn p rest s))) := advance_lowers hi hp
  cases ha : advance (readStatus (takeTurn p rest s)) with
  | fault f =>
    rw [ha] at hgood
    exact hgood.elim
  | refused x =>
    rw [ha] at hle
    refine .inl ?_
    rw [h.step_eq, hostWait, h.hostAccess_eq, ha, show x = .deviceMemory from hle]
  | next t =>
    rw [ha] at hgood hle hlt
    have hinv : Inv t := hgood
    have hreleased : t.inReset = false := (advance_keeps ha).inReset.trans h.released
    have hstep := h.step_of_next ha
    rw [h.inv.busyIff.mpr hp, if_pos rfl] at hstep
    refine .inr ⟨_, hstep, ⟨?_, hreleased, rfl⟩, Nat.le_of_lt_succ hle, hlt⟩
    exact hinv.of_mem rfl rfl rfl rfl hinv.memWf hinv.memBelow

theorem stepN_one (s : State) : stepN 1 s = step s := by
  rw [stepN]
  cases step s <;> rfl

theorem stepN_succ_of_next (n : Nat) (h : step s = .next t) : stepN (n + 1) s = stepN n t := by
  rw [stepN, h]

/-- The loop ends within k + 1 steps when it ends within k from where a read of a running block leaves it. -/
theorem Waiting.ends_succ {k : Nat} (h : Waiting p rest s)
    (hk : ∀ t, Waiting (fairPace p) rest t → engineRank t ≤ engineRank s →
      (p ≠ .steps 0 → engineRank t < engineRank s) → ∃ n, n ≤ k ∧ WaitOver rest (stepN n t)) :
    ∃ n, n ≤ k + 1 ∧ WaitOver rest (stepN n s) := by
  by_cases hp : s.eng.phase = .idle
  · exact ⟨1, by omega, stepN_one s ▸ h.step_idle hp⟩
  · rcases h.step_running hp with hr | ⟨t, ht, hw, hle, hlt⟩
    · exact ⟨1, by omega, .inr ((stepN_one s).trans hr)⟩
    · obtain ⟨n, hn, ho⟩ := hk t hw hle hlt
      exact ⟨n + 1, by omega, stepN_succ_of_next n ht ▸ ho⟩

/-- At a fair pace every read but the last lowers the rank. -/
theorem Waiting.ends_of_fair {k : Nat} (h : Waiting p rest s) (hp : p ≠ .steps 0) (hk : engineRank s < k) :
    ∃ n, n ≤ k ∧ WaitOver rest (stepN n s) := by
  induction k generalizing s p with
  | zero => omega
  | succ k ih => exact h.ends_succ fun t ht _ hlt => ih ht (fairPace_ne p) ((hlt hp).trans_le (Nat.le_of_lt_succ hk))

end

/-- Settles O60: the first read leaves the loop at a fair pace, from which every read but the last lowers the rank. -/
theorem waitEnds : Obligations.WaitEnds := by
  intro s p rest h hr hi
  have hw : Waiting p rest s := ⟨h, hr, hi⟩
  exact hw.ends_succ fun t ht hle _ => ht.ends_of_fair (fairPace_ne p) (Nat.lt_succ_of_le hle)

end Sys2Proof.Machine

/-! The lane operations (40_lane_ops.md): each has one rule for what a lane of its result is, and the obligations read the
lane as arithmetic or as bits. -/

namespace Sys2Proof.Machine

section
variable {m a b : List Byte} {i : Nat} {u x y : Byte}

/-! ### The lanes of each result -/

/-- A lane of a two-operand operation comes from the same lane of each operand (R70). -/
theorem lane_zipWith {β : Type} {f : Byte → β → Byte} {s : List β} {k : β} (hx : a[i]? = some x) (hk : s[i]? = some k) :
    (List.zipWith f a s)[i]? = some (f x k) :=
  List.getElem?_zipWith_eq_some.mpr ⟨x, k, hx, hk, rfl⟩

theorem lane_vdup (k : Int) {n : Nat} (h : i < n) : (vdup k n)[i]? = some (BitVec.ofInt 8 k) :=
  List.getElem?_replicate_of_lt h

theorem lane_vadd (hx : a[i]? = some x) (hy : b[i]? = some y) : (vadd a b)[i]? = some (x + y) := lane_zipWith hx hy

theorem lane_vsub (hx : a[i]? = some x) (hy : b[i]? = some y) : (vsub a b)[i]? = some (x - y) := lane_zipWith hx hy

theorem lane_vqsub (hx : a[i]? = some x) (hy : b[i]? = some y) : (vqsub a b)[i]? = some (qsubLane x y) :=
  lane_zipWith hx hy

theorem lane_vcgt (hx : a[i]? = some x) (hy : b[i]? = some y) :
    (vcgt a b)[i]? = some (if y.toNat < x.toNat then 0xFF else 0x00) := by
  rw [vcgt, lane_zipWith hx hy]
  simp [maskLane, BitVec.lt_def]

theorem lane_vcge (hx : a[i]? = some x) (hy : b[i]? = some y) :
    (vcge a b)[i]? = some (if y.toNat ≤ x.toNat then 0xFF else 0x00) := by
  rw [vcge, lane_zipWith hx hy]
  simp [maskLane, BitVec.le_def]

theorem lane_vcle (hx : a[i]? = some x) (hy : b[i]? = some y) :
    (vcle a b)[i]? = some (if x.toNat ≤ y.toNat then 0xFF else 0x00) := by
  rw [vcle, lane_zipWith hx hy]
  simp [maskLane, BitVec.le_def]

theorem lane_vceq (hx : a[i]? = some x) (hy : b[i]? = some y) :
    (vceq a b)[i]? = some (if x.toNat = y.toNat then 0xFF else 0x00) := by
  rw [vceq, lane_zipWith hx hy]
  simp [maskLane, BitVec.toNat_inj]

theorem lane_vand (hx : a[i]? = some x) (hy : b[i]? = some y) : (vand a b)[i]? = some (x &&& y) := lane_zipWith hx hy

theorem lane_vorr (hx : a[i]? = some x) (hy : b[i]? = some y) : (vorr a b)[i]? = some (x ||| y) := lane_zipWith hx hy

theorem lane_vbsl (hu : m[i]? = some u) (hx : a[i]? = some x) (hy : b[i]? = some y) :
    (vbsl m a b)[i]? = some ((u &&& x) ||| (~~~u &&& y)) := by
  have hnot : (m.map (~~~ ·))[i]? = some (~~~u) := by rw [List.getElem?_map, hu, Option.map_some]
  exact lane_vorr (lane_vand hu hx) (lane_vand hnot hy)

theorem lane_vshl {s : List Nat} {k : Nat} (hx : a[i]? = some x) (hk : s[i]? = some k) :
    (vshl a s)[i]? = some (if k < 8 then x <<< k else 0) := lane_zipWith hx hk

theorem lane_vshr {s : List Nat} {k : Nat} (hx : a[i]? = some x) (hk : s[i]? = some k) :
    (vshr a s)[i]? = some (if k < 8 then x >>> k else 0) := lane_zipWith hx hk

theorem lane_vtbl16 (impl : TblImpl) (t : List Byte) (h : a.length ≤ 64) (hx : a[i]? = some x) :
    (vtbl16 impl t a)[i]? = some (tableLane t x) := by
  rw [vtbl16_eq_map impl t a h, List.getElem?_map, hx, Option.map_some]

theorem lane_vperm (src : List Byte) {p : List (Option Nat)} {e : Option Nat} (he : p[i]? = some e) :
    (vperm src p)[i]? = some (permLane src e) := by
  rw [vperm, List.getElem?_map, he, Option.map_some]

/-! ### A lane's value as arithmetic -/

theorem toNat_ofInt_byte (k : Int) : ((BitVec.ofInt 8 k).toNat : Int) = k % 256 := by
  rw [BitVec.toNat_ofInt]
  omega

theorem toNat_sub_byte (x y : Byte) : ((x - y).toNat : Int) = ((x.toNat : Int) - y.toNat) % 256 := by
  rw [BitVec.toNat_sub]
  omega

/-- VQSUB never wraps: it subtracts only where the lane is large enough (R74). -/
theorem toNat_qsubLane (x y : Byte) : (qsubLane x y).toNat = if y.toNat ≤ x.toNat then x.toNat - y.toNat else 0 := by
  simp only [qsubLane, BitVec.le_def]
  split
  · next hle => exact BitVec.toNat_sub_of_le hle
  · rfl

theorem toNat_shl_or_zero (x : Byte) (k : Nat) :
    (if k < 8 then x <<< k else 0 : Byte).toNat = if k < 8 then (x.toNat * 2 ^ k) % 256 else 0 := by
  split
  · rw [BitVec.toNat_shiftLeft, Nat.shiftLeft_eq]
  · rfl

theorem toNat_shr_or_zero (x : Byte) (k : Nat) :
    (if k < 8 then x >>> k else 0 : Byte).toNat = if k < 8 then x.toNat / 2 ^ k else 0 := by
  split
  · rw [BitVec.toNat_ushiftRight, Nat.shiftRight_eq_div_pow]
  · rfl

/-! ### A lane's value as bits, and as an entry of a table -/

/-- A mask bit of 1 selects the first operand and a mask bit of 0 the second (R77). At a place above the byte all bits are 0. -/
theorem getLsbD_select (u x y : Byte) (j : Nat) :
    ((u &&& x) ||| (~~~u &&& y)).getLsbD j = if u.getLsbD j then x.getLsbD j else y.getLsbD j := by
  simp only [BitVec.getLsbD_or, BitVec.getLsbD_and, BitVec.getLsbD_not]
  by_cases hj : j < 8
  · cases u.getLsbD j <;> simp [hj]
  · simp [BitVec.getLsbD_of_ge _ j (Nat.le_of_not_lt hj)]

theorem vany_iff (m : List Byte) : vany m = true ↔ ∃ x ∈ m, x ≠ 0 := by
  simp [vany]

theorem getD_zero_eq_dite (l : List Byte) (j : Nat) : l.getD j 0 = if h : j < l.length then l[j] else 0 := by
  split
  · next h => exact List.getD_eq_getElem l 0 h
  · next h => exact List.getD_eq_default l 0 (Nat.le_of_not_lt h)

/-- With a table of 16 entries the bound on the index is the bound of the table. -/
theorem tableLane_eq_dite {t : List Byte} (ht : t.length = 16) (x : Byte) :
    tableLane t x = if h : x.toNat < t.length then t[x.toNat] else 0 := by
  rw [← getD_zero_eq_dite, tableLane]
  split
  · rfl
  · next h => exact (List.getD_eq_default t 0 (by omega)).symm

end

/-- Settles O46: each lane of the result, read as a number. -/
theorem laneArithmetic : Obligations.LaneArithmetic := by
  intro a b k n i x y hlen hx hy
  refine ⟨fun hi => ⟨_, lane_vdup k hi, toNat_ofInt_byte k⟩, ⟨_, lane_vadd hx hy, BitVec.toNat_add x y⟩,
    ⟨_, lane_vsub hx hy, toNat_sub_byte x y⟩, ⟨_, lane_vqsub hx hy, toNat_qsubLane x y⟩, length_vdup k n, ?_, ?_, ?_⟩
  · rw [length_vadd, ← hlen, Nat.min_self]
  · rw [length_vsub, ← hlen, Nat.min_self]
  · rw [length_vqsub, ← hlen, Nat.min_self]

/-- Settles O47: each lane of the result, read as a mask or bit by bit. -/
theorem laneMasksAndBits : Obligations.LaneMasksAndBits := by
  intro m a b i u x y _ _ hu hx hy
  exact ⟨lane_vcgt hx hy, lane_vcge hx hy, lane_vcle hx hy, lane_vceq hx hy,
    ⟨_, lane_vand hx hy, fun _ => BitVec.getLsbD_and⟩, ⟨_, lane_vorr hx hy, fun _ => BitVec.getLsbD_or⟩,
    ⟨_, lane_vbsl hu hx hy, getLsbD_select u x y⟩⟩

/-- Settles O48: each lane of the result, where both table builds look every lane up on its own. -/
theorem laneShiftsTablesPermutes : Obligations.LaneShiftsTablesPermutes := by
  intro a t src s p impl i
  refine ⟨fun x k hx hk => ⟨⟨_, lane_vshl hx hk, toNat_shl_or_zero x k⟩, ⟨_, lane_vshr hx hk, toNat_shr_or_zero x k⟩⟩,
    vany_iff a, fun x ha ht hx => ?_, fun e he => ?_⟩
  · rw [lane_vtbl16 impl t ha hx, tableLane_eq_dite ht]
  · rw [lane_vperm src he]
    cases e with
    | none => rfl
    | some j => exact congrArg some (getD_zero_eq_dite src j)

end Sys2Proof.Machine

/-! The host's actions and the invariant (41_loop_driver.md R95, R99): every action, with the engine's run that follows it,
leaves a state of the invariant and never faults. Acceptance of a CMD write (R82, R83) is one of them. -/

namespace Sys2Proof.Machine

/-! ### The actions of the host (10_state.md R23 to R35, 20_memory.md R55, 70_reset_and_hazards.md R148, R149) -/

section
variable {s : State}

/-- The invariant does not speak of races, of free values still to be drawn, or of what the outside reads and plans. -/
theorem Inv.outside {raced : Bool} {draws : Nat} {response : Option Word} {pace : Pace} {inbox : List Turn} (h : Inv s) :
    Inv { s with raced := raced, draws := draws, response := response, pace := pace, inbox := inbox } :=
  h.of_mem rfl rfl rfl rfl h.memWf h.memBelow

theorem issue_good (h : Inv s) (w : Word) : Good (issue w s) := by
  unfold issue
  split
  · exact h
  · have hr : s.inReset = false := eq_false_of_ne_true ‹_›
    split
    · exact advance_good (overrun_inv h hr)
    · exact advance_good (accept_inv h hr w)

theorem hostWrite_good (h : Inv s) (hr : s.inReset = false) (r : RegName) (w : Word) : Good (hostWrite r w s) := by
  by_cases hc : r = .cmd
  · subst hc
    rw [hostWrite, writeCmd_eq_issue]
    exact issue_good h w
  · rw [hostWrite_of_ne_cmd hc]
    exact advance_good (writeReg_inv h hr r w)

theorem hostRead_good (h : Inv s) (r : RegName) : Good (hostRead r s) :=
  advance_good h.outside

theorem hostAccess_good (h : Inv s) (t : Transaction) : Good (hostAccess t s) := by
  unfold hostAccess
  split
  · trivial
  · split
    · exact h
    · have hr : s.inReset = false := eq_false_of_ne_true ‹_›
      cases t.kind with
      | read => exact hostRead_good h _
      | write => exact hostWrite_good h hr _ _

theorem hostWait_good (h : Inv s) : Good (hostWait s) := by
  have hg := hostAccess_good h (rdAccess .status)
  unfold hostWait
  cases ha : hostAccess (rdAccess .status) s with
  | next t =>
    rw [ha] at hg
    have ht : Inv t := hg
    show Inv (if waitsOn t.response then _ else t)
    split
    · exact ht.outside
    · exact ht
  | fault f => rwa [ha] at hg
  | refused r => trivial

theorem hostMemRead_good (h : Inv s) (a : Nat) : Good (hostMemRead a s) := by
  unfold hostMemRead
  split
  · split
    · exact advance_good h.outside
    · exact advance_good h.outside
  · trivial

theorem hostMemWrite_good (h : Inv s) (a : Nat) (b : Byte) : Good (hostMemWrite a b s) := by
  unfold hostMemWrite
  split
  · rename_i ho
    simp only [hostOrdinary, Bool.and_eq_true, decide_eq_true_eq] at ho
    have hwrite (c : Byte) : Inv { s with mem := Memory.write s.mem a c } :=
      h.of_mem rfl rfl rfl rfl (Memory.wf_write a c h.memWf) (Memory.below_write c h.memBelow ho.1)
    dsimp only
    split
    · exact advance_good (hwrite _).outside
    · exact advance_good (hwrite _).outside
  · trivial

/-- A block whose reset input is released has the registers it had. -/
theorem released_inv (h : Inv s) : Inv { s with inReset := false } :=
  h.of_regs rfl rfl rfl h.operandsFit rfl rfl rfl rfl id (by simp) (by simp)

theorem hostReset_good (h : Inv s) (level : Bool) : Good (hostReset level s) := by
  unfold hostReset
  cases level with
  | true =>
    show Inv (if s.inReset then s else resetBlock s)
    split
    · exact h
    · exact resetBlock_inv h
  | false => exact released_inv h

theorem hostResetDuring_good (h : Inv s) (t : Transaction) : Good (hostResetDuring t s) := by
  unfold hostResetDuring
  split
  · trivial
  · rename_i r _
    split
    · exact h
    · have hr : s.inReset = false := eq_false_of_ne_true ‹_›
      cases t.kind with
      | read => exact resetBlock_inv h.outside
      | write =>
        have hd : Inv { s with draws := s.draws + 1, pace := .steps 0 } := h.outside
        have hw := hostWrite_good hd hr r t.data
        dsimp only
        split
        · split
          · rename_i u hu
            rw [hu] at hw
            exact resetBlock_inv hw
          · rename_i f hf
            rwa [hf] at hw
          · trivial
        · exact resetBlock_inv h.outside

theorem hostReleaseDuring_good (h : Inv s) (t : Transaction) : Good (hostReleaseDuring t s) := by
  unfold hostReleaseDuring
  split
  · trivial
  · split
    · cases t.kind with
      | read => exact advance_good (released_inv h).outside
      | write =>
        dsimp only
        split
        · exact hostWrite_good (released_inv h).outside rfl _ _
        · exact advance_good (released_inv h).outside
    · exact hostAccess_good h t

theorem perform_good (h : Inv s) (a : HostAction) : Good (perform a s) := by
  cases a with
  | access t => exact hostAccess_good h t
  | wait => exact hostWait_good h
  | memRead x => exact hostMemRead_good h x.toNat
  | memWrite x b => exact hostMemWrite_good h x.toNat b
  | resetInput level => exact hostReset_good h level
  | resetDuring t => exact hostResetDuring_good h t
  | releaseDuring t => exact hostReleaseDuring_good h t

/-- A step keeps the invariant and never faults. -/
theorem step_good (h : Inv s) : Good (step s) := by
  unfold step
  split
  · exact engineStep_good h
  · exact perform_good (s := takeTurn _ _ s) h.outside _

/-! ### The cursors past CHECK (R95) -/

/-- Cursors within the source and the destination range of a command that passed CHECK stay within the address space. -/
theorem cursors_within_space (hrf : rangeFails s = false) (hrd : s.eng.rd.toNat ≤ s.eng.len.toNat)
    (hwr : s.eng.wr.toNat ≤ s.dstSize) :
    s.eng.src.toNat + s.eng.rd.toNat ≤ 2 ^ s.params.aw ∧ s.eng.dst.toNat + s.eng.wr.toNat ≤ 2 ^ s.params.aw := by
  obtain ⟨hsrc, hdst⟩ := rangeFails_bounds hrf
  unfold Params.space at hsrc hdst
  omega

/-- The cursors of ENCODE past CHECK, in either of its phases. -/
theorem Inv.encode_cursors (h : Inv s) (hp : s.eng.phase = .encVec ∨ s.eng.phase = .encTail) :
    s.eng.cmd = 1 ∧ rangeFails s = false ∧ s.eng.rd.toNat ≤ s.eng.len.toNat ∧
      s.eng.wr.toNat = 4 * ((s.eng.rd.toNat + 2) / 3) ∧
      (s.eng.phase = .encVec → s.eng.rd.toNat = s.eng.ns.toNat * s.params.encIn) := by
  have hc := h.cursors
  rcases hp with hp | hp
  · simp only [CursorInv, hp] at hc
    obtain ⟨hcmd, -, hrf, hrd, hns, hwr⟩ := hc
    exact ⟨hcmd, hrf, hrd, hwr, fun _ => hns⟩
  · simp only [CursorInv, hp] at hc
    obtain ⟨hcmd, -, hrf, -, hrd, hwr⟩ := hc
    exact ⟨hcmd, hrf, hrd, hwr, by simp [hp]⟩

/-- The cursors of DECODE past CHECK, in either of its phases. -/
theorem Inv.decode_cursors (h : Inv s) (hp : s.eng.phase = .decVec ∨ s.eng.phase = .decTail) :
    s.eng.cmd = 2 ∧ rangeFails s = false ∧ s.eng.rd.toNat ≤ s.eng.len.toNat ∧ s.eng.rd.toNat % 4 = 0 ∧
      s.eng.wr.toNat ≤ 3 * (s.eng.rd.toNat / 4) ∧
      (s.eng.rd.toNat < s.eng.len.toNat → s.eng.wr.toNat = 3 * (s.eng.rd.toNat / 4)) := by
  have hc := h.cursors
  rcases hp with hp | hp
  · simp only [CursorInv, hp] at hc
    obtain ⟨hcmd, -, hrf, -, hr4, hrd, -, hwr⟩ := hc
    exact ⟨hcmd, hrf, hrd, hr4, hwr.le, fun _ => hwr⟩
  · simp only [CursorInv, hp] at hc
    obtain ⟨hcmd, -, hrf, -, hr4, hrd, hwle, hwr⟩ := hc
    exact ⟨hcmd, hrf, hrd, hr4, hwle, hwr⟩

end

/-! ### The statements -/

/-- Settles O37: by cases on the host action, each of which leaves a state of the invariant for the engine to run from. -/
theorem stepKeepsInvariant : Obligations.StepKeepsInvariant := by
  intro s t h ht
  have hg := step_good h
  rwa [ht] at hg

/-- Settles O38: a step from a state of the invariant is good, and a fault is not. -/
theorem stepNeverFaults : Obligations.StepNeverFaults := by
  intro s f h hf
  have hg := step_good h
  rwa [hf] at hg

/-- Settles O40: the cursors of ENCODE, and those of DECODE, whichever of its two phases the command is in. -/
theorem cursorBounds : Obligations.CursorBounds := by
  intro s h hidle hcheck
  have hphase : (s.eng.phase = .encVec ∨ s.eng.phase = .encTail) ∨
      (s.eng.phase = .decVec ∨ s.eng.phase = .decTail) := by
    cases hp : s.eng.phase <;> simp_all
  rcases hphase with hp | hp
  · obtain ⟨hcmd, hrf, hrd, hwr, hns⟩ := h.encode_cursors hp
    have hout : s.eng.wr.toNat ≤ s.dstSize := by rw [dstSize_encode hcmd]; omega
    obtain ⟨hsrc, hdst⟩ := cursors_within_space hrf hrd hout
    exact ⟨hrd, hout, hsrc, hdst, fun _ => hwr, hns, fun h2 => absurd (hcmd.symm.trans h2) (by decide)⟩
  · obtain ⟨hcmd, hrf, hrd, hr4, hwle, hwr⟩ := h.decode_cursors hp
    have hout : s.eng.wr.toNat ≤ s.dstSize := by rw [dstSize_decode hcmd]; omega
    obtain ⟨hsrc, hdst⟩ := cursors_within_space hrf hrd hout
    refine ⟨hrd, hout, hsrc, hdst, fun h1 => absurd (hcmd.symm.trans h1) (by decide), fun hv => ?_,
      fun _ => ⟨hr4, hwle, hwr⟩⟩
    rcases hp with hp | hp <;> simp [hp] at hv

/-- Settles O13: the operand registers fit in AW bits, so acceptance latches them as they are. -/
theorem acceptLatchesOperands : Obligations.AcceptLatchesOperands := by
  intro s w hwf hr hb hp hsrc hlen hdst
  have haccept : writeCmd w s = .next (accept w s) := by
    rw [writeCmd_eq_issue, issue_accepted hr hb, advance_paused (s := accept w s) hp]
  refine ⟨haccept.trans ?_, fun r v t _ => writeReg_eng r v t⟩
  simp only [accept, narrow_self hwf hsrc, narrow_self hwf hlen, narrow_self hwf hdst]
  rfl

/-- Settles O14: a busy block turns the word away, and no engine step follows. -/
theorem busyWriteSetsOverrunOnly : Obligations.BusyWriteSetsOverrunOnly := by
  intro s w hr hb hp
  rw [writeCmd_eq_issue, issue, if_neg (ne_true_of_eq_false hr), if_pos hb, advance_paused (s := overrun s) hp]
  rfl

/-- Settles O35: STATUS is 1 for BUSY, and 4 more for OVERRUN. -/
theorem busyHidesResults : Obligations.BusyHidesResults := by
  intro s h hp
  obtain ⟨hbusy, hdone, hresult, hcount, hstrides, -⟩ := h.running hp
  refine ⟨?_, hcount, hstrides⟩
  change s.regs.status.word.toNat = 0x1 ∨ s.regs.status.word.toNat = 0x5
  rw [Status.toNat_word, hbusy, hdone, hresult]
  cases s.regs.status.overrun with
  | false => exact .inl rfl
  | true => exact .inr rfl

end Sys2Proof.Machine

/-! The texts Enc and Dec as inverses of each other, with their lengths and their padding (41_loop_driver.md R89, R94, R96;
44_scalar_fallback.md R129). -/

namespace Sys2Proof.Machine

/-! ### Fields and characters, one group (43_reshuffle.md R113, 44_scalar_fallback.md R123 to R125) -/

/-- DEC is the inverse of ALPHA on six-bit fields (42_translate.md R110). -/
theorem decChar_alpha : ∀ f : Byte, f.toNat < 64 → decChar (alpha f) = some f := by
  decide +kernel

theorem ne_pad_of_decChar {c f : Byte} (h : decChar c = some f) : (c == pad) = false := by
  rw [beq_eq_false_iff_ne]
  rintro rfl
  simp [decChar_pad] at h

/-- Three bytes are four six-bit fields, and PACK gives the bytes back (43_reshuffle.md R113, R117). -/
theorem exists_fields (b0 b1 b2 : Byte) : ∃ f0 f1 f2 f3 : Byte, fields b0 b1 b2 = [f0, f1, f2, f3] ∧
    (f0.toNat < 64 ∧ f1.toNat < 64 ∧ f2.toNat < 64 ∧ f3.toNat < 64) ∧ pack f0 f1 f2 f3 = [b0, b1, b2] := by
  have hlt : ∀ f ∈ fields b0 b1 b2, f.toNat < 64 := by
    rw [show fields b0 b1 b2 = reshufEnc [b0, b1, b2] from (reshufEnc_cons b0 b1 b2 []).symm]
    exact reshufEnc_lt
  refine ⟨_, _, _, _, rfl, ⟨hlt _ (by simp [fields]), hlt _ (by simp [fields]), hlt _ (by simp [fields]),
    hlt _ (by simp [fields])⟩, ?_⟩
  simp only [pack, List.cons.injEq, and_true]
  refine ⟨?_, ?_, ?_⟩ <;>
    (apply BitVec.eq_of_getLsbD_eq; intro i hi; interval_cases i <;> simp)

/-- SC_DEC_GROUP undoes SC_ENC_GROUP, in a final group and in any other. -/
theorem scDecGroup_scEncGroup (b0 b1 b2 : Byte) (final : Bool) : ∃ c0 c1 c2 c3 : Byte,
    scEncGroup b0 b1 b2 = [c0, c1, c2, c3] ∧ scDecGroup c0 c1 c2 c3 final = some [b0, b1, b2] := by
  obtain ⟨f0, f1, f2, f3, hf, ⟨h0, h1, h2, h3⟩, hpack⟩ := exists_fields b0 b1 b2
  refine ⟨alpha f0, alpha f1, alpha f2, alpha f3, by rw [scEncGroup, hf]; rfl, ?_⟩
  rw [← hpack]
  exact scDecGroup_alphabet final (decChar_alpha f0 h0) (decChar_alpha f1 h1) (decChar_alpha f2 h2) (decChar_alpha f3 h3)

/-- SC_DEC_GROUP undoes SC_ENC_TAIL in the final group: the fields past the short group are not looked at. -/
theorem scDecGroup_scEncTail {g : List Byte} (hg : g.length = 1 ∨ g.length = 2) : ∃ c0 c1 c2 c3 : Byte,
    scEncTail g = [c0, c1, c2, c3] ∧ scDecGroup c0 c1 c2 c3 true = some g := by
  match g with
  | [] => simp at hg
  | [b0] =>
    obtain ⟨f0, f1, f2, f3, hf, ⟨h0, h1, -, -⟩, hpack⟩ := exists_fields b0 0 0
    refine ⟨alpha f0, alpha f1, pad, pad, by rw [scEncTail, hf]; rfl, ?_⟩
    have htake : (pack f0 f1 0 0).take 1 = [b0] := congrArg (List.take 1) hpack
    simpa [scDecGroup, decChar_alpha f0 h0, decChar_alpha f1 h1, decChar_pad] using htake
  | [b0, b1] =>
    obtain ⟨f0, f1, f2, f3, hf, ⟨h0, h1, h2, -⟩, hpack⟩ := exists_fields b0 b1 0
    refine ⟨alpha f0, alpha f1, alpha f2, pad, by rw [scEncTail, hf]; rfl, ?_⟩
    have htake : (pack f0 f1 f2 0).take 2 = [b0, b1] := congrArg (List.take 2) hpack
    simpa [scDecGroup, decChar_alpha f0 h0, decChar_alpha f1 h1, decChar_alpha f2 h2, decChar_pad] using htake
  | _ :: _ :: _ :: _ => simp at hg

/-- A decoded group has a byte less for each PAD. -/
theorem scDecGroup_padCount {c0 c1 c2 c3 : Byte} {final : Bool} {o : List Byte}
    (h : scDecGroup c0 c1 c2 c3 final = some o) : o.length + padCount [c0, c1, c2, c3] = 3 := by
  unfold scDecGroup at h
  split at h
  · rename_i h0 h1 h2 h3
    cases h
    simp [padCount, pack, ne_pad_of_decChar h0, ne_pad_of_decChar h1, ne_pad_of_decChar h2, ne_pad_of_decChar h3]
  · rename_i h0 h1 h2 _
    split at h
    · rename_i hpad
      cases h
      simp_all [padCount, pack, ne_pad_of_decChar h0, ne_pad_of_decChar h1, ne_pad_of_decChar h2]
    · cases h
  · rename_i h0 h1 _ _
    split at h
    · rename_i hpad
      cases h
      simp_all [padCount, pack, ne_pad_of_decChar h0, ne_pad_of_decChar h1]
    · cases h
  · cases h

/-! ### Whole texts -/

theorem decText_scEncTail {g : List Byte} (hg : g.length = 1 ∨ g.length = 2) : decText (scEncTail g) = some g := by
  obtain ⟨c0, c1, c2, c3, hc, hd⟩ := scDecGroup_scEncTail hg
  rw [hc, decText_group, List.isEmpty_nil, hd]
  simp [decText]

/-- Dec undoes Enc (44_scalar_fallback.md R129). -/
theorem decText_encText (b : List Byte) : decText (encText b) = some b := by
  match b with
  | [] => rfl
  | [_] => exact decText_scEncTail (.inl rfl)
  | [_, _] => exact decText_scEncTail (.inr rfl)
  | b0 :: b1 :: b2 :: r =>
    obtain ⟨c0, c1, c2, c3, hc, hd⟩ := scDecGroup_scEncGroup b0 b1 b2 (encText r).isEmpty
    rw [encText, hc]
    change decText (c0 :: c1 :: c2 :: c3 :: encText r) = _
    rw [decText_group, hd, decText_encText r]
    rfl

/-- A text that decodes is made of groups, and gives three bytes for each, but for one less for each PAD (R94). -/
theorem length_of_decText {c o : List Byte} (h : decText c = some o) :
    c.length % 4 = 0 ∧ o.length + padCount c = 3 * (c.length / 4) := by
  match c with
  | [] =>
    cases h
    exact ⟨rfl, rfl⟩
  | [_] => simp [decText] at h
  | [_, _] => simp [decText] at h
  | [_, _, _] => simp [decText] at h
  | c0 :: c1 :: c2 :: c3 :: r =>
    rw [decText_group] at h
    obtain ⟨g, hg, h⟩ := Option.bind_eq_some_iff.mp h
    obtain ⟨o', ho', rfl⟩ := Option.map_eq_some_iff.mp h
    obtain ⟨hr, hlen⟩ := length_of_decText ho'
    have hgroup := scDecGroup_padCount hg
    have hpads : padCount (c0 :: c1 :: c2 :: c3 :: r) = padCount [c0, c1, c2, c3] + padCount r :=
      padCount_append [c0, c1, c2, c3] r
    rw [hpads]
    simp only [List.length_cons, List.length_append]
    omega

/-- Settles O59: Enc(B) decodes to B, which has a byte less for each PAD than three for each group. -/
theorem encodePadding : Obligations.EncodePadding := by
  intro b
  have hlen := length_encText b
  obtain ⟨-, hpads⟩ := length_of_decText (decText_encText b)
  refine ⟨hlen, ?_⟩
  rw [hlen] at hpads
  split
  · omega
  · split <;> omega

end Sys2Proof.Machine

/-! The results of ENCODE and DECODE from a ready state (41_loop_driver.md R89, R94), and ENCODE and then DECODE in memory
(R96). -/

namespace Sys2Proof.Machine

/-! ### A command that can run -/

section
variable {s : State} {i : Instr}

/-- The source of an accepted command is that of the operand registers (30_encoding.md R63). -/
theorem wholeSource_accept (h : Inv s) (w : Word) : wholeSource (accept w s) = s.source := by
  obtain ⟨hsrc, hlen, -⟩ := accept_latches h w
  rw [wholeSource, hsrc, hlen, accept_mem]
  rfl

theorem CanRun.served (h : CanRun i s) : Served (accept (encode i) s) :=
  served_accept h.toReady _ h.sourceOk ((outmax_encode_word i s).symm ▸ h.destOk)

/-- What the engine completes an accepted command with is what the command comes to. -/
theorem CompletesIn.exec {c : ResultCode} {m : List Host.Cell} {count strides : Nat} (h : Ready s)
    (hc : CompletesIn (stepBound (accept (encode i) s)) (accept (encode i) s) c m count strides) :
    ∃ t, exec i s = .next t ∧ t.mem = m ∧ t.regs = s.completedRegs c count strides := by
  obtain ⟨t, ht, -, hmem, hregs⟩ := hc
  exact ⟨t, by rw [exec_eq_writeCmd, writeCmd_ready h, ht], hmem, hregs⟩

/-- The range tests of CHECK are those of the operand registers (60_exceptions.md R134). -/
theorem rangeFails_accept (h : Inv s) : rangeFails (accept (encode i) s) = false ↔ s.rangesLegal i := by
  obtain ⟨hsrc, hlen, hdst⟩ := accept_latches h (encode i)
  simp only [State.rangesLegal, State.src, State.len, State.dst, rangeFails, rangesOverlap, hsrc, hlen, hdst,
    dstSize_accept h, accept_params, Bool.or_eq_false_iff, Bool.and_eq_false_iff, decide_eq_false_iff_not]
  omega

/-- CHECK ends a DECODE of a length that is no multiple of 4 (44_scalar_fallback.md R127). -/
theorem CanRun.checkCode_of_length (h : CanRun .decode s) (hl : s.len % 4 ≠ 0) :
    checkCode (accept (encode .decode) s) = some .invalid := by
  have hlen := (accept_latches h.inv (encode .decode)).2.1
  unfold checkCode
  rw [(rangeFails_accept h.inv).mpr h.ranges, hlen, accept_params, accept_eng_cmd, if_neg h.built]
  simp [encode, opcodeOf, hl]

/-- A code that CHECK finds is the result, with counts 0 and no write (60_exceptions.md R131). -/
theorem completesIn_checkCode {c : ResultCode} (hp : s.eng.phase = .check) (hr : s.raced = false)
    (hc : checkCode s = some c) : CompletesIn (stepBound s) s c s.mem 0 0 := by
  obtain ⟨n, hn⟩ := stepBound_eq_succ s
  have he : engineStep s = .next (finish c s) := by simp [engineStep, hp, stepCheck, hc]
  rw [hn]
  exact completesIn_failed n (fun hok => checkCode_ne_ok s (hok ▸ hc)) (by simp [hp]) he rfl hr

end

/-! ### ENCODE and DECODE from a ready state -/

section
variable {s : State}

/-- ENCODE from its acceptance to its end (R89). -/
theorem CanRun.encode_completes (h : CanRun .encode s) :
    CompletesIn (stepBound (accept (encode .encode) s)) (accept (encode .encode) s) .ok
      (Memory.writeBytes s.mem s.dst (encText s.source)) (encText s.source).length (encStrides s.params s.len) := by
  obtain ⟨-, hlen, hdst⟩ := accept_latches h.inv (encode .encode)
  have := h.served.encode_completes rfl rfl (checkCode_accept h.inv h.built h.ranges (by simp))
  rwa [wholeSource_accept h.inv, hlen, hdst] at this

/-- DECODE of a Valid source, from its acceptance to its end (R94). -/
theorem CanRun.decode_valid (h : CanRun .decode s) {o : List Byte} (ho : decText s.source = some o) :
    CompletesIn (stepBound (accept (encode .decode) s)) (accept (encode .decode) s) .ok
      (Memory.writeBytes s.mem s.dst o) o.length (decStrides s.params s.len (padCount s.source)) := by
  obtain ⟨-, hlen, hdst⟩ := accept_latches h.inv (encode .decode)
  have hl : s.len % 4 = 0 := by simpa [State.source] using (length_of_decText ho).1
  have hw := wholeSource_accept h.inv (encode .decode)
  have := h.served.decode_valid rfl rfl (checkCode_accept h.inv h.built h.ranges fun _ => hl) (hw ▸ ho)
  rwa [hw, hlen, hdst] at this

/-- DECODE of a source that is not Valid, from its acceptance to its end: CHECK or the VALIDATE pass finds it (R94). -/
theorem CanRun.decode_invalid (h : CanRun .decode s) (ho : decText s.source = none) :
    CompletesIn (stepBound (accept (encode .decode) s)) (accept (encode .decode) s) .invalid s.mem 0 0 := by
  by_cases hl : s.len % 4 = 0
  · exact h.served.decode_invalid rfl rfl (checkCode_accept h.inv h.built h.ranges fun _ => hl)
      ((wholeSource_accept h.inv _).symm ▸ ho)
  · exact completesIn_checkCode rfl rfl (h.checkCode_of_length hl)

end

/-! ### The statements -/

/-- Settles O22: the strides and the groups of ENCODE write the text of the source from one end to the other. -/
theorem encodeWritesBase64 : Obligations.EncodeWritesBase64 := by
  intro s h
  have hlen : (encText s.source).length = 4 * ((s.len + 2) / 3) := by simp [length_encText, State.source]
  obtain ⟨t, ht, hmem, hregs⟩ := h.encode_completes.exec h.toReady
  exact ⟨t, ht, hmem, hlen, hlen ▸ hregs⟩

/-- Settles O23: a Valid source passes the VALIDATE pass and is written by the WRITE pass; any other ends before a write. -/
theorem decodeWritesBytes : Obligations.DecodeWritesBytes := by
  intro s h
  refine ⟨fun o ho => ?_, fun ho => (h.decode_invalid ho).exec h.toReady⟩
  obtain ⟨t, ht, hmem, hregs⟩ := (h.decode_valid ho).exec h.toReady
  have hlen := (length_of_decText ho).2
  simp only [State.source, Memory.length_readBytes] at hlen
  exact ⟨t, ht, hmem, Nat.eq_sub_of_add_eq hlen, hregs⟩

/-- Settles O24: DECODE reads the text that ENCODE wrote, and Dec undoes Enc. -/
theorem encodeThenDecodeRestoresSource : Obligations.EncodeThenDecodeRestoresSource := by
  intro s h
  obtain ⟨t, ht, hmem, hlen, hregs⟩ := encodeWritesBase64 s h
  refine ⟨t, ht, fun d => ?_⟩
  intro u hu
  have hcount : t.regs.resultCount.toNat = (encText s.source).length := by
    obtain ⟨hsrc, hdst, hdisjoint⟩ := h.ranges
    have hspace := space_le h.inv.params
    simp only [State.outmaxOf] at hdst hdisjoint
    rw [hregs, hlen]
    exact BitVec.toNat_ofNat _ _ ▸ Nat.mod_eq_of_lt (by omega)
  have hsource : u.source = encText s.source := by
    change Memory.readBytes t.mem s.dst t.regs.resultCount.toNat = _
    rw [hcount, hmem, Memory.readBytes_writeBytes_same h.inv.memWf]
  obtain ⟨v, hv, hvmem, -, hvregs⟩ := (decodeWritesBytes u hu).1 s.source (hsource ▸ decText_encText s.source)
  have hslen : s.source.length = s.len := by simp [State.source]
  refine ⟨v, hv, by rw [hvregs]; rfl, ?_, ?_⟩
  · rw [hvregs, hslen]
    exact BitVec.ofNat_toNat _ _
  · rw [hvmem, ← hslen]
    exact Memory.readBytes_writeBytes_same hu.inv.memWf

end Sys2Proof.Machine

/-! A run of the engine in two parts (41_loop_driver.md R97): runs add up, the pace of a turn changes nothing in them, and
steps past the bound of 70_reset_and_hazards.md R156 change nothing at all. -/

namespace Sys2Proof.Machine

/-! ### Runs one after the other -/

/-- What k makes of the next state, if there is one. -/
def andThen (x : Host.Outcome State Fault Refusal) (k : State → Host.Outcome State Fault Refusal) :
    Host.Outcome State Fault Refusal :=
  match x with
  | .next t => k t
  | .fault f => .fault f
  | .refused r => .refused r

section
variable {s t : State}

theorem andThen_assoc (x : Host.Outcome State Fault Refusal) (k l : State → Host.Outcome State Fault Refusal) :
    andThen (andThen x k) l = andThen x fun t => andThen (k t) l := by
  cases x <;> rfl

theorem engineRun_succ (n : Nat) (h : s.eng.phase ≠ .idle) :
    engineRun (n + 1) s = andThen (engineStep s) (engineRun n) := by
  rw [engineRun, if_neg h]
  cases engineStep s <;> rfl

theorem engineRun_add (m n : Nat) (s : State) : engineRun (m + n) s = andThen (engineRun m s) (engineRun n) := by
  induction m generalizing s with
  | zero => rw [Nat.zero_add]; rfl
  | succ m ih =>
    by_cases hp : s.eng.phase = .idle
    · rw [engineRun_idle _ hp, engineRun_idle _ hp]
      exact (engineRun_idle n hp).symm
    · rw [Nat.add_right_comm, engineRun_succ _ hp, engineRun_succ _ hp, andThen_assoc]
      exact congrArg (andThen _) (funext ih)

/-- Steps past the rank of a command change nothing (70_reset_and_hazards.md R156). -/
theorem engineRun_of_rank_le {n k : Nat} (h : Inv s) (hr : engineRank s ≤ n) (hk : n ≤ k) :
    engineRun k s = engineRun n s := by
  induction n generalizing s k with
  | zero =>
    have hp : s.eng.phase = .idle := by
      by_contra hp
      have := engineRank_pos hp
      omega
    rw [engineRun_idle k hp, engineRun_idle 0 hp]
  | succ n ih =>
    obtain ⟨j, rfl⟩ := Nat.exists_eq_add_of_le' (Nat.le_trans (Nat.le_add_left 1 n) hk)
    by_cases hp : s.eng.phase = .idle
    · rw [engineRun_idle _ hp, engineRun_idle _ hp]
    · have hl := engineStep_lowers h hp
      have hg := engineStep_good h
      rw [engineRun_succ _ hp, engineRun_succ _ hp]
      cases he : engineStep s with
      | next t =>
        rw [he] at hl hg
        have hlt : engineRank t < engineRank s := hl
        exact ih hg (by omega) (by omega)
      | fault f => rfl
      | refused r => rfl

end

/-! ### What no engine step reads (R82, log 2) -/

/-- The operand registers, which acceptance has latched, and the pace. -/
structure Unread where
  srcAddr : Word
  srcLen : Word
  dstAddr : Word
  pace : Pace

/-- The state with other operand registers and another pace. -/
def State.rewritten (o : Unread) (s : State) : State :=
  { s with
    regs := { s.regs with srcAddr := o.srcAddr, srcLen := o.srcLen, dstAddr := o.dstAddr }
    pace := o.pace }

/-- y is x, but for what no engine step reads in its next state. -/
def SameBut (o : Unread) (x y : Host.Outcome State Fault Refusal) : Prop :=
  y = andThen x fun t => .next (t.rewritten o)

section
variable {o : Unread}

theorem sameBut_next (s : State) : SameBut o (.next s) (.next (s.rewritten o)) := rfl

theorem SameBut.ite {c : Prop} [Decidable c] {x x' y y' : Host.Outcome State Fault Refusal} (h : SameBut o x y)
    (h' : SameBut o x' y') : SameBut o (if c then x else x') (if c then y else y') := by
  split
  · exact h
  · exact h'

theorem SameBut.pass {p : Pass} {x x' y y' : Host.Outcome State Fault Refusal} (h : SameBut o x y)
    (h' : SameBut o x' y') :
    SameBut o (match p with | .validate => x | .write => x') (match p with | .validate => y | .write => y') := by
  cases p with
  | validate => exact h
  | write => exact h'

theorem SameBut.group {d : Option (List Byte)} {x y : Host.Outcome State Fault Refusal}
    {f g : List Byte → Host.Outcome State Fault Refusal} (h : SameBut o x y) (h' : ∀ out, SameBut o (f out) (g out)) :
    SameBut o (match d with | none => x | some out => f out) (match d with | none => y | some out => g out) := by
  cases d with
  | none => exact h
  | some out => exact h' out

theorem sameBut_finish (c : ResultCode) (s : State) :
    SameBut o (.next (finish c s)) (.next (finish c (s.rewritten o))) := by
  have hf : finish c (s.rewritten o) = (finish c s).rewritten o := by
    unfold finish
    change (if s.raced then _ else _) = _
    split <;> rfl
  rw [hf]
  exact sameBut_next _

theorem busTick_rewritten (lo n : Nat) (s : State) : (s.rewritten o).busTick lo n = (s.busTick lo n).rewritten o := by
  unfold State.busTick
  change (if s.touches .flaky lo n then _ else _) = _
  split <;> rfl

theorem sameBut_memRead (lo n : Nat) (s : State) {k k' : List Byte → State → Host.Outcome State Fault Refusal}
    (hk : ∀ l u, SameBut o (k l u) (k' l (u.rewritten o))) :
    SameBut o (memRead lo n s k) (memRead lo n (s.rewritten o) k') := by
  unfold memRead
  rw [busTick_rewritten]
  exact .ite rfl (.ite (sameBut_finish .busErr (scrambleDest (s.busTick lo n))) (hk _ _))

theorem sameBut_memWrite (lo : Nat) (l : List Byte) (s : State) {k k' : State → Host.Outcome State Fault Refusal}
    (hk : ∀ u, SameBut o (k u) (k' (u.rewritten o))) :
    SameBut o (memWrite lo l s k) (memWrite lo l (s.rewritten o) k') := by
  unfold memWrite
  rw [busTick_rewritten]
  exact .ite rfl (.ite (sameBut_finish .busErr (scrambleDest (s.busTick lo l.length))) (hk _))

theorem stepCheck_sameBut (s : State) : SameBut o (stepCheck s) (stepCheck (s.rewritten o)) := by
  have hcode : checkCode (s.rewritten o) = checkCode s := rfl
  have hstart : startCommand (s.rewritten o) = (startCommand s).rewritten o := by
    unfold startCommand
    change (if s.eng.cmd = 1 then _ else _) = _
    split <;> rfl
  unfold stepCheck
  rw [hcode, hstart]
  cases checkCode s with
  | some c => exact sameBut_finish c s
  | none => exact .ite rfl (sameBut_next _)

theorem stepEncVec_sameBut (s : State) : SameBut o (stepEncVec s) (stepEncVec (s.rewritten o)) := by
  refine .ite (sameBut_memRead _ _ s fun x u => ?_) (sameBut_next _)
  exact sameBut_memWrite _ _ _ fun v => sameBut_next _

theorem stepEncTail_sameBut (s : State) : SameBut o (stepEncTail s) (stepEncTail (s.rewritten o)) := by
  refine .ite (sameBut_memRead _ _ s fun g u => ?_) (.ite (sameBut_finish .ok s) (sameBut_memRead _ _ s fun g u => ?_))
  · exact sameBut_memWrite _ _ _ fun v => sameBut_next _
  · exact sameBut_memWrite _ _ _ fun v => sameBut_finish .ok _

theorem stepDecVec_sameBut (s : State) : SameBut o (stepDecVec s) (stepDecVec (s.rewritten o)) := by
  refine .ite (sameBut_memRead _ _ s fun c u => ?_) (sameBut_next _)
  refine .ite (sameBut_next _) (.pass (sameBut_next _) ?_)
  exact sameBut_memWrite _ _ _ fun v => sameBut_next _

theorem stepDecTail_sameBut (s : State) : SameBut o (stepDecTail s) (stepDecTail (s.rewritten o)) := by
  refine .ite (.pass (sameBut_next _) (sameBut_finish .ok s)) (sameBut_memRead _ _ s fun g u => ?_)
  refine .group (sameBut_finish .invalid (loadGroup g u)) fun out => .pass (sameBut_next _) ?_
  exact sameBut_memWrite _ _ _ fun v => sameBut_next _

/-- An engine step does the same whatever the operand registers and the pace (R82, 70_reset_and_hazards.md R153). -/
theorem engineStep_sameBut (s : State) : SameBut o (engineStep s) (engineStep (s.rewritten o)) := by
  have hphase : (s.rewritten o).eng.phase = s.eng.phase := rfl
  unfold engineStep
  rw [hphase]
  cases s.eng.phase with
  | idle => exact sameBut_next s
  | check => exact stepCheck_sameBut s
  | encVec => exact stepEncVec_sameBut s
  | encTail => exact stepEncTail_sameBut s
  | decVec => exact stepDecVec_sameBut s
  | decTail => exact stepDecTail_sameBut s

theorem engineRun_sameBut (n : Nat) (s : State) : SameBut o (engineRun n s) (engineRun n (s.rewritten o)) := by
  induction n generalizing s with
  | zero => exact sameBut_next s
  | succ n ih =>
    by_cases hp : s.eng.phase = .idle
    · rw [engineRun_idle _ hp, engineRun_idle (s := s.rewritten o) _ hp]
      exact sameBut_next s
    · rw [engineRun_succ _ hp, engineRun_succ (s := s.rewritten o) _ hp, SameBut, engineStep_sameBut s, andThen_assoc,
        andThen_assoc]
      exact congrArg (andThen _) (funext ih)

end

/-! ### The pace of a command -/

/-- The state at another pace. -/
def State.paced (p : Pace) (s : State) : State := { s with pace := p }

/-- The engine runs the same at any pace. -/
theorem engineRun_paced (p : Pace) (n : Nat) (s : State) :
    engineRun n (s.paced p) = andThen (engineRun n s) fun t => .next (t.paced p) := by
  let o : Unread := { srcAddr := s.regs.srcAddr, srcLen := s.regs.srcLen, dstAddr := s.regs.dstAddr, pace := p }
  have hrun : engineRun n (s.paced p) = andThen (engineRun n s) fun t => .next (t.rewritten o) :=
    engineRun_sameBut (o := o) n s
  rw [hrun]
  cases h : engineRun n s with
  | next t =>
    obtain ⟨hsrc, hlen, hdst⟩ := (engineRun_keeps n h).operands
    have ht : t.rewritten o = t.paced p := by
      simp only [State.rewritten, State.paced, o, ← hsrc, ← hlen, ← hdst]
    exact congrArg Host.Outcome.next ht
  | fault f => rfl
  | refused r => rfl

theorem advance_steps (m : Nat) (s : State) :
    advance (s.paced (.steps m)) = andThen (engineRun m s) fun t => .next (t.paced (.steps m)) :=
  engineRun_paced _ m s

theorem advance_toCompletion (s : State) :
    advance (s.paced .toCompletion) = andThen (engineRun (stepBound s) s) fun t => .next (t.paced .toCompletion) :=
  engineRun_paced _ (stepBound s) s

/-- A command that is accepted is the engine's run from its acceptance, at whatever pace. -/
theorem exec_paced {s : State} (hb : s.regs.status.busy = false) (hr : s.inReset = false) (i : Instr) (p : Pace) :
    exec i { s with pace := p } = advance ((accept (encode i) s).paced p) := by
  rw [exec_eq_writeCmd, writeCmd_eq_issue]
  exact issue_accepted (s := s.paced p) hr hb (encode i)

/-- A command run for m steps and then to its end comes to what it comes to when it is run to its end at once. -/
theorem engineRun_paused {s : State} (m : Nat) (h : Inv s) (hp : s.eng.phase = .check) :
    andThen (engineRun m s) (engineRun (stepBound s)) = engineRun (stepBound s) s := by
  rw [← engineRun_add]
  exact engineRun_of_rank_le h (engineRank_check hp).le (Nat.le_add_left _ m)

/-- Settles O34: steps past the bound change nothing, so those before the pause can come on top of a whole run. -/
theorem pausedCommandsFinishAsWhole : Obligations.PausedCommandsFinishAsWhole := by
  intro s i m h hb hr
  have hi := accept_inv h hr (encode i)
  have hgood := engineRun_good m hi
  rw [exec_paced hb hr, exec_paced hb hr, advance_steps, advance_toCompletion, ← engineRun_paused m hi rfl]
  cases hm : engineRun m (accept (encode i) s) with
  | next t =>
    obtain ⟨hcmd, -, hlen, -⟩ := (engineRun_keeps m hm).latched
    have hbound : stepBound t = stepBound (accept (encode i) s) := by simp only [stepBound, hcmd, hlen]
    change advance (t.paced .toCompletion) = _
    rw [advance_toCompletion, hbound]
    rfl
  | refused r => rfl
  | fault f =>
    rw [hm] at hgood
    exact hgood

end Sys2Proof.Machine

/-! The alphabet translators as the obligations state them: ALPHA by its ranges, DEC as its exact inverse, and the two results of
XLATE_DEC in each lane (42_translate.md R100, R106 to R110). -/

namespace Sys2Proof.Machine

/-! ### ALPHA and DEC (R100, R106, R110) -/

/-- The table of the alphabet is the five ranges A..Z, a..z, 0..9, + and / (R100). -/
theorem toNat_alpha : ∀ x : Byte, x.toNat < 64 → (alpha x).toNat =
    if x.toNat ≤ 25 then x.toNat + 65
    else if x.toNat ≤ 51 then x.toNat - 26 + 97
    else if x.toNat ≤ 61 then x.toNat - 52 + 48
    else if x.toNat = 62 then 43 else 47 := by
  decide +kernel

theorem getElem?_of_placeOf {c : Byte} {l : List Byte} {n : Nat} (h : placeOf c l = some n) : l[n]? = some c := by
  induction l generalizing n with
  | nil => cases h
  | cons x r ih =>
    rw [placeOf] at h
    split at h
    · obtain rfl := Option.some.inj h
      simpa
    · obtain ⟨m, hm, rfl⟩ := Option.map_eq_some_iff.mp h
      exact ih hm

/-- DEC(c) is the six-bit field with that character (R110). -/
theorem decChar_eq_some_iff {c v : Byte} : decChar c = some v ↔ v.toNat < 64 ∧ c = alpha v := by
  constructor
  · intro h
    obtain ⟨n, hplace, rfl⟩ := Option.map_eq_some_iff.mp h
    have hc : alphabet[n]? = some c := getElem?_of_placeOf hplace
    have hn : n < 64 := (List.getElem?_eq_some_iff.mp hc).1
    have htoNat : (BitVec.ofNat 8 n).toNat = n := Nat.mod_eq_of_lt (by omega)
    rw [alpha, htoNat, List.getD_eq_getElem?_getD, hc]
    exact ⟨hn, rfl⟩
  · rintro ⟨hv, rfl⟩
    exact decChar_alpha v hv

theorem decChar_eq_none_iff {c : Byte} : decChar c = none ↔ ∀ v : Byte, v.toNat < 64 → c ≠ alpha v := by
  simp [Option.eq_none_iff_forall_ne_some, decChar_eq_some_iff]

/-! ### XLATE_DEC, one lane (R109, R110) -/

theorem xlateDec_bad (cs : List Byte) : (xlateDec cs).2 = cs.map fun x => maskLane (decDeltaLane x == 0#8) := by
  simp only [xlateDec, decDelta_eq_map, vdup_length, vceq, List.zipWith_map_right, List.zipWith_map_left,
    List.zipWith_self]
  rfl

section
variable {cs : List Byte} {i : Nat} {x : Byte} (hx : cs[i]? = some x)
include hx

theorem xlateDec_lane_of_some {v : Byte} (h : decChar x = some v) :
    (xlateDec cs).1[i]? = some v ∧ (xlateDec cs).2[i]? = some 0x00 := by
  rw [decChar_eq_delta, Option.ite_none_left_eq_some] at h
  obtain ⟨hdelta, hv⟩ := h
  rw [xlateDec_fields, xlateDec_bad, List.getElem?_map, List.getElem?_map, hx]
  exact ⟨hv, by simpa [maskLane] using hdelta⟩

theorem xlateDec_lane_of_none (h : decChar x = none) : (xlateDec cs).2[i]? = some 0xFF := by
  have hdelta : decDeltaLane x = 0 := by simpa [decChar_eq_delta] using h
  rw [xlateDec_bad, List.getElem?_map, hx, Option.map_some, hdelta]
  rfl

end

/-! ### The obligations -/

/-- Settles O49: XLATE_ENC lane by lane is ALPHA on six-bit fields, and the table of ALPHA is its five ranges. -/
theorem xlateEncIsAlphabet : Obligations.XlateEncIsAlphabet :=
  ⟨xlateEnc_eq_alpha, toNat_alpha⟩

/-- Settles O50: each lane of XLATE_DEC follows DEC of its character, and DEC is the exact inverse of ALPHA. -/
theorem xlateDecInvertsAlphabet : Obligations.XlateDecInvertsAlphabet := by
  intro cs i x hx
  refine ⟨?_, ?_, decChar_eq_none_iff, decChar_alpha⟩
  · intro v hv hxv
    exact xlateDec_lane_of_some hx (decChar_eq_some_iff.mpr ⟨hv, hxv⟩)
  · intro hout
    exact xlateDec_lane_of_none hx (decChar_eq_none_iff.mpr hout)

end Sys2Proof.Machine

/-! The bit reshuffle as a bijection between groups of three bytes and groups of four six-bit fields (43_reshuffle.md R112 to
R121). -/

namespace Sys2Proof.Machine

/-! ### One group (R112, R113, R117) -/

/-- W, the number the bytes of a group make: its first byte is the most significant (R112). -/
def groupWord (b0 b1 b2 : Byte) : BitVec 24 := b0 ++ (b1 ++ b2)

theorem toNat_groupWord (b0 b1 b2 : Byte) :
    (groupWord b0 b1 b2).toNat = b0.toNat * 2 ^ 16 + b1.toNat * 2 ^ 8 + b2.toNat := by
  have hlow : (b1 ++ b2).toNat = b1.toNat * 2 ^ 8 + b2.toNat := by
    rw [BitVec.toNat_append, ← Nat.shiftLeft_add_eq_or_of_lt b2.isLt, Nat.shiftLeft_eq]
  rw [groupWord, BitVec.toNat_append, ← Nat.shiftLeft_add_eq_or_of_lt (b1 ++ b2).isLt, Nat.shiftLeft_eq, hlow,
    Nat.add_assoc]

/-- The bits of W are those of its last byte, then of its middle byte, then of its first. -/
theorem getElem_groupWord (b0 b1 b2 : Byte) {i : Nat} (h : i < 24) : (groupWord b0 b1 b2)[i] =
    if i < 16 then if i < 8 then b2.getLsbD i else b1.getLsbD (i - 8) else b0.getLsbD (i - 16) := by
  rw [← BitVec.getLsbD_eq_getElem, groupWord, BitVec.getLsbD_append, BitVec.getLsbD_append]

/-- FIELDS cuts W into slices of six bits (R112, R113). -/
theorem fields_eq_slices (b0 b1 b2 : Byte) :
    fields b0 b1 b2 = [18, 12, 6, 0].map fun k => ((groupWord b0 b1 b2).extractLsb' k 6).setWidth 8 := by
  simp only [fields, List.map_cons, List.map_nil, List.cons.injEq, and_true]
  refine ⟨?_, ?_, ?_, ?_⟩ <;>
    (apply BitVec.eq_of_getLsbD_eq; intro i hi; interval_cases i <;> simp [getElem_groupWord])

/-- A byte below 64 is its own low six bits. -/
theorem setWidth_of_lt {f : Byte} (h : f.toNat < 64) : (f.setWidth 6).setWidth 8 = f := by
  apply BitVec.eq_of_toNat_eq
  simp only [BitVec.toNat_setWidth]
  omega

/-- FIELDS gives back what PACK packed, when each field is in 0..63 (R117). -/
theorem exists_pack {f0 f1 f2 f3 : Byte} (h0 : f0.toNat < 64) (h1 : f1.toNat < 64) (h2 : f2.toNat < 64)
    (h3 : f3.toNat < 64) :
    ∃ o0 o1 o2, pack f0 f1 f2 f3 = [o0, o1, o2] ∧ fields o0 o1 o2 = [f0, f1, f2, f3] := by
  refine ⟨_, _, _, rfl, ?_⟩
  rw [← setWidth_of_lt h0, ← setWidth_of_lt h1, ← setWidth_of_lt h2, ← setWidth_of_lt h3]
  simp only [fields, List.cons.injEq, and_true]
  refine ⟨?_, ?_, ?_, ?_⟩ <;>
    (apply BitVec.eq_of_getLsbD_eq; intro i hi; interval_cases i <;> simp)

/-! ### Every group of a vector (R115, R119) -/

/-- RESHUF_ENC gives FIELDS of group g (R115). -/
theorem reshufEnc_group {x : List Byte} {g : Nat} {b0 b1 b2 : Byte} (h0 : x[3 * g]? = some b0)
    (h1 : x[3 * g + 1]? = some b1) (h2 : x[3 * g + 2]? = some b2) :
    ((reshufEnc x).drop (4 * g)).take 4 = fields b0 b1 b2 := by
  induction g generalizing x with
  | zero =>
    match x with
    | [] | [_] | [_, _] => simp at h2
    | a0 :: a1 :: a2 :: r =>
      cases h0; cases h1; cases h2
      rw [reshufEnc_cons]
      rfl
  | succ g ih =>
    match x with
    | [] | [_] | [_, _] => simp at h2
    | a0 :: a1 :: a2 :: r =>
      rw [reshufEnc_cons]
      exact ih h0 h1 h2

/-- RESHUF_DEC gives PACK of group g (R119). -/
theorem reshufDec_group {v : List Byte} {g : Nat} {f0 f1 f2 f3 : Byte} (h0 : v[4 * g]? = some f0)
    (h1 : v[4 * g + 1]? = some f1) (h2 : v[4 * g + 2]? = some f2) (h3 : v[4 * g + 3]? = some f3) :
    ((reshufDec v).drop (3 * g)).take 3 = pack f0 f1 f2 f3 := by
  induction g generalizing v with
  | zero =>
    match v with
    | [] | [_] | [_, _] | [_, _, _] => simp at h3
    | a0 :: a1 :: a2 :: a3 :: r =>
      cases h0; cases h1; cases h2; cases h3
      rw [reshufDec_cons]
      rfl
  | succ g ih =>
    match v with
    | [] | [_] | [_, _] | [_, _, _] => simp at h3
    | a0 :: a1 :: a2 :: a3 :: r =>
      rw [reshufDec_cons]
      exact ih h0 h1 h2 h3

/-! ### Whole vectors (R121) -/

theorem reshufDec_reshufEnc {x : List Byte} (h : x.length % 3 = 0) : reshufDec (reshufEnc x) = x := by
  match x with
  | [] => rfl
  | [_] | [_, _] => simp at h
  | b0 :: b1 :: b2 :: r =>
    have hr : r.length % 3 = 0 := by simpa [Nat.add_mod_right, Nat.add_assoc] using h
    obtain ⟨f0, f1, f2, f3, hf, -, hpack⟩ := exists_fields b0 b1 b2
    rw [reshufEnc_cons, hf]
    change reshufDec (f0 :: f1 :: f2 :: f3 :: reshufEnc r) = _
    rw [reshufDec_cons, hpack, reshufDec_reshufEnc hr]
    rfl

theorem reshufEnc_reshufDec {v : List Byte} (h : v.length % 4 = 0) (hv : ∀ f ∈ v, f.toNat < 64) :
    reshufEnc (reshufDec v) = v := by
  match v with
  | [] => rfl
  | [_] | [_, _] | [_, _, _] => simp at h
  | f0 :: f1 :: f2 :: f3 :: r =>
    have hr : r.length % 4 = 0 := by simpa [Nat.add_mod_right, Nat.add_assoc] using h
    obtain ⟨o0, o1, o2, ho, hfields⟩ :=
      exists_pack (hv f0 (by simp)) (hv f1 (by simp)) (hv f2 (by simp)) (hv f3 (by simp))
    rw [reshufDec_cons, ho]
    change reshufEnc (o0 :: o1 :: o2 :: reshufDec r) = _
    rw [reshufEnc_cons, hfields, reshufEnc_reshufDec hr fun f hm => hv f (by simp [hm])]
    rfl

/-! ### The obligations -/

/-- Settles O51: the fields are slices of the group's 24-bit word, whose value is W. -/
theorem fieldsBigEndian : Obligations.FieldsBigEndian := by
  intro b0 b1 b2 w
  have hw : (groupWord b0 b1 b2).toNat = w := toNat_groupWord b0 b1 b2
  have hlt : w < 2 ^ 24 := hw ▸ (groupWord b0 b1 b2).isLt
  simp only [fields_eq_slices, List.map_cons, List.map_nil, BitVec.toNat_setWidth, BitVec.extractLsb'_toNat,
    Nat.shiftRight_eq_div_pow, hw, List.cons.injEq, and_true]
  omega

/-- Settles O52: both directions hold bit by bit. -/
theorem packInvertsFields : Obligations.PackInvertsFields := by
  refine ⟨?_, fun f0 f1 f2 f3 => exists_pack⟩
  intro b0 b1 b2
  obtain ⟨f0, f1, f2, f3, hf, -, hpack⟩ := exists_fields b0 b1 b2
  exact ⟨f0, f1, f2, f3, hf, hpack⟩

/-- Settles O53, by induction on the place of the group. -/
theorem reshufEncGroups : Obligations.ReshufEncGroups := by
  intro x n g b0 b1 b2 hx _ _ _ h0 h1 h2
  exact ⟨reshufEnc_group h0 h1 h2, by rw [length_reshufEnc]; omega, reshufEnc_lt⟩

/-- Settles O54, by induction on the place of the group. -/
theorem reshufDecGroups : Obligations.ReshufDecGroups := by
  intro v n g f0 f1 f2 f3 hv _ _ _ h0 h1 h2 h3
  exact ⟨reshufDec_group h0 h1 h2 h3, by rw [length_reshufDec]; omega⟩

/-- Settles O55: a vector of whole groups is turned back group by group. -/
theorem reshuffleBijection : Obligations.ReshuffleBijection := by
  intro x v n _ _
  exact ⟨fun hx => reshufDec_reshufEnc (by omega), fun hv hlt => reshufEnc_reshufDec (by omega) hlt⟩

/-- Settles O56: a stride of a legal build is whole groups and fits the vector, and is the text or bytes of its groups. -/
theorem stridesEqualScalarGroups : Obligations.StridesEqualScalarGroups := by
  intro p x c hp
  obtain ⟨-, henc, henc3, -, -, hdec4⟩ := wf_strides hp
  constructor
  · intro hx
    exact xlateEnc_reshufEnc p.tblImpl (by omega) (by omega)
  · intro hc hbad
    simpa [decText] using decText_append_stride [] (by omega) ((vany_xlateDec c).mp hbad)

end Sys2Proof.Machine

/-! The scalar fallback (44_scalar_fallback.md): the groups that SC_DEC_GROUP accepts, Valid character by character, the inverses,
and the two lengths of DECODE that need no group at all. -/

namespace Sys2Proof.Machine

/-! ### SC_DEC_GROUP (R125, R126) -/

section
variable {c0 c1 c2 c3 f0 f1 f2 : Byte}

/-- A final group with one PAD is two bytes. -/
theorem scDecGroup_one_pad (h0 : decChar c0 = some f0) (h1 : decChar c1 = some f1) (h2 : decChar c2 = some f2) :
    scDecGroup c0 c1 c2 pad true = some ((pack f0 f1 f2 0).take 2) := by
  simp [scDecGroup, h0, h1, h2, decChar_pad]

/-- A final group with two PAD is one byte. -/
theorem scDecGroup_two_pads (h0 : decChar c0 = some f0) (h1 : decChar c1 = some f1) :
    scDecGroup c0 c1 pad pad true = some ((pack f0 f1 0 0).take 1) := by
  simp [scDecGroup, h0, h1, decChar_pad]

/-- A group that decodes is one of the three that SC_DEC_GROUP accepts. -/
theorem scDecGroup_cases {final : Bool} {o : List Byte} (h : scDecGroup c0 c1 c2 c3 final = some o) :
    (∃ f0 f1 f2 f3, decChar c0 = some f0 ∧ decChar c1 = some f1 ∧ decChar c2 = some f2 ∧ decChar c3 = some f3 ∧
      o = pack f0 f1 f2 f3) ∨
    (final = true ∧ c3 = pad ∧ ∃ f0 f1 f2, decChar c0 = some f0 ∧ decChar c1 = some f1 ∧ decChar c2 = some f2 ∧
      o = (pack f0 f1 f2 0).take 2) ∨
    (final = true ∧ c2 = pad ∧ c3 = pad ∧ ∃ f0 f1, decChar c0 = some f0 ∧ decChar c1 = some f1 ∧
      o = (pack f0 f1 0 0).take 1) := by
  unfold scDecGroup at h
  split at h
  case h_1 f0 f1 f2 f3 h0 h1 h2 h3 =>
    exact .inl ⟨f0, f1, f2, f3, h0, h1, h2, h3, (Option.some.inj h).symm⟩
  case h_2 f0 f1 f2 h0 h1 h2 _ =>
    obtain ⟨hpad, ho⟩ := Option.ite_none_right_eq_some.mp h
    obtain ⟨hfinal, h3⟩ : final = true ∧ c3 = pad := by simpa using hpad
    exact .inr (.inl ⟨hfinal, h3, f0, f1, f2, h0, h1, h2, (Option.some.inj ho).symm⟩)
  case h_3 f0 f1 h0 h1 _ _ =>
    obtain ⟨hpad, ho⟩ := Option.ite_none_right_eq_some.mp h
    obtain ⟨⟨hfinal, h2⟩, h3⟩ : (final = true ∧ c2 = pad) ∧ c3 = pad := by simpa using hpad
    exact .inr (.inr ⟨hfinal, h2, h3, f0, f1, h0, h1, (Option.some.inj ho).symm⟩)
  case h_4 => cases h

end

/-- Settles O57: the three cases are those of the rule, with the fields of the characters by DEC, which inverts ALPHA. -/
theorem scalarDecodeGroups : Obligations.ScalarDecodeGroups := by
  intro c0 c1 c2 c3 final o
  constructor
  · intro h
    rcases scDecGroup_cases h with ⟨f0, f1, f2, f3, h0, h1, h2, h3, ho⟩ | ⟨hfinal, hc3, f0, f1, f2, h0, h1, h2, ho⟩ |
      ⟨hfinal, hc2, hc3, f0, f1, h0, h1, ho⟩
    all_goals
      obtain ⟨hf0, hc0⟩ := decChar_eq_some_iff.mp h0
      obtain ⟨hf1, hc1⟩ := decChar_eq_some_iff.mp h1
    · obtain ⟨hf2, hc2⟩ := decChar_eq_some_iff.mp h2
      obtain ⟨hf3, hc3⟩ := decChar_eq_some_iff.mp h3
      exact .inl ⟨f0, f1, f2, f3, hf0, hf1, hf2, hf3, hc0, hc1, hc2, hc3, ho⟩
    · obtain ⟨hf2, hc2⟩ := decChar_eq_some_iff.mp h2
      exact .inr (.inl ⟨hfinal, hc3, f0, f1, f2, hf0, hf1, hf2, hc0, hc1, hc2, ho⟩)
    · exact .inr (.inr ⟨hfinal, hc2, hc3, f0, f1, hf0, hf1, hc0, hc1, ho⟩)
  · rintro (⟨f0, f1, f2, f3, h0, h1, h2, h3, rfl, rfl, rfl, rfl, rfl⟩ |
      ⟨rfl, rfl, f0, f1, f2, h0, h1, h2, rfl, rfl, rfl, rfl⟩ | ⟨rfl, rfl, rfl, f0, f1, h0, h1, rfl, rfl, rfl⟩)
    · exact scDecGroup_alphabet final (decChar_alpha f0 h0) (decChar_alpha f1 h1) (decChar_alpha f2 h2) (decChar_alpha f3 h3)
    · exact scDecGroup_one_pad (decChar_alpha f0 h0) (decChar_alpha f1 h1) (decChar_alpha f2 h2)
    · exact scDecGroup_two_pads (decChar_alpha f0 h0) (decChar_alpha f1 h1)

/-! ### Valid, character by character (R128) -/

/-- The byte x may stand before the rest r of a text: it is in the alphabet, or a PAD that is last or before a last PAD. -/
def FitsBefore (r : List Byte) (x : Byte) : Prop := decChar x ≠ none ∨ x = pad ∧ (r = [] ∨ r = [pad])

theorem decChar_ne_none_iff {c : Byte} : decChar c ≠ none ↔ ∃ v : Byte, v.toNat < 64 ∧ c = alpha v := by
  simp [Option.ne_none_iff_exists', decChar_eq_some_iff]

theorem fitsBefore_iff {r : List Byte} {x : Byte} : FitsBefore r x ↔
    (∃ v : Byte, v.toNat < 64 ∧ x = alpha v) ∨ (x = 61 ∧ r.length = 0) ∨ (x = 61 ∧ r.length = 1 ∧ r[0]? = some 61) := by
  have hlast : r = [pad] ↔ r.length = 1 ∧ r[0]? = some 61 := by
    rcases r with _ | ⟨y, _ | ⟨z, r⟩⟩ <;> simp [pad]
  rw [FitsBefore, decChar_ne_none_iff, ← List.length_eq_zero_iff, hlast, and_or_left]
  rfl

/-- Every byte of a text may stand before the bytes that follow it. -/
def EveryByteFits : List Byte → Prop
  | [] => True
  | x :: r => FitsBefore r x ∧ EveryByteFits r

/-- The bytes of a text, place by place. -/
theorem everyByteFits_iff (cs : List Byte) :
    EveryByteFits cs ↔ ∀ (i : Nat) (x : Byte), cs[i]? = some x →
      (∃ v : Byte, v.toNat < 64 ∧ x = alpha v) ∨ (x = 61 ∧ i + 1 = cs.length) ∨
      (x = 61 ∧ i + 2 = cs.length ∧ cs[i + 1]? = some 61) := by
  induction cs with
  | nil => simp [EveryByteFits]
  | cons c r ih =>
    rw [EveryByteFits, ih, fitsBefore_iff]
    refine (and_congr ?first ?later).trans Nat.and_forall_add_one
    case first => simp
    case later => simp

/-- A group decodes when its characters are in the alphabet, but for one or two PAD at the end of a final group. -/
theorem isSome_scDecGroup_iff {c0 c1 c2 c3 : Byte} {final : Bool} : (scDecGroup c0 c1 c2 c3 final).isSome ↔
    decChar c0 ≠ none ∧ decChar c1 ≠ none ∧ (decChar c2 ≠ none ∨ c2 = pad ∧ c3 = pad ∧ final = true) ∧
      (decChar c3 ≠ none ∨ c3 = pad ∧ final = true) := by
  constructor
  · intro h
    obtain ⟨o, ho⟩ := Option.isSome_iff_exists.mp h
    rcases scDecGroup_cases ho with ⟨f0, f1, f2, f3, h0, h1, h2, h3, -⟩ | ⟨rfl, rfl, f0, f1, f2, h0, h1, h2, -⟩ |
      ⟨rfl, rfl, rfl, f0, f1, h0, h1, -⟩
    · simp [h0, h1, h2, h3]
    · simp [h0, h1, h2]
    · simp [h0, h1]
  · simp only [Option.ne_none_iff_exists']
    rintro ⟨⟨f0, h0⟩, ⟨f1, h1⟩, ⟨f2, h2⟩ | ⟨rfl, rfl, rfl⟩, h3⟩
    · rcases h3 with ⟨f3, h3⟩ | ⟨rfl, rfl⟩
      · simp [scDecGroup_alphabet final h0 h1 h2 h3]
      · simp [scDecGroup_one_pad h0 h1 h2]
    · simp [scDecGroup_two_pads h0 h1]

theorem validText_group (c0 c1 c2 c3 : Byte) (r : List Byte) : validText (c0 :: c1 :: c2 :: c3 :: r) = true ↔
    (scDecGroup c0 c1 c2 c3 r.isEmpty).isSome ∧ validText r = true := by
  rw [validText, decText_group, validText]
  cases scDecGroup c0 c1 c2 c3 r.isEmpty <;> simp

/-- A text of whole groups is Valid when every byte fits before the rest: in its last group alone is the rest empty, or one PAD. -/
theorem validText_iff (cs : List Byte) : validText cs = true ↔ cs.length % 4 = 0 ∧ EveryByteFits cs := by
  match cs with
  | [] => simp [validText, decText, EveryByteFits]
  | [_] | [_, _] | [_, _, _] => simp [validText, decText]
  | c0 :: c1 :: c2 :: c3 :: r =>
    have hlen : (c0 :: c1 :: c2 :: c3 :: r).length % 4 = r.length % 4 := Nat.add_mod_right r.length 4
    rw [validText_group, validText_iff r, isSome_scDecGroup_iff, hlen]
    by_cases hr : r.length % 4 = 0
    · have hne : r ≠ [pad] := by
        rintro rfl
        simp at hr
      simp [EveryByteFits, FitsBefore, hr, hne, and_assoc]
    · simp [hr]

/-- Settles O58: a text is Valid when its groups are, which is a condition on each byte and the bytes that follow it. -/
theorem validCharacters : Obligations.ValidCharacters := by
  intro cs
  rw [validText_iff, everyByteFits_iff]

/-! ### The inverses (R126, R129) -/

/-- Settles O25: a group, a tail and a text are each decoded to what was encoded; `TR==` has trailing bits that Dec drops, and
decodes to the byte whose text is `TQ==`. -/
theorem textRoundTrip : Obligations.TextRoundTrip := by
  refine ⟨scDecGroup_scEncGroup, fun g => scDecGroup_scEncTail, fun b => ?_, [0x54, 0x52, 0x3D, 0x3D], [0x4D], ?_⟩
  · have h := decText_encText b
    exact ⟨by rw [validText, h]; rfl, h⟩
  · decide +kernel

/-! ### The lengths that CHECK and an empty loop decide (R127) -/

section
variable {s : State}

/-- CHECK finds the length of a DECODE that is no multiple of 4, on any platform (60_exceptions.md R131). -/
theorem checkCode_accept_decode_length (h : Inv s) (hv : s.params.variant ≠ .stub) (hr : s.rangesLegal .decode)
    (hl : s.len % 4 ≠ 0) : checkCode (accept (encode .decode) s) = some .invalid := by
  have hlen := (accept_latches h (encode .decode)).2.1
  unfold checkCode
  rw [(rangeFails_accept h).mpr hr, hlen, accept_params, accept_eng_cmd, if_neg hv]
  simp [encode, opcodeOf, hl]

/-- An empty range touches no region and not the register window. -/
theorem admits_zero (s : State) (lo : Nat) : s.admits lo 0 = true := by
  simp [State.admits, State.touchesDevice, State.touches, rangesOverlap]

/-- The ranges of a DECODE of length 0 are empty. -/
theorem canRun_decode_empty (h : Ready s) (hv : s.params.variant ≠ .stub) (hr : s.rangesLegal .decode) (hl : s.len = 0) :
    CanRun .decode s :=
  { h with built := hv, ranges := hr, sourceOk := hl ▸ admits_zero s _
           destOk := by rw [State.outmaxOf, hl]; exact admits_zero s _ }

end

/-- Settles O20: CHECK finds a length that is no multiple of 4, and DECODE of no character writes the empty text. -/
theorem decodeLengthRule : Obligations.DecodeLengthRule := by
  intro s h hv hr
  constructor
  · intro hl
    have hcheck := checkCode_accept_decode_length h.inv hv hr hl
    obtain ⟨t, ht, hmem, hregs⟩ := (completesIn_checkCode rfl rfl hcheck).exec h
    exact ⟨t, ht, hregs, hmem⟩
  · intro hl
    have hempty : decText s.source = some [] := by rw [State.source, hl]; rfl
    have hstrides : decStrides s.params s.len (padCount s.source) = 0 := by simp [decStrides, hl]
    obtain ⟨t, ht, hmem, -, hregs⟩ := (decodeWritesBytes s (canRun_decode_empty h hv hr hl)).1 [] hempty
    exact ⟨t, ht, by rw [hregs, hstrides]; rfl, hmem⟩

end Sys2Proof.Machine

/-! How a command ends with an error (60_exceptions.md R131 to R136): with a code of CHECK, and with BUS_ERR as soon as the bus
answers one of its accesses with an error. -/

namespace Sys2Proof.Machine

/-! ### The codes of CHECK (R131 to R134) -/

section
variable {s t : State} {w : Word} {i : Instr}

theorem encode_eq_one_or_two (i : Instr) : encode i = 1 ∨ encode i = 2 := by
  cases i with
  | encode => exact .inl rfl
  | decode => exact .inr rfl

theorem checkCode_of_illegal (h1 : s.eng.cmd ≠ 1) (h2 : s.eng.cmd ≠ 2) : checkCode s = some .badCmd :=
  if_pos ⟨h1, h2⟩

/-- A command of a build without a datapath, whatever its operands (R133). -/
theorem checkCode_of_stub (hcmd : s.eng.cmd = 1 ∨ s.eng.cmd = 2) (hv : s.params.variant = .stub) :
    checkCode s = some .notApplicable := by
  unfold checkCode
  rw [if_neg (by tauto), if_pos hv]

/-- A command whose ranges fail, whatever its length (R134). -/
theorem checkCode_of_rangeFails (hcmd : s.eng.cmd = 1 ∨ s.eng.cmd = 2) (hv : s.params.variant ≠ .stub)
    (hr : rangeFails s = true) : checkCode s = some .rangeErr := by
  unfold checkCode
  rw [if_neg (by tauto), if_neg hv, if_pos hr]

/-- A CMD write that CHECK ends with a code completes with it, with counts 0 and with no memory access (R131). -/
theorem writeCmd_of_checkCode {c : ResultCode} (h : Ready s) (hc : checkCode (accept w s) = some c) :
    ∃ t, writeCmd w s = .next t ∧ t.regs = s.completedRegs c 0 0 ∧ t.mem = s.mem := by
  obtain ⟨t, ht, -, hmem, hregs⟩ := completesIn_checkCode rfl rfl hc
  exact ⟨t, by rw [writeCmd_ready h, ht], hregs, hmem⟩

/-- CHECK ends a command INVALID for its length alone, and only DECODE. -/
theorem checkCode_encode_ne_invalid (hcmd : s.eng.cmd = 1) : checkCode s ≠ some .invalid := by
  have hlength : ¬(s.eng.cmd = 2 ∧ s.eng.len.toNat % 4 ≠ 0) := by simp [hcmd]
  unfold checkCode
  rw [if_neg hlength]
  repeat' split
  all_goals simp

/-- Where the bus answers, ENCODE ends with a code of CHECK or with OK. -/
theorem commandResult_encode_ne_invalid (hcmd : s.eng.cmd = 1) : (commandResult s).1 ≠ .invalid := by
  cases hc : checkCode s with
  | some c =>
    simp only [commandResult, hc]
    rintro rfl
    exact checkCode_encode_ne_invalid hcmd hc
  | none => simp [commandResult, hc, hcmd]

end

/-- Settles O17: CHECK asks first whether the word is a command's. -/
theorem illegalWordsCompleteBadCmd : Obligations.IllegalWordsCompleteBadCmd := by
  intro s w h h1 h2
  exact writeCmd_of_checkCode h (checkCode_of_illegal h1 h2)

/-- Settles O18: CHECK asks for a datapath before it looks at an operand. -/
theorem stubCompletesNotApplicable : Obligations.StubCompletesNotApplicable := by
  intro s i h hv
  rw [exec_eq_writeCmd]
  exact writeCmd_of_checkCode h (checkCode_of_stub (encode_eq_one_or_two i) hv)

/-- Settles O19: CHECK's range tests are those of the operand registers, and come before the length. -/
theorem rangeErrorBeforeAnyAccess : Obligations.RangeErrorBeforeAnyAccess := by
  intro s i h hv hr
  rw [← rangeFails_accept h.inv, Bool.not_eq_false] at hr
  rw [exec_eq_writeCmd]
  exact writeCmd_of_checkCode h (checkCode_of_rangeFails (encode_eq_one_or_two i) hv hr)

/-- Settles O26: an ENCODE ends BUS_ERR, or with the result it has where the bus answers. -/
theorem encodeNeverInvalid : Obligations.EncodeNeverInvalid := by
  intro s t h ht
  rw [exec_eq_writeCmd] at ht
  rcases writeCmd_result h ht with ⟨-, hbus, -⟩ | ⟨strides, -, hregs⟩
  · simp [hbus]
  · rw [hregs]
    exact commandResult_encode_ne_invalid rfl

end Sys2Proof.Machine

/-! A bus error ends the command that meets it (60_exceptions.md R136): a command that ends otherwise has had an answer to every
access, and has accessed its whole source and every byte it wrote. -/

namespace Sys2Proof.Machine

/-! ### Ranges that touch no error region -/

section
variable {s t u : State} {k : RegionKind} {lo n m : Nat}

theorem touches_congr (h : t.regions = s.regions) (k : RegionKind) (lo n : Nat) : t.touches k lo n = s.touches k lo n := by
  simp only [State.touches, h]

theorem touches_zero (s : State) (k : RegionKind) (lo : Nat) : s.touches k lo 0 = false := by
  simp [State.touches, rangesOverlap]

/-- Two ranges end to end that touch no region of a kind. -/
theorem touches_append (h1 : s.touches k lo n = false) (h2 : s.touches k (lo + n) m = false) :
    s.touches k lo (n + m) = false := by
  simp only [State.touches, List.any_eq_false, Bool.and_eq_true, not_and, Bool.not_eq_true] at h1 h2 ⊢
  intro r hr hk
  have h1 := h1 r hr hk
  have h2 := h2 r hr hk
  simp only [rangesOverlap, Bool.and_eq_false_iff, decide_eq_false_iff_not] at h1 h2 ⊢
  omega

/-- The start of a range that touches no region of a kind. -/
theorem touches_of_le (h : s.touches k lo m = false) (hn : n ≤ m) : s.touches k lo n = false :=
  touches_of_subrange h le_rfl (by omega)

theorem touches_error_of_answered (h : s.busFails lo n = false) : s.touches .error lo n = false := by
  simp only [State.busFails, Bool.or_eq_false_iff] at h
  exact h.1

theorem narrow_toNat_le (p : Params) (n : Nat) : (narrow p n).toNat ≤ n :=
  (Nat.mod_le _ _).trans (Nat.mod_le _ _)

/-! ### What the answers of the bus tell of a command -/

/-- What the steps of s write goes to memory: it is not the VALIDATE pass of DECODE (41_loop_driver.md R91). -/
def Writing (s : State) : Prop := s.eng.phase = .encVec ∨ s.eng.phase = .encTail ∨ s.eng.pass = .write

/-- The command of s is past CHECK, and no access of its pass has touched an error region. -/
structure Answered (s : State) : Prop where
  started : s.eng.phase ≠ .idle ∧ s.eng.phase ≠ .check
  notRaced : s.raced = false
  source : s.touches .error s.eng.src.toNat s.eng.rd.toNat = false
  dest : Writing s → s.touches .error s.eng.dst.toNat s.eng.wr.toNat = false

/-- How a command past CHECK ends: with BUS_ERR; with OK, when neither its source nor what it wrote touches an error region; or
with INVALID, when a byte of its source is in none. -/
inductive Ended (t : State) : Prop where
  | busErr (regs : t.regs = t.completedRegs .busErr 0 0)
  | ok (result : t.regs.status.result = .ok)
    (source : t.touches .error t.eng.src.toNat t.eng.len.toNat = false)
    (dest : t.touches .error t.eng.dst.toNat t.regs.resultCount.toNat = false)
  | invalid (result : t.regs.status.result = .invalid)
    (source : ∃ a, t.inSource a = true ∧ t.touches .error a 1 = false)

/-- An outcome in which the command goes on, with every access answered, or has ended. -/
def Answers : Host.Outcome State Fault Refusal → Prop
  | .next t => Answered t ∨ t.eng.phase = .idle ∧ Ended t
  | .fault _ => True
  | .refused _ => False

theorem Answered.answers (h : Answered s) : Answers (.next s) := .inl h

theorem finishBusErr_answers (h : s.raced = false) : Answers (.next (finishBusErr s)) := by
  rw [finishBusErr, finish_of_not_raced (s := scrambleDest s) _ h]
  exact .inr ⟨rfl, .busErr rfl⟩

theorem finish_ok_answers (h : s.raced = false) (hsrc : s.touches .error s.eng.src.toNat s.eng.len.toNat = false)
    (hdst : s.touches .error s.eng.dst.toNat s.eng.wr.toNat = false) : Answers (.next (finish .ok s)) := by
  rw [finish_of_not_raced _ h]
  exact .inr ⟨rfl, .ok rfl hsrc hdst⟩

theorem finish_invalid_answers (h : s.raced = false) {a : Nat} (ha : s.inSource a = true)
    (hsrc : s.touches .error a 1 = false) : Answers (.next (finish .invalid s)) := by
  rw [finish_of_not_raced _ h]
  exact .inr ⟨rfl, .invalid rfl ⟨a, ha, hsrc⟩⟩

/-! ### The middle of a step -/

/-- u is s in the middle of a step, which has worked on memory and on the vector and group registers, and has drawn free
values. -/
def MidStep (s u : State) : Prop := ∃ m q g d, u = { worked m q g s with draws := d }

theorem midStep_refl (s : State) : MidStep s s := ⟨s.mem, s.eng.q, s.eng.grp, s.draws, rfl⟩

theorem MidStep.setVReg (h : MidStep s u) (q : VReg) : MidStep s (setVReg q u) := by
  obtain ⟨m, _, g, d, rfl⟩ := h
  exact ⟨m, q, g, d, rfl⟩

theorem MidStep.loadGroup (h : MidStep s u) (l : List Byte) : MidStep s (loadGroup l u) := by
  obtain ⟨m, q, g, d, rfl⟩ := h
  exact ⟨m, q, g.load l, d, rfl⟩

theorem MidStep.busTick (h : MidStep s u) (lo n : Nat) : MidStep s (u.busTick lo n) := by
  obtain ⟨m, q, g, d, rfl⟩ := h
  unfold State.busTick
  split
  · exact ⟨m, q, g, d + 1, rfl⟩
  · exact ⟨m, q, g, d, rfl⟩

theorem MidStep.written (h : MidStep s u) (m : List Host.Cell) : MidStep s { u with mem := m } := by
  obtain ⟨_, q, g, d, rfl⟩ := h
  exact ⟨m, q, g, d, rfl⟩

theorem MidStep.raced (h : MidStep s u) : u.raced = s.raced := by
  obtain ⟨m, q, g, d, rfl⟩ := h
  rfl

theorem MidStep.pass (h : MidStep s u) : u.eng.pass = s.eng.pass := by
  obtain ⟨m, q, g, d, rfl⟩ := h
  rfl

/-- The VALIDATE pass of DECODE, seen from the middle of a step. -/
theorem MidStep.not_writing (h : MidStep s u) (hp : s.eng.phase = .decVec ∨ s.eng.phase = .decTail)
    (hpass : u.eng.pass = .validate) : ¬Writing s := by
  rw [h.pass] at hpass
  rcases hp with hp | hp <;> simp [Writing, hp, hpass]

/-- A MemRead at the source cursor goes on only if it touches no error region. -/
theorem Answered.memRead (h : Answered s) {k : List Byte → State → Host.Outcome State Fault Refusal}
    (hk : s.touches .error (srcCursor s) n = false → ∀ l u, MidStep s u → Answers (k l u)) :
    Answers (memRead (srcCursor s) n s k) := by
  have htick := (midStep_refl s).busTick (srcCursor s) n
  rcases memRead_cases (srcCursor s) n s k with ⟨-, he⟩ | ⟨-, -, he⟩ | ⟨-, hb, he⟩ <;> rw [he]
  · trivial
  · exact finishBusErr_answers (htick.raced.trans h.notRaced)
  · exact hk (touches_error_of_answered hb) _ _ htick

/-- A MemWrite at the destination cursor goes on only if it touches no error region. -/
theorem MidStep.memWrite (hu : MidStep s u) (h : Answered s) {l : List Byte}
    {k : State → Host.Outcome State Fault Refusal}
    (hk : s.touches .error (dstCursor s) l.length = false → ∀ v, MidStep s v → Answers (k v)) :
    Answers (memWrite (dstCursor u) l u k) := by
  have htick := hu.busTick (dstCursor u) l.length
  rcases memWrite_cases (dstCursor u) l u k with ⟨-, he⟩ | ⟨-, -, he⟩ | ⟨-, hb, he⟩ <;> rw [he]
  · trivial
  · exact finishBusErr_answers (htick.raced.trans h.notRaced)
  · refine hk ?_ _ (htick.written _)
    obtain ⟨m, q, g, d, rfl⟩ := hu
    exact (touches_error_of_answered hb :)

/-- The cursors after accesses that were answered. -/
theorem MidStep.moveCursors (hu : MidStep s u) (h : Answered s)
    (hread : s.touches .error (srcCursor s) n = false) (hwrite : Writing s → s.touches .error (dstCursor s) m = false)
    (v : Nat) : Answered (moveCursors n m v u) := by
  obtain ⟨_, q, g, d, rfl⟩ := hu
  exact ⟨h.started, h.notRaced, touches_of_le (touches_append h.source hread) (narrow_toNat_le _ _),
    fun hw => touches_of_le (touches_append (h.dest hw) (hwrite hw)) (narrow_toNat_le _ _)⟩

/-- A change of phase in a pass. -/
theorem MidStep.setPhase (hu : MidStep s u) (h : Answered s) {f : Phase} (hf : f ≠ .idle ∧ f ≠ .check)
    (hw : Writing (setPhase f s) → Writing s) : Answered (setPhase f u) := by
  obtain ⟨_, q, g, d, rfl⟩ := hu
  exact ⟨hf, h.notRaced, h.source, fun hw' => h.dest (hw hw')⟩

/-- A pass begins with no byte read or written. -/
theorem startLoop_answered {f : Phase} (hf : f ≠ .idle ∧ f ≠ .check) (hr : s.raced = false) (p : Pass) :
    Answered (startLoop p f s) :=
  ⟨hf, hr, touches_zero s _ _, fun _ => touches_zero s _ _⟩

/-- The source of a pass whose last bytes are answered too. -/
theorem Answered.whole_source (h : Answered s) (hread : s.touches .error (srcCursor s) (remaining s) = false) :
    s.touches .error s.eng.src.toNat s.eng.len.toNat = false :=
  touches_of_le (touches_append h.source hread) (by unfold remaining; omega)

/-- A pass that has come to the end of its source ends OK. -/
theorem Answered.finish_ok (h : Answered s) (h0 : remaining s = 0) (hw : Writing s) : Answers (.next (finish .ok s)) :=
  finish_ok_answers h.notRaced (h.whole_source (h0 ▸ touches_zero s _ _)) (h.dest hw)

/-! ### The engine steps -/

theorem encStart_started (p : Params) : encStart p ≠ .idle ∧ encStart p ≠ .check := by unfold encStart; split <;> simp

theorem decStart_started (p : Params) : decStart p ≠ .idle ∧ decStart p ≠ .check := by unfold decStart; split <;> simp

theorem startCommand_answered (hr : s.raced = false) : Answered (startCommand s) := by
  unfold startCommand
  split
  · exact startLoop_answered (encStart_started _) hr _
  · exact startLoop_answered (decStart_started _) hr _

theorem length_scEncTail {l : List Byte} (h0 : 0 < l.length) (h3 : l.length < 3) : (scEncTail l).length = 4 := by
  rw [scEncTail_eq_encText h0 h3, length_encText]
  omega

theorem stepEncVec_answers (h : Answered s) (hp : s.eng.phase = .encVec) : Answers (stepEncVec s) := by
  unfold stepEncVec
  dsimp only
  split
  · refine h.memRead fun hread x u hu => ?_
    refine (hu.setVReg _).memWrite h fun hwrite v hv => ?_
    rw [VReg.length_lanes] at hwrite
    exact (hv.moveCursors h hread (fun _ => hwrite) 1).answers
  · exact ((midStep_refl s).setPhase h (by simp) fun _ => .inl hp).answers

theorem stepEncTail_answers (h : Answered s) (hp : s.eng.phase = .encTail) : Answers (stepEncTail s) := by
  unfold stepEncTail
  dsimp only
  split
  · refine h.memRead fun hread x u hu => ?_
    refine (hu.loadGroup x).memWrite h fun hwrite v hv => ?_
    rw [length_scEncGroup] at hwrite
    exact (hv.moveCursors h hread (fun _ => hwrite) 0).answers
  · split
    · exact h.finish_ok ‹_› (.inr (.inl hp))
    · refine h.memRead fun hread x u hu => ?_
      refine (hu.loadGroup x).memWrite h fun hwrite v hv => ?_
      rw [length_scEncTail (by simp [Group.bytes]; omega) (by simp [Group.bytes]; omega)] at hwrite
      have hmoved := hv.moveCursors h hread (fun _ => hwrite) 0
      have hsrc := h.whole_source hread
      obtain ⟨_, q, g, d, rfl⟩ := hv
      exact finish_ok_answers hmoved.notRaced hsrc (hmoved.dest (.inr (.inl hp)))

theorem stepDecVec_answers (h : Answered s) (hp : s.eng.phase = .decVec) : Answers (stepDecVec s) := by
  have hleave : ∀ u, MidStep s u → Answers (.next (setPhase .decTail u)) := fun u hu =>
    (hu.setPhase h (by simp) fun hw => by simpa [Writing, hp] using hw).answers
  unfold stepDecVec
  dsimp only
  split
  · refine h.memRead fun hread x u hu => ?_
    split
    · exact hleave _ (hu.setVReg _)
    · split
      · rename_i hpass
        have hv : ¬Writing s := hu.not_writing (.inl hp) hpass
        exact ((hu.setVReg _).moveCursors h hread (fun hw => absurd hw hv) 1).answers
      · refine ((hu.setVReg _).setVReg _).memWrite h fun hwrite v hv => ?_
        rw [VReg.length_lanes] at hwrite
        exact (hv.moveCursors h hread (fun _ => hwrite) 1).answers
  · exact hleave _ (midStep_refl s)

theorem stepDecTail_answers (h : Answered s) (hp : s.eng.phase = .decTail) : Answers (stepDecTail s) := by
  unfold stepDecTail
  dsimp only
  split
  · split
    · exact (startLoop_answered (decStart_started _) h.notRaced _).answers
    · exact h.finish_ok ‹_› (.inr (.inr ‹_›))
  · rename_i h0
    refine h.memRead fun hread g u hu => ?_
    split
    · have ha : s.inSource (srcCursor s) = true :=
        inSource_of_cursor (n := 1) (by omega) le_rfl (by omega)
      obtain ⟨_, q, _, d, rfl⟩ := hu
      exact finish_invalid_answers h.notRaced ha (touches_of_le hread (by omega))
    · split
      · rename_i hpass
        have hv : ¬Writing s := hu.not_writing (.inr hp) hpass
        exact ((hu.loadGroup g).moveCursors h hread (fun hw => absurd hw hv) 0).answers
      · refine (hu.loadGroup g).memWrite h fun hwrite v hv => ?_
        exact (hv.moveCursors h hread (fun _ => hwrite) 0).answers

theorem engineStep_answers (h : Answered s) : Answers (engineStep s) := by
  obtain ⟨hidle, hcheck⟩ := h.started
  unfold engineStep
  split
  · exact absurd ‹_› hidle
  · exact absurd ‹_› hcheck
  · exact stepEncVec_answers h ‹_›
  · exact stepEncTail_answers h ‹_›
  · exact stepDecVec_answers h ‹_›
  · exact stepDecTail_answers h ‹_›

theorem engineRun_answers (n : Nat) (h : Answered s) : Answers (engineRun n s) := by
  induction n generalizing s with
  | zero => exact h.answers
  | succ n ih =>
    have hstep := engineStep_answers h
    rw [engineRun_succ n h.started.1]
    cases he : engineStep s with
    | next t =>
      rw [he] at hstep
      rcases hstep with ht | ht
      · exact ih ht
      · show Answers (engineRun n t)
        rw [engineRun_idle n ht.1]
        exact .inr ht
    | fault f => trivial
    | refused r => rw [he] at hstep; exact hstep.elim

/-! ### A command past CHECK, from its CMD write to its end -/

variable {i : Instr}

/-- A command that runs to its end leaves the block IDLE. -/
theorem writeCmd_idle (h : Ready s) {w : Word} (ht : writeCmd w s = .next t) : t.eng.phase = .idle := by
  rcases writeCmd_result h ht with ⟨hidle, -, -⟩ | ⟨strides, -, hregs⟩
  · exact hidle
  · have hinv : Good (issue w s) := issue_good h.inv w
    rw [← writeCmd_eq_issue, ht] at hinv
    by_contra hp
    have hbusy := hinv.busyIff.mpr hp
    simp [hregs, State.completedRegs] at hbusy

/-- A command that CHECK lets go on, and that touches no side effects, comes to its end. -/
theorem exec_ended (h : Ready s) (hv : s.params.variant ≠ .stub) (hr : s.rangesLegal i)
    (hl : i = .decode → s.len % 4 = 0) (hsrc : s.touchesDevice s.src s.len = false)
    (hdst : s.touchesDevice s.dst (s.outmaxOf i) = false) : ∃ t, exec i s = .next t ∧ Ended t := by
  obtain ⟨esrc, elen, edst⟩ := accept_latches h.inv (encode i)
  have hside : touchesSideEffects (accept (encode i) s) = false := by
    rw [touchesSideEffects, Bool.or_eq_false_iff, esrc, elen, edst, dstSize_accept h.inv]
    exact ⟨hsrc, hdst⟩
  have he : engineStep (accept (encode i) s) = .next (startCommand (accept (encode i) s)) := by
    simp [engineStep, stepCheck, checkCode_accept h.inv hv hr hl, hside]
  obtain ⟨n, hn⟩ := stepBound_eq_succ (accept (encode i) s)
  have hrun : exec i s = engineRun n (startCommand (accept (encode i) s)) := by
    rw [exec_eq_writeCmd, writeCmd_ready h, hn]
    exact engineRun_step n (by simp) he
  have hanswers : Answers (exec i s) := hrun ▸ engineRun_answers n (startCommand_answered rfl)
  have hgood : Good (exec i s) := by
    rw [exec_eq_writeCmd, writeCmd_eq_issue]
    exact issue_good h.inv _
  cases ht : exec i s with
  | next t =>
    rw [ht] at hanswers
    refine ⟨t, rfl, ?_⟩
    rcases hanswers with ha | ⟨-, hend⟩
    · exact absurd (writeCmd_idle h ((exec_eq_writeCmd i s).symm.trans ht)) ha.started.1
    · exact hend
  | fault f => rw [ht] at hgood; exact hgood.elim
  | refused r => rw [ht] at hanswers; exact hanswers.elim

/-- outmax of legal ranges is below 2^AW: a destination of 2^AW bytes would overlap the source (60_exceptions.md R134). -/
theorem outmaxOf_lt_space (hr : s.rangesLegal i) : s.outmaxOf i < s.params.space := by
  have := space_pos s.params
  obtain ⟨hsrc, hdst, hdisjoint⟩ := hr
  cases i with
  | encode => simp only [State.outmaxOf] at hdst hdisjoint ⊢; omega
  | decode => simp only [State.outmaxOf] at hdst hdisjoint ⊢; omega

/-- What ENCODE comes to where the bus answers (41_loop_driver.md R89). -/
theorem commandResult_accept_encode (h : Inv s) (hv : s.params.variant ≠ .stub) (hr : s.rangesLegal .encode) :
    commandResult (accept (encode .encode) s) = (.ok, encText s.source) := by
  have hcmd : (accept (encode .encode) s).eng.cmd = 1 := rfl
  simp only [commandResult, checkCode_accept h hv hr (by simp), hcmd, if_true, wholeSource_accept h]

/-- What DECODE of a Valid source comes to where the bus answers (41_loop_driver.md R94). -/
theorem commandResult_accept_decode (h : Inv s) (hv : s.params.variant ≠ .stub) (hr : s.rangesLegal .decode)
    {o : List Byte} (ho : decText s.source = some o) :
    commandResult (accept (encode .decode) s) = (.ok, o) := by
  have hl : s.len % 4 = 0 := by simpa [State.source] using (length_of_decText ho).1
  have hcmd : (accept (encode .decode) s).eng.cmd ≠ 1 := by simp [encode, opcodeOf]
  simp only [commandResult, checkCode_accept h hv hr fun _ => hl, if_neg hcmd, wholeSource_accept h, ho]

/-- A command that would write o where the bus answers, and whose source or whose bytes of o touch an error region, has not
ended but with BUS_ERR. -/
theorem regs_of_error_touched (h : Ready s) (hr : s.rangesLegal i) (ht : exec i s = .next t) (hend : Ended t)
    {o : List Byte} (ho : o.length ≤ s.outmaxOf i) (hres : commandResult (accept (encode i) s) = (.ok, o))
    (htouch : s.touches .error s.src s.len = true ∨ s.touches .error s.dst o.length = true) :
    t.regs = t.completedRegs .busErr 0 0 := by
  obtain ⟨-, -, -, -, -, hsrc, hlen, hdst, -, hregions, -⟩ := commandFrame s t i h.inv h.notBusy h.released ht
  have hresult := writeCmd_result h ((exec_eq_writeCmd i s).symm.trans ht)
  rw [hres] at hresult
  cases hend with
  | busErr hregs => exact hregs
  | ok hok hs hd =>
    rcases hresult with ⟨-, hbus, -⟩ | ⟨strides, -, hregs⟩
    · simp [hbus] at hok
    · have hcount : t.regs.resultCount.toNat = o.length := by
        have := outmaxOf_lt_space hr
        have := space_le h.inv.params
        rw [hregs]
        exact BitVec.toNat_ofNat _ _ ▸ Nat.mod_eq_of_lt (show o.length < 2 ^ 64 by omega)
      rw [touches_congr hregions, hsrc, hlen] at hs
      rw [touches_congr hregions, hdst, hcount] at hd
      simp [hs, hd] at htouch
  | invalid hinvalid _ =>
    rcases hresult with ⟨-, hbus, -⟩ | ⟨strides, -, hregs⟩
    · simp [hbus] at hinvalid
    · simp [hregs, State.completedRegs] at hinvalid

/-- A command whose source is all in an error region has not ended but with BUS_ERR: no byte of it can be read. -/
theorem regs_of_source_in_error (h : Ready s) (ht : exec i s = .next t) (hend : Ended t) (hpos : 0 < s.len)
    {r : Region} (hmem : r ∈ s.regions) (hkind : r.kind = .error) (hlo : r.base ≤ s.src)
    (hhi : s.src + s.len ≤ r.base + r.size) : t.regs = t.completedRegs .busErr 0 0 := by
  obtain ⟨-, -, -, -, -, hsrc, hlen, -, -, hregions, -⟩ := commandFrame s t i h.inv h.notBusy h.released ht
  have htouch : ∀ lo n, 0 < n → s.src ≤ lo → lo + n ≤ s.src + s.len → t.touches .error lo n = true := by
    intro lo n hn h1 h2
    rw [touches_congr hregions, State.touches, List.any_eq_true]
    refine ⟨r, hmem, ?_⟩
    simp only [hkind, rangesOverlap, BEq.rfl, Bool.true_and, Bool.and_eq_true, decide_eq_true_eq]
    omega
  cases hend with
  | busErr hregs => exact hregs
  | ok _ hs _ =>
    rw [hsrc, hlen, htouch _ _ hpos le_rfl le_rfl] at hs
    cases hs
  | invalid _ hs =>
    obtain ⟨a, ha, hs⟩ := hs
    simp only [State.inSource, hsrc, hlen, Bool.and_eq_true, decide_eq_true_eq] at ha
    rw [htouch a 1 Nat.one_pos ha.1 ha.2] at hs
    cases hs

end

/-- Settles O28: a command past CHECK ends with BUS_ERR unless its accesses are answered, which those of its whole source and
of all it writes, or of any byte of a source in an error region, are not. -/
theorem busErrorEndsCommand : Obligations.BusErrorEndsCommand := by
  intro s i h hv hr hsrc hdst hcause
  have hl : i = .decode → s.len % 4 = 0 := by
    rintro rfl
    rcases hcause with ⟨hi, -⟩ | ⟨-, o, ho, -⟩ | ⟨-, hl, -⟩
    · cases hi
    · simpa [State.source] using (length_of_decText ho).1
    · exact hl
  obtain ⟨t, ht, hend⟩ := exec_ended h hv hr hl hsrc hdst
  have hregs : t.regs = t.completedRegs .busErr 0 0 := by
    rcases hcause with ⟨rfl, htouch⟩ | ⟨rfl, o, ho, htouch⟩ | ⟨-, -, hpos, r, hmem, hkind, hlo, hhi⟩
    · have hlen : (encText s.source).length = s.outmaxOf .encode := by
        simp [length_encText, State.source, State.outmaxOf]
      exact regs_of_error_touched h hr ht hend hlen.le (commandResult_accept_encode h.inv hv hr) (hlen ▸ htouch)
    · have hlen : o.length ≤ s.outmaxOf .decode := by
        have := (length_of_decText ho).2
        simp only [State.source, Memory.length_readBytes] at this
        simp only [State.outmaxOf]
        omega
      exact regs_of_error_touched h hr ht hend hlen (commandResult_accept_decode h.inv hv hr ho) htouch
    · exact regs_of_source_in_error h ht hend hpos hmem hkind hlo hhi
  obtain ⟨hsa, hsl, hda, hover, -, -, -, -, -, -, -, -, -, -, hframe, -⟩ :=
    commandFrame s t i h.inv h.notBusy h.released ht
  exact ⟨t, ht, by rw [hregs, State.completedRegs, hsa, hsl, hda, hover]; rfl, hframe⟩

end Sys2Proof.Machine

/-! The bounds on a command's steps (70_reset_and_hazards.md R156): a run as long as the rank ends the command, or is refused for
what its ranges touch; and the operand registers, which no step of it reads (R153). -/

namespace Sys2Proof.Machine

section
variable {s t : State}

/-! ### The rank at acceptance -/

theorem engineRank_accept_encode (h : Inv s) : engineRank (accept 1 s) = (s.len + 2) / 3 + 3 := by
  rw [engineRank_check rfl, stepBound, (accept_latches h 1).2.1]
  rfl

theorem engineRank_accept_decode (h : Inv s) : engineRank (accept 2 s) = s.len / 2 + 5 := by
  rw [engineRank_check rfl, stepBound, (accept_latches h 2).2.1]
  rfl

/-! ### How a run ends -/

/-- A run that leaves a command running has lowered the rank at each of its steps, so a run as long as the rank leaves none. -/
theorem idle_of_engineRun {n : Nat} (h : Inv s) (hn : engineRank s ≤ n) (ht : engineRun n s = .next t) :
    t.eng.phase = .idle := by
  by_contra hp
  have hone : engineRun 1 t = .next t := by
    have hrun := engineRun_add n 1 s
    rw [ht, engineRun_of_rank_le h hn (Nat.le_add_right n 1), ht] at hrun
    exact hrun.symm
  have hgood := engineRun_good n h
  rw [ht] at hgood
  have hlower := engineRun_lowers 0 hgood hp
  rw [hone] at hlower
  exact Nat.lt_irrefl _ hlower

/-- A command that CHECK ends needs no other step. -/
theorem engineRun_of_checkCode {c : ResultCode} (n : Nat) (hp : s.eng.phase = .check) (hc : checkCode s = some c) :
    engineRun (n + 1) s = .next (finish c s) := by
  have hstep : engineStep s = .next (finish c s) := by simp [engineStep, hp, stepCheck, hc]
  rw [engineRun_step n (by simp [hp]) hstep, engineRun_idle n (finish_ends c s).1]

/-- A run from CHECK is refused only where a range of the command touches memory with side effects (20_memory.md R52): a
command that has started is not refused. -/
theorem touchesSideEffects_of_refused {n : Nat} {x : Refusal} (hp : s.eng.phase = .check) (hr : s.raced = false)
    (hx : engineRun n s = .refused x) : x = .deviceMemory ∧ touchesSideEffects s = true := by
  cases n with
  | zero => cases hx
  | succ n =>
    cases hc : checkCode s with
    | some c =>
      rw [engineRun_of_checkCode n hp hc] at hx
      cases hx
    | none =>
      cases hd : touchesSideEffects s with
      | true =>
        simp only [engineRun, engineStep, hp, stepCheck, hc, hd, if_true] at hx
        cases hx
        exact ⟨rfl, rfl⟩
      | false =>
        have hstep : engineStep s = .next (startCommand s) := by simp [engineStep, hp, stepCheck, hc, hd]
        have hanswers := engineRun_answers n (startCommand_answered hr)
        rw [← engineRun_step n (by simp [hp]) hstep, hx] at hanswers
        exact hanswers.elim

theorem touchesSideEffects_accept (h : Inv s) (w : Word) :
    touchesSideEffects (accept w s) = (s.touchesDevice s.src s.len || s.touchesDevice s.dst (outmax w s.len)) := by
  obtain ⟨hsrc, hlen, hdst⟩ := accept_latches h w
  rw [touchesSideEffects, State.dstSize, hsrc, hlen, hdst]
  rfl

/-- A run from acceptance, as long as the rank: the command has ended, or is refused. -/
theorem engineRun_accept_ends (h : Inv s) (hr : s.inReset = false) {w : Word} {n : Nat}
    (hn : engineRank (accept w s) ≤ n) :
    (∃ t, engineRun n (accept w s) = .next t ∧ t.eng.phase = .idle) ∨
    (engineRun n (accept w s) = .refused .deviceMemory ∧
      (s.touchesDevice s.src s.len = true ∨ s.touchesDevice s.dst (outmax w s.len) = true)) := by
  have hi := accept_inv h hr w
  have hgood := engineRun_good n hi
  cases hrun : engineRun n (accept w s) with
  | next t => exact .inl ⟨t, rfl, idle_of_engineRun hi hn hrun⟩
  | fault f =>
    rw [hrun] at hgood
    exact hgood.elim
  | refused x =>
    obtain ⟨rfl, htouch⟩ := touchesSideEffects_of_refused rfl rfl hrun
    rw [touchesSideEffects_accept h, Bool.or_eq_true] at htouch
    exact .inr ⟨rfl, htouch⟩

/-! ### The operand registers (R153) -/

/-- What no engine step reads of a state, as it stands there. -/
def State.unread (s : State) : Unread where
  srcAddr := s.regs.srcAddr
  srcLen := s.regs.srcLen
  dstAddr := s.regs.dstAddr
  pace := s.pace

/-- A write of an operand register changes no more than what no engine step reads, and that by the build alone, which an
engine step keeps. -/
theorem writeReg_eq_rewritten {r : RegName} (hr : r = .srcAddr ∨ r = .srcLen ∨ r = .dstAddr) (w : Word)
    (h : EngineKeeps s t) : writeReg r w t = t.rewritten (writeReg r w s).unread := by
  obtain ⟨hsrc, hlen, hdst⟩ := h.operands
  rcases hr with rfl | rfl | rfl <;>
    simp only [writeReg, State.rewritten, State.unread, ← hsrc, ← hlen, ← hdst, ← h.params, ← h.pace]

end

/-! ### The statements -/

/-- Settles O32: a run as long as the rank at acceptance ends the command unless it is refused, and one step ends it where
CHECK does. -/
theorem commandsCompleteWithinBound : Obligations.CommandsCompleteWithinBound := by
  intro s w h _ hr
  refine ⟨fun n hn => engineRun_accept_ends h hr ?_, fun hc => ?_⟩
  · rcases hn with ⟨rfl, rfl⟩ | ⟨rfl, rfl⟩
    · exact (engineRank_accept_encode h).le
    · exact (engineRank_accept_decode h).le
  · obtain ⟨c, hc⟩ := Option.ne_none_iff_exists'.mp hc
    exact ⟨_, engineRun_of_checkCode 0 rfl hc, (finish_ends c _).1⟩

/-- Settles O33: by cases on the phase, and at acceptance the rank is the bound. -/
theorem engineStepsDecreaseRank : Obligations.EngineStepsDecreaseRank := by
  refine ⟨fun s t h hp ht => ?_, fun s h => ⟨engineRank_accept_encode h, engineRank_accept_decode h⟩⟩
  have hl := engineStep_lowers h hp
  rwa [ht] at hl

/-- Settles O16: no engine step reads an operand register, and the write finds in the next state what it found before. -/
theorem operandWritesDoNotAffectRunningCommand : Obligations.OperandWritesDoNotAffectRunningCommand := by
  intro s r w hr
  rw [writeReg_eq_rewritten hr w (.refl s), engineStep_sameBut s]
  cases he : engineStep s with
  | next t => exact congrArg Host.Outcome.next (writeReg_eq_rewritten hr w (engineStep_keeps he)).symm
  | fault f => rfl
  | refused x => rfl

end Sys2Proof.Machine

/-! The reset input (70_reset_and_hazards.md R148, R149): what a reset does to memory, alone and during a register access, and what a
command does that a register access during the release starts (log 16). -/

namespace Sys2Proof.Machine

section
variable {s : State}

/-! ### The memory that a reset leaves (R149) -/

theorem resetBlock_mem_of_idle (hp : s.eng.phase = .idle) : (resetBlock s).mem = s.mem := by
  simp only [resetBlock, hp, if_true]

theorem resetBlock_mem_of_running (hp : s.eng.phase ≠ .idle) : (resetBlock s).mem = (scrambleDest s).mem := by
  simp only [resetBlock, hp, if_false]

/-- A reset changes no byte outside the destination range of the command that runs, and none of its source. -/
theorem resetBlock_reads (h : Memory.wf s.mem = true) (a : Nat) :
    (¬(s.eng.dst.toNat ≤ a ∧ a < s.eng.dst.toNat + outmax s.eng.cmd s.eng.len.toNat) →
      Memory.read (resetBlock s).mem a = Memory.read s.mem a) ∧
    (s.eng.src.toNat ≤ a → a < s.eng.src.toNat + s.eng.len.toNat →
      Memory.read (resetBlock s).mem a = Memory.read s.mem a) := by
  by_cases hp : s.eng.phase = .idle
  · rw [resetBlock_mem_of_idle hp]
    exact ⟨fun _ => rfl, fun _ _ => rfl⟩
  · rw [resetBlock_mem_of_running hp]
    exact (confined_refl h).scrambleDest.reads a

theorem perform_reset_assert (hr : s.inReset = false) : perform (.resetInput true) s = .next (resetBlock s) := by
  simp only [perform, hostReset, hr, if_true, Bool.false_eq_true, if_false]

/-! ### A reset during an access (R149) -/

theorem Inv.busy_eq_false_iff (h : Inv s) : s.regs.status.busy = false ↔ s.eng.phase = .idle := by
  rw [← Bool.not_eq_true, h.busyIff, not_not]

/-- A write with no engine step after it leaves memory, and leaves the engine but for a command that it starts. -/
theorem hostWrite_paused (hr : s.inReset = false) (hp : s.pace = .steps 0) (r : RegName) (w : Word) :
    ∃ u, hostWrite r w s = .next u ∧ u.mem = s.mem ∧
      (u.eng = s.eng ∨ r = .cmd ∧ s.regs.status.busy = false ∧ u.eng = (accept w s).eng) := by
  by_cases hc : r = .cmd
  · subst hc
    rw [hostWrite, writeCmd_eq_issue]
    cases hb : s.regs.status.busy with
    | false =>
      rw [issue_accepted hr hb, advance_paused (s := accept w s) hp]
      exact ⟨_, rfl, rfl, .inr ⟨rfl, rfl, rfl⟩⟩
    | true =>
      rw [issue, if_neg (ne_true_of_eq_false hr), if_pos hb, advance_paused (s := overrun s) hp]
      exact ⟨_, rfl, rfl, .inl rfl⟩
  · rw [hostWrite_of_ne_cmd hc, advance_paused ((writeReg_pace r w s).trans hp)]
    exact ⟨_, rfl, writeReg_mem r w s, .inl (writeReg_eng r w s)⟩

/-- A reset during an access is the reset of a block that has had the access, or has not. -/
theorem perform_resetDuring {t : Transaction} {r : RegName} (hr : s.inReset = false) (hd : decodeAccess t = .ok r) :
    ∃ u, perform (.resetDuring t) s = .next (resetBlock u) ∧ u.mem = s.mem ∧
      (u.eng = s.eng ∨
        (t.kind = .write ∧ r = .cmd) ∧ s.regs.status.busy = false ∧ u.eng = (accept t.data s).eng) := by
  rw [perform, hostResetDuring, hd]
  dsimp only
  rw [if_neg (ne_true_of_eq_false hr)]
  cases t.kind with
  | read => exact ⟨_, rfl, rfl, .inl rfl⟩
  | write =>
    dsimp only
    split
    · obtain ⟨u, hu, hmem, heng⟩ :=
        hostWrite_paused (s := { s with draws := s.draws + 1, pace := .steps 0 }) hr rfl r t.data
      rw [hu]
      exact ⟨u, rfl, hmem, heng.imp_right fun ⟨hc, hb, he⟩ => ⟨⟨rfl, hc⟩, hb, he⟩⟩
    · exact ⟨_, rfl, rfl, .inl rfl⟩

/-! ### An access during the release (log 16) -/

theorem advance_idle (hp : s.eng.phase = .idle) : advance s = .next s := by
  unfold advance
  split <;> exact engineRun_idle _ hp

theorem advance_eq_engineRun (s : State) : ∃ n, advance s = engineRun n s := by
  unfold advance
  split <;> exact ⟨_, rfl⟩

theorem outmax_zero (w : Word) : outmax w 0 = 0 := by
  unfold outmax
  split
  · rfl
  · split <;> rfl

theorem touchesDevice_zero (s : State) (lo : Nat) : s.touchesDevice lo 0 = false := by
  rw [State.touchesDevice, touches_zero]
  simp [rangesOverlap]

/-- An answer that changes no memory byte, and leaves the reset input as it was. -/
def KeepsMemory (s : State) (x : Host.Outcome State Fault Refusal) : Prop :=
  ∃ u, x = .next u ∧ u.inReset = s.inReset ∧ u.mem = s.mem

/-- A command of no length has empty ranges: it is not refused, and changes no memory. -/
theorem advance_accept_of_len_zero (h : Inv s) (hr : s.inReset = false) (hl : s.len = 0) (w : Word) :
    KeepsMemory s (advance (accept w s)) := by
  have hi := accept_inv h hr w
  have hgood := advance_good hi
  cases ha : advance (accept w s) with
  | next u =>
    have hconf := advance_confined hi u ha
    have hsize : (accept w s).dstSize = 0 := by
      rw [State.dstSize, (accept_latches h w).2.1]
      exact (congrArg (outmax w) hl).trans (outmax_zero w)
    exact ⟨u, rfl, hconf.keeps.inReset, Memory.ext_read hconf.memWf h.memWf fun a => (hconf.reads a).1 (by omega)⟩
  | fault f =>
    rw [ha] at hgood
    exact hgood.elim
  | refused x =>
    obtain ⟨n, hn⟩ := advance_eq_engineRun (accept w s)
    obtain ⟨-, htouch⟩ := touchesSideEffects_of_refused rfl rfl (hn.symm.trans ha)
    rw [touchesSideEffects_accept h, hl, outmax_zero, touchesDevice_zero, touchesDevice_zero] at htouch
    cases htouch

/-- A write to a block with the reset registers: a command that it starts has no length. -/
theorem hostWrite_of_reset_regs (h : Inv s) (hr : s.inReset = false) (hregs : s.regs = Regs.reset) (r : RegName)
    (w : Word) : KeepsMemory s (hostWrite r w s) := by
  have hbusy : s.regs.status.busy = false := by rw [hregs]; rfl
  by_cases hc : r = .cmd
  · subst hc
    have hlen : s.len = 0 := by rw [State.len, hregs]; rfl
    rw [hostWrite, writeCmd_eq_issue, issue_accepted hr hbusy]
    exact advance_accept_of_len_zero h hr hlen w
  · have hidle : (writeReg r w s).eng.phase = .idle := by rw [writeReg_eng, h.busy_eq_false_iff.mp hbusy]
    rw [hostWrite_of_ne_cmd hc, advance_idle hidle]
    exact ⟨_, rfl, writeReg_inReset r w s, writeReg_mem r w s⟩

/-- An access during the release is answered and changes no memory, and a read leaves the reset registers. -/
theorem perform_releaseDuring (h : Inv s) (hr : s.inReset = true) {t : Transaction} {r : RegName}
    (hd : decodeAccess t = .ok r) :
    ∃ u, perform (.releaseDuring t) s = .next u ∧ u.inReset = false ∧ u.mem = s.mem ∧
      (t.kind = .read → u.regs = Regs.reset) := by
  have hidle := h.resetStopsEngine hr
  have hregs := h.resetHolds hr
  simp only [perform, hostReleaseDuring, hd, hr, if_true]
  cases t.kind with
  | read =>
    dsimp only
    exact ⟨_, advance_idle hidle, rfl, rfl, fun _ => hregs⟩
  | write =>
    dsimp only
    split
    · obtain ⟨u, hu, hreset, hmem⟩ := hostWrite_of_reset_regs
        (s := { s with draws := s.draws + 1, inReset := false }) (released_inv h).outside rfl hregs r t.data
      exact ⟨u, hu, hreset, hmem, nofun⟩
    · exact ⟨_, advance_idle hidle, rfl, rfl, nofun⟩

end

/-! ### The statements -/

/-- Settles O42: the block is reset at the assertion, and the release changes the reset input alone. -/
theorem resetAbandonsCommand : Obligations.ResetAbandonsCommand := by
  intro s h
  refine ⟨fun hr => ?_, fun hr => ⟨_, rfl, h.resetHolds hr, h.resetStopsEngine hr, rfl, rfl⟩⟩
  have hreads := resetBlock_reads h.memWf
  exact ⟨_, _, perform_reset_assert hr, rfl, rfl, rfl, rfl, rfl, resetBlock_params s, resetBlock_regions s,
    resetBlock_mem_of_idle, fun a => (hreads a).1, fun a => (hreads a).2⟩

/-- Settles O43: the reset finds the engine of the command that ran, or of the one that the access started. -/
theorem resetDuringAccess : Obligations.ResetDuringAccess := by
  intro s t h ht
  have hd := decodeAccess_of_wf ht
  refine ⟨fun hr => ?_, fun hr => perform_releaseDuring h hr hd⟩
  obtain ⟨u, hu, hmem, heng⟩ := perform_resetDuring hr hd
  have hreads := resetBlock_reads (s := u) (hmem ▸ h.memWf)
  rw [hmem] at hreads
  refine ⟨_, hu, rfl, rfl, rfl, ?_⟩
  rcases heng with he | ⟨⟨hk, hc⟩, hb, he⟩
  · have hidle : s.eng.phase = .idle → (resetBlock u).mem = s.mem := fun hp =>
      (resetBlock_mem_of_idle (he ▸ hp)).trans hmem
    rw [he] at hreads
    refine ⟨fun _ => hreads, fun hp a => ?_, fun hp _ => hidle hp⟩
    rw [hidle hp]
    exact ⟨fun _ => rfl, fun _ _ => rfl⟩
  · obtain ⟨hsrc, hlen, hdst⟩ := accept_latches h t.data
    rw [he, hsrc, hlen, hdst] at hreads
    exact ⟨fun hp => absurd (h.busy_eq_false_iff.mp hb) hp, fun _ => hreads,
      fun _ hno => absurd ⟨hk, hd.trans (congrArg _ hc)⟩ hno⟩

/-- Settles O15: a well-formed access decodes, and the block in reset ignores it. -/
theorem resetIgnoresAccesses : Obligations.ResetIgnoresAccesses := by
  intro s t hr ht
  rw [perform, hostAccess, decodeAccess_of_wf ht]
  exact if_pos hr

end Sys2Proof.Machine
